-- ==== Sys2Proof/Word.lean ====
section
/-! DEFINITION. The data types of the block: the byte and the dictionary slot (spec 00_scope.md R7, R8; 10_state.md R21). -/

namespace Sys2Proof

/-- A data byte, and every 8-bit quantity of the block: bits 7 (most significant) to 0 (R8). Addition and
subtraction on it are the spec's arithmetic modulo 256 (R9). -/
abbrev Byte := BitVec 8

/-- A dictionary slot (R21): `none` is `Empty`, `some b` is `Filled(b)`. `Empty` carries no byte, so it can equal none
(R121, R247). -/
abbrev Slot := Option Byte

end Sys2Proof
end

