-- ==== Sys2Proof/Config.lean ====
section
/-! DEFINITION. The parameters the spec fixes for the block (00_scope.md R7). `LEN_W` has no entry: `IP`, `IN_LEN` and
`OUT_LEN` are unbounded natural numbers (R7, decision D10). -/

namespace Sys2Proof.Config

/-- `DICT_SIZE`: slots of the circular dictionary (R7). -/
@[simp] abbrev dictSize : Nat := 256

/-- `RUN_MAX`: most literals of one RUN command (R7); the least, `RUN_MIN`, is 1. -/
@[simp] abbrev runMax : Nat := 127

/-- `CACHE_MAX`: most bytes one CACHE command reproduces (R7); the least, `CACHE_MIN`, is `cacheBias`. -/
@[simp] abbrev cacheMax : Nat := 130

/-- `CACHE_BIAS`: decoded length less the 7-bit length field (R7, R94, 90_conflicts.md C1). -/
@[simp] abbrev cacheBias : Nat := 3

/-- `PROBE_LEN`: length of the long probe of DECIDE (R7, R151). -/
@[simp] abbrev probeLen : Nat := 3

/-- `GROUP`: bytes of an output group in buffered decompression (R7, R37). -/
@[simp] abbrev group : Nat := 4

/-- `WC_RESET`: the write cursor after reset (R7, decision D1). -/
@[simp] abbrev wcReset : Byte := 0

/-- The longest command of the stream in bytes: a RUN of `runMax` literals and its command byte (R92). -/
@[simp] abbrev longestCommand : Nat := 128

end Sys2Proof.Config
end

