-- ==== Sys2Proof/Syntax.lean ====
section
/-! DEFINITION. The instructions of the block: one constructor for each row of spec/opcode_table.json. Three are commands
of the compressed stream (R90), three are block-level operations (R100), five are operations of the dictionary
controller (R101). -/

namespace Sys2Proof

/-- One instruction, its operands in the form the rules use them. -/
inductive Instr where
  /-- END: the end of the stream (R91, R184). -/
  | endStream
  /-- RUN: the literal bytes, in output order (R92, R182). The count `n` is their number. -/
  | run (lits : List Byte)
  /-- CACHE: the 7-bit length field `k` (decoded length `k + 3`) and the offset byte `o` (R93, R183). -/
  | cache (k : BitVec 7) (o : Byte)
  /-- COMPRESS: encode `IN` to a command stream in `OUT` (R150). -/
  | compress
  /-- DECOMPRESS: decode `IN`, output in whole groups of four (R180). -/
  | decompress
  /-- DECOMPRESSNOBUF: decode `IN`, every byte output (R181). -/
  | decompressNobuf
  /-- PUSH: write a byte at the write cursor (R120). -/
  | push (b : Byte)
  /-- READ: the slot at an index, any natural number, used modulo 256 (R121). -/
  | read (i : Nat)
  /-- SNAPSHOT: copy the dictionary into the shadow (R122). -/
  | snapshot
  /-- RESTORE: copy the shadow back (R123). -/
  | restore
  /-- FIND: search the dictionary for a byte sequence (R124). -/
  | find (seq : List Byte)
  deriving DecidableEq, Repr

end Sys2Proof
end

