-- ==== Sys2Proof/WellFormed.lean ====
section
/-! DEFINITION. Which terms of `Instr` are instructions of the block: the operand ranges of the spec. -/

namespace Sys2Proof

/-- The operand ranges: a RUN carries 1 to 127 literals (R92), a FIND sequence has 1 to 130 bytes (R124, R127). Every
value of every other operand is legal: the length field and the offset byte of CACHE (R98), the byte of PUSH (R120),
the index of READ (R121). -/
def Instr.wellFormed : Instr → Bool
  | .endStream => true
  | .run lits => 1 ≤ lits.length && lits.length ≤ Config.runMax
  | .cache _ _ => true
  | .compress => true
  | .decompress => true
  | .decompressNobuf => true
  | .push _ => true
  | .read _ => true
  | .snapshot => true
  | .restore => true
  | .find seq => 1 ≤ seq.length && seq.length ≤ Config.cacheMax

end Sys2Proof
end

