-- ==== Sys2Proof/Decode.lean ====
section
/-! DEFINITION. Decoding and encoding, from the encoding tables of 30_encoding.md. The block has three separate encoding
spaces: the bytes of the compressed stream (R90 to R98), the block-level operation select `op` (R100) and the dictionary
operation port with its select `dop` (R101). -/

namespace Sys2Proof

/-- A command of the compressed stream (R90): what the stream decoder reads, before it is seen as an `Instr`. -/
inductive Command where
  | endStream
  | run (lits : List Byte)
  | cache (k : BitVec 7) (o : Byte)
  deriving DecidableEq, Repr

/-- The instruction a command is. -/
def Command.toInstr : Command → Instr
  | .endStream => .endStream
  | .run lits => .run lits
  | .cache k o => .cache k o

/-- What stands on the dictionary controller's operation port (R41, R101): the select and its operand lines. An
operation ignores the lines it has no operand for. -/
structure PortRequest where
  dop : BitVec 3
  byte : Byte
  index : Nat
  seq : List Byte
  deriving DecidableEq, Repr

/-- The encoding of an instruction, each in its own space. -/
inductive Encoded where
  /-- Bytes of the compressed stream, lowest address first. -/
  | stream (bytes : List Byte)
  /-- The select `op` sampled at start. -/
  | op (sel : BitVec 2)
  /-- A request on the dictionary operation port. -/
  | dop (req : PortRequest)
  deriving DecidableEq, Repr

/-- What the stream decoder finds at the front of the bytes that are left. -/
inductive Fetched where
  /-- No byte is left where a command byte is due (R211 (c)). -/
  | missing
  /-- The command byte is present and an operand byte is not (R211 (a), (b)). `c` is the command with 0x00 standing in
  for each missing byte: its meaning raises TruncatedStream at the first of them and never uses one (notes 9). -/
  | truncated (c : Command)
  /-- A whole command, and the bytes after it. -/
  | command (c : Command) (rest : List Byte)
  deriving DecidableEq, Repr

/-- Why an encoding is no instruction. -/
inductive Reject where
  /-- Stream: no command byte (R211 (c)). -/
  | missingCommandByte
  /-- Stream: an operand byte of the command is missing (R211 (a), (b)). -/
  | truncatedCommand
  /-- `op = 11` is reserved (R100). -/
  | reservedOperation
  /-- `dop = 101`, `110` and `111` are reserved (R101). -/
  | reservedDictOperation
  deriving DecidableEq, Repr

/-- The decoder's answer. -/
inductive Decoded where
  | instr (i : Instr) (rest : List Byte)
  | rejected (why : Reject)
  deriving DecidableEq, Repr

/-- The command at the front of a byte sequence, decided in the order of R97: `c = 0x00` is END; else `c[7] = 0` is RUN
of `c` literals (R96); else CACHE with length field `c[6:0]` and one offset byte (R93). Total: every first byte is some
command (R98). -/
def decodeStream : List Byte → Fetched
  | [] => .missing
  | c :: rest =>
    if c = 0x00#8 then .command .endStream rest
    else if c &&& 0x80#8 = 0x00#8 then
      if c.toNat ≤ rest.length then .command (.run (rest.take c.toNat)) (rest.drop c.toNat)
      else .truncated (.run (rest ++ List.replicate (c.toNat - rest.length) 0x00#8))
    else
      match rest with
      | o :: rest' => .command (.cache (c.setWidth 7) o) rest'
      | [] => .truncated (.cache (c.setWidth 7) 0x00#8)

/-- The block-level operation of a select (R100); `11` is reserved. -/
def decodeOp (sel : BitVec 2) : Option Instr :=
  if sel = 0#2 then some .compress
  else if sel = 1#2 then some .decompress
  else if sel = 2#2 then some .decompressNobuf
  else none

/-- The dictionary operation of a port request (R101); selects 5 to 7 are reserved. -/
def decodeDop (q : PortRequest) : Option Instr :=
  if q.dop = 0#3 then some (.push q.byte)
  else if q.dop = 1#3 then some (.read q.index)
  else if q.dop = 2#3 then some .snapshot
  else if q.dop = 3#3 then some .restore
  else if q.dop = 4#3 then some (.find q.seq)
  else none

/-- The decoder, total on every encoding, rejecting by name. -/
def decode : Encoded → Decoded
  | .stream bytes =>
    match decodeStream bytes with
    | .missing => .rejected .missingCommandByte
    | .truncated _ => .rejected .truncatedCommand
    | .command c rest => .instr c.toInstr rest
  | .op sel =>
    match decodeOp sel with
    | some i => .instr i []
    | none => .rejected .reservedOperation
  | .dop q =>
    match decodeDop q with
    | some i => .instr i []
    | none => .rejected .reservedDictOperation

/-- The command byte of a CACHE with length field `k`: bit 7 set, `k` in bits 6:0 (R93, R94). -/
def cacheByte (k : BitVec 7) : Byte := 0x80#8 ||| k.setWidth 8

/-- The command byte of a RUN of `n` literals: `n` itself (R92, R96). -/
def runByte (n : Nat) : Byte := BitVec.ofNat 8 n

/-- The bytes of a command (R91, R92, R93). -/
def Command.bytes : Command → List Byte
  | .endStream => [0x00#8]
  | .run lits => runByte lits.length :: lits
  | .cache k o => [cacheByte k, o]

/-- The encoder (R90, R100, R101). Operand lines a dictionary operation does not use are zero and empty. -/
def encode : Instr → Encoded
  | .endStream => .stream (Command.bytes .endStream)
  | .run lits => .stream (Command.bytes (.run lits))
  | .cache k o => .stream (Command.bytes (.cache k o))
  | .compress => .op 0#2
  | .decompress => .op 1#2
  | .decompressNobuf => .op 2#2
  | .push b => .dop { dop := 0#3, byte := b, index := 0, seq := [] }
  | .read i => .dop { dop := 1#3, byte := 0, index := i, seq := [] }
  | .snapshot => .dop { dop := 2#3, byte := 0, index := 0, seq := [] }
  | .restore => .dop { dop := 3#3, byte := 0, index := 0, seq := [] }
  | .find seq => .dop { dop := 4#3, byte := 0, index := 0, seq := seq }

/-- The stream bytes of a table word, the first byte in bits 7:0, zero above bit `nbits`, as many as the longest
command has. -/
def tableBytes (nbits w : Nat) : List Byte :=
  (List.range Config.longestCommand).map fun j => BitVec.ofNat 8 (w % 2 ^ nbits / 2 ^ (8 * j))

/-- The port request of a 3-bit table word: the select, and operands of zeros (for FIND the shortest sequence, one
zero byte). -/
def tableRequest (w : Nat) : PortRequest :=
  { dop := BitVec.ofNat 3 w, byte := 0, index := 0, seq := [0x00#8] }

/-- The instruction the decoder reads from a word numbered as the opcode table numbers it. The table's three spaces
overlap, so the width says which is meant: 2 bits is the select `op`, 3 bits the select `dop`, any other width bytes of
the stream (notes 14). -/
def decodeTableWord (nbits w : Nat) : Option Instr :=
  if nbits = 2 then decodeOp (BitVec.ofNat 2 w)
  else if nbits = 3 then decodeDop (tableRequest w)
  else
    match decodeStream (tableBytes nbits w) with
    | .command c _ => some c.toInstr
    | .truncated _ => none
    | .missing => none

end Sys2Proof
end

