-- ==== Sys2Proof/Machine/State.lean ====
section
/-! DEFINITION. The state of one block instance (10_state.md R20 to R37), the inputs of its two ports (R41), and the
reasons a step can stop. Plain data throughout. -/

namespace Sys2Proof.Machine

/-- An address space (R60): its bytes as (address, byte) pairs, addresses strictly rising. An address that is not
listed holds no byte: it lies outside `IN` or `OUT` (R61, R62), or is an `Empty` slot of the dictionary (R21). -/
abbrev Memory := List Host.Cell

/-- The dictionary `(D, WC)` (R21, R22): the `Filled` slots of `D` by slot number, and the write cursor. -/
structure Dict where
  d : Memory
  wc : Byte
  deriving DecidableEq, Repr

/-- `PHASE` (R29). Its 2-bit codes are `Phase.code`. -/
inductive Phase where
  | idle
  | busy
  | done
  | faulted
  deriving DecidableEq, Repr

/-- `MODE` (R33): the mode of the chunk being built. Its bit is `EncMode.code`. -/
inductive EncMode where
  | run
  | cache
  deriving DecidableEq, Repr

/-- The four faults of the block (R210). Each is a way an OPERATION ends, recorded in `STATUS`: taking one is a next
state (`State.raise`), not a stop of the model. -/
inductive FaultKind where
  | truncatedStream
  | internalInvariantViolation
  | undefinedDictionaryRead
  | invalidOperation
  deriving DecidableEq, Repr

/-- What the host does at one step (R41, R249). The host's signals have no order of their own in the spec; this model
takes them one a step, oldest first (notes 5). -/
inductive HostAction where
  /-- No signal: the block makes its own move. -/
  | quiet
  /-- `reset` is asserted (R240). -/
  | reset
  /-- `start` is asserted with `op`, and the host next looks when the operation has ended (R241, decision D17). -/
  | start (op : BitVec 2)
  /-- `start` is asserted with `op`, and the host may act while the operation runs, one command or chunk a step
  (R241, R249, decision D17). -/
  | startStepped (op : BitVec 2)
  /-- The host writes `IN` and `IN_LEN` (R249). -/
  | load (bytes : List Byte)
  /-- The host reads `phase` (R249). -/
  | readPhase
  /-- The host reads `status` (R249). -/
  | readStatus
  /-- The host reads `out_data`, `out_len`, `warn`, `dropped` (R41, R249). -/
  | readResult
  /-- The host reads `fpc`, `finfo` (R41, R249). -/
  | readFault
  deriving DecidableEq, Repr

/-- Why a step faults: the machine stops, and no next state is claimed. -/
inductive Fault where
  /-- Raised by an operation in progress (`State.enginePass`) when the cells of `IN` are not exactly the addresses 0 to
  `IN_LEN - 1` (R25, R61: a read below `IN_LEN` is defined, and here it would find no byte). No host action makes such
  an input space. Safe. -/
  | inputHole
  deriving DecidableEq, Repr

/-- Why a step is refused: the spec gives the action no meaning. -/
inductive Refusal where
  /-- Raised by `exec` for an instruction without a meaning; none is left. Safe. -/
  | notModelled (mnemonic : String)
  /-- Raised by RESTORE while no snapshot is held (R123, decision D22: a model refuses it). Safe. -/
  | restoreWithoutSnapshot
  /-- Raised by FIND of an empty sequence or of more than 130 bytes (R127, decision D18: a model refuses it). Safe. -/
  | findLength
  /-- Raised by a port request with a reserved select `dop` (R101: a model refuses them). Safe. -/
  | reservedDictOp
  /-- Raised when the host writes `IN`, `IN_LEN` while `PHASE = BUSY` (R249, U16: refused). Safe. -/
  | inputChangedWhileBusy
  /-- Raised when the host reads an output in a phase in which it must not (R249, U16: refused). Safe. -/
  | outputReadInWrongPhase
  deriving DecidableEq, Repr

/-- The state of one block instance. Every element of R20 is here; the last three fields are the inputs and the read
value of the ports of R41. A buffer with a fill count (`LIT` and `LITN`, `CAND` and `CANDN`, `GRP` and `GCNT`) is the
list of its filled part, and the count is the list's length (notes 3). -/
structure State where
  /-- `D`, `WC` (R21, R22). -/
  dict : Dict
  /-- `S_D`, `S_WC`, `S_HELD` (R23): `none` is `S_HELD = 0`, while which the shadow holds no value. -/
  shadow : Option Dict
  /-- `FRES` (R24). -/
  fres : Option Byte
  /-- `IN` (R25). -/
  inMem : Memory
  /-- `IN_LEN` (R25). -/
  inLen : Nat
  /-- `IP` (R26): the program counter. -/
  ip : Nat
  /-- `OUT` (R27). -/
  outMem : Memory
  /-- `OUT_LEN` (R27). -/
  outLen : Nat
  /-- `OP` (R28). -/
  op : BitVec 2
  /-- `PHASE` (R29). -/
  phase : Phase
  /-- `STATUS` (R30). -/
  status : BitVec 3
  /-- `WARN` (R31). -/
  warn : Bool
  /-- `DROPPED` (R31). -/
  dropped : BitVec 2
  /-- `FPC` (R32). -/
  fpc : Nat
  /-- `FINFO` (R32). -/
  finfo : Byte
  /-- `MODE` (R33). -/
  mode : EncMode
  /-- `LIT[0..LITN)` (R34). -/
  lit : List Byte
  /-- `CAND[0..CANDN)` (R35). -/
  cand : List Byte
  /-- `CMD` (R36). -/
  cmd : Byte
  /-- `CNT` (R36). -/
  cnt : Byte
  /-- `SRC` (R36). -/
  src : Byte
  /-- `GRP[0..GCNT)` (R37). -/
  grp : List Byte
  /-- The value READ last gave on the dictionary operation port (R41, R121). -/
  readOut : Slot
  /-- Requests on the dictionary operation port not yet served, oldest first (R41, R101; notes 6). -/
  port : List PortRequest
  /-- What the host does at the coming steps, oldest first; when it is used up the host is quiet (R41, R249; notes 5). -/
  host : List HostAction
  deriving DecidableEq, Repr

/-- The machine right after `reset` (R42, R240), nothing asserted by the host and no input supplied yet. -/
def State.reset : State where
  dict := { d := [], wc := Config.wcReset }
  shadow := none
  fres := none
  inMem := []
  inLen := 0
  ip := 0
  outMem := []
  outLen := 0
  op := 0#2
  phase := .idle
  status := 0#3
  warn := false
  dropped := 0#2
  fpc := 0
  finfo := 0x00#8
  mode := .run
  lit := []
  cand := []
  cmd := 0x00#8
  cnt := 0x00#8
  src := 0x00#8
  grp := []
  readOut := none
  port := []
  host := []

end Sys2Proof.Machine
end

