-- ==== Sys2Proof/Machine/Operands.lean ====
section
/-! DEFINITION. The operand forms: how the fields of a command become the quantities its rule uses, and back
(30_encoding.md R94 to R96). All arithmetic is unsigned, on 8 bits, modulo 256 (00_scope.md R8, R9). -/

namespace Sys2Proof.Machine

/-- The decoded length of a CACHE command byte, `(c & 0x7F) + 3` (R94). -/
def cacheLength (c : Byte) : Byte := (c &&& 0x7F#8) + BitVec.ofNat 8 Config.cacheBias

/-- The first dictionary index a CACHE reads, `(WC - o - 1) mod 256` (R95). -/
def cacheSource (wc o : Byte) : Byte := wc - o - 1#8

/-- The command byte the encoder emits for a match of `L` bytes, `0x80 | (L - 3)` (R94, R153). -/
def cacheCommandByte (L : Nat) : Byte := 0x80#8 ||| BitVec.ofNat 8 (L - Config.cacheBias)

/-- The offset byte the encoder emits for a match at `idx`, `(WC - idx - 1) mod 256` (R95, R153). -/
def offsetByte (wc idx : Byte) : Byte := wc - idx - 1#8

/-- The dictionary slot an index names: `i mod 256` (R63, R121). -/
def slotIndex (i : Nat) : Byte := BitVec.ofNat 8 i

end Sys2Proof.Machine
end

