-- ==== Sys2Proof/Machine/Ops.lean ====
section
/-! DEFINITION. The named operations over the three address spaces and the registers, taking a fault, and the absence of
a return from one. -/

namespace Sys2Proof.Machine

/-- The byte at an address, or `none` where no byte is listed. -/
def Memory.read : Memory → Nat → Option Byte
  | [], _ => none
  | (x, b) :: m, a => if x = a then some b else Memory.read m a

/-- Write one byte, keeping the addresses strictly rising. -/
def Memory.write : Memory → Nat → Byte → Memory
  | [], a, v => [(a, v)]
  | (x, b) :: m, a, v =>
    if a < x then (a, v) :: (x, b) :: m
    else if a = x then (a, v) :: m
    else (x, b) :: Memory.write m a v

/-- The space that holds a byte sequence at addresses `a`, `a + 1`, ... -/
def Memory.ofBytesAt : Nat → List Byte → Memory
  | _, [] => []
  | a, b :: bs => (a, b) :: Memory.ofBytesAt (a + 1) bs

/-- The space that holds a byte sequence from address 0 (R64). -/
def Memory.ofBytes (bs : List Byte) : Memory := Memory.ofBytesAt 0 bs

/-- The canonical form: addresses strictly rising. (An unlisted address holds no byte, so no entry can equal what an
unlisted address reads as.) -/
def Memory.wf : Memory → Bool
  | [] => true
  | [_] => true
  | (x, _) :: (y, c) :: m => x < y && Memory.wf ((y, c) :: m)

/-- The cells are exactly the addresses from `a` up: every address below the end holds a byte and no other does. -/
def Memory.contiguousFrom : Nat → Memory → Bool
  | _, [] => true
  | a, (x, _) :: m => x = a && Memory.contiguousFrom (a + 1) m

/-- The cells are exactly the addresses 0 to `n - 1` (R25, R27). -/
def Memory.spans (m : Memory) (n : Nat) : Bool := Memory.contiguousFrom 0 m && m.length = n

/-- Every address is a slot number, 0 to 255 (R21). -/
def Memory.withinDict (m : Memory) : Bool := m.all fun c => c.1 < Config.dictSize

/-- At most `n` bytes at consecutive addresses from `a` up, ending at the first address that holds none. -/
def Memory.readRun : Memory → Nat → Nat → List Byte
  | [], _, _ => []
  | (x, b) :: m, a, n =>
    if x < a then Memory.readRun m a n
    else if x = a then
      match n with
      | 0 => []
      | n + 1 => b :: Memory.readRun m (a + 1) n
    else []

/-- `D[i]` (R21): the slot of an index. -/
def Dict.read (w : Dict) (i : Byte) : Slot := Memory.read w.d i.toNat

/-- PUSH (R120): `D[WC] <- Filled(b); WC <- (WC + 1) mod 256`. -/
def Dict.push (w : Dict) (b : Byte) : Dict := { d := Memory.write w.d w.wc.toNat b, wc := w.wc + 1#8 }

/-- PUSH on the block's dictionary (R120). -/
def State.push (b : Byte) (s : State) : State := { s with dict := s.dict.push b }

/-- PUSH of several bytes, the first first. -/
def State.pushAll (bs : List Byte) (s : State) : State := bs.foldl (fun t b => t.push b) s

/-- SNAPSHOT (R122): the dictionary, presence flags and cursor included, into the shadow, and the shadow held. -/
def State.takeSnapshot (s : State) : State := { s with shadow := some s.dict }

/-- RESTORE with a snapshot held (R123): the dictionary becomes the shadow, which stays held. -/
def State.restoreFrom (held : Dict) (s : State) : State := { s with dict := held }

/-- `MemRead(IN, a, 1)` (R61): defined exactly below `IN_LEN`. -/
def State.inByte (s : State) (a : Nat) : Option Byte := if a < s.inLen then Memory.read s.inMem a else none

/-- The input space is as the host must supply it (R25, R242): one byte at each address below `IN_LEN`, none above. -/
def State.inputOk (s : State) : Bool := Memory.spans s.inMem s.inLen

/-- The input bytes from `IP` up to the end of `IN`, as many as the longest command has. -/
def State.window (s : State) : List Byte :=
  Memory.readRun s.inMem s.ip (min Config.longestCommand (s.inLen - s.ip))

/-- `OutAppend(b)` (R62): the byte goes to address `OUT_LEN`, then `OUT_LEN` is one more. -/
def State.outAppend (b : Byte) (s : State) : State :=
  { s with outMem := Memory.write s.outMem s.outLen b, outLen := s.outLen + 1 }

/-- `OutAppend` of several bytes, the first first. -/
def State.outAppendAll (bs : List Byte) (s : State) : State := bs.foldl (fun t b => t.outAppend b) s

/-- `FPC <- IP` (R150, R180): where the command or chunk begins. -/
def State.markStart (s : State) : State := { s with fpc := s.ip }

/-- `PHASE <- DONE` (R150, R180, R243). -/
def State.finish (s : State) : State := { s with phase := .done }

/-- The 2-bit code of a phase, which the output signal `phase` carries (R29, R41). -/
def Phase.code : Phase → BitVec 2
  | .idle => 0#2
  | .busy => 1#2
  | .done => 2#2
  | .faulted => 3#2

/-- The bit that stands for a mode in `MODE` (R33). -/
def EncMode.code : EncMode → BitVec 1
  | .run => 0#1
  | .cache => 1#1

/-- The number of a fault in `STATUS` (R210). -/
def FaultKind.code : FaultKind → BitVec 3
  | .truncatedStream => 1#3
  | .internalInvariantViolation => 2#3
  | .undefinedDictionaryRead => 3#3
  | .invalidOperation => 4#3

/-- Taking a fault, `raise F(info)` (R219): `STATUS <- code(F)`, `FINFO <- info`, `PHASE <- FAULTED`, and `FPC` keeps
the value written when the command or chunk began. Nothing is saved elsewhere, no mode changes and control goes nowhere.
There is no return from a fault (R220): `start` and `reset` clear it with all other state (`State.initialise`). -/
def State.raise (f : FaultKind) (info : Byte) (s : State) : State :=
  { s with status := f.code, finfo := info, phase := .faulted }

/-- Every state element but `IN`, `IN_LEN` at its reset value (R42): what `reset` does (R240) and what `start` does first
(R241). What the host will do next is the host's, and stays. -/
def State.initialise (s : State) : State :=
  { State.reset with inMem := s.inMem, inLen := s.inLen, host := s.host }

end Sys2Proof.Machine
end

