-- ==== Sys2Proof/Machine/Flags.lean ====
section
/-! DEFINITION. The conditions the block's control reads (10_state.md R38) and the one computation of flags it makes: the
discarded-bytes warning `WARN`, `DROPPED` (R31). There is no condition-code register. -/

namespace Sys2Proof.Machine

/-- The presence flag `V` of a slot (R21, R38 (a)). -/
def Dict.present (w : Dict) (i : Byte) : Bool := (w.read i).isSome

/-- `FRES.FOUND` (R24, R38 (b)). -/
def State.found (s : State) : Bool := s.fres.isSome

/-- Input remains: `IP < IN_LEN`; its negation is the exhaustion condition of R38 (c). -/
def State.inputRemains (s : State) : Bool := s.ip < s.inLen

/-- `IN_LEN - IP >= 3` (R38 (d), R151). -/
def State.probeFits (s : State) : Bool := Config.probeLen ≤ s.inLen - s.ip

/-- `LITN = 127` (R38 (e), R152). -/
def State.litFull (s : State) : Bool := s.lit.length = Config.runMax

/-- `CANDN < 130` (R38 (e), R153). -/
def State.candRoom (s : State) : Bool := s.cand.length < Config.cacheMax

/-- The derived field `NOBUF = (OP = 2)` (R28). -/
def State.nobuf (s : State) : Bool := s.op = 2#2

/-- The flags END writes (R31, R184, R216): with bytes pending in buffered output, `WARN <- 1`, `DROPPED <- GCNT`, and
the pending bytes are discarded; otherwise nothing. -/
def State.discardPending (s : State) : State :=
  if !s.nobuf && s.grp.length ≠ 0 then
    { s with warn := true, dropped := BitVec.ofNat 2 s.grp.length, grp := [] }
  else s

end Sys2Proof.Machine
end

