-- ==== Sys2Proof/Machine/Dictionary.lean ====
section
/-! DEFINITION. The dictionary controller and the search engine: PUSH, READ, SNAPSHOT, RESTORE, FIND
(40_dictionary.md R120 to R128). -/

namespace Sys2Proof.Machine

/-- The inner loop of FIND (R124) for one candidate: `w` is the working copy, `s` the index to read next. Each byte that
is confirmed is provisionally pushed into the working copy before the next is read; an `Empty` slot never matches
(R121). -/
def Dict.confirms (w : Dict) (s : Byte) : List Byte → Bool
  | [] => true
  | b :: bs =>
    match w.read s with
    | none => false
    | some v => if v = b then Dict.confirms (w.push b) (s + 1#8) bs else false

/-- The start index of the candidate at scan offset `k`: `(S_WC + k) mod 256` (R124). -/
def Dict.candidate (w : Dict) (k : Nat) : Byte := w.wc + BitVec.ofNat 8 k

/-- The scan of FIND (R124): the first candidate, in ascending scan offset `k = 0, ..., 255` from the cursor, that the
sequence matches completely. `held` is the snapshot; every candidate starts from it (RESTORE), so the provisional writes
of one candidate are not seen by the next. -/
def Dict.search (held : Dict) (seq : List Byte) : Option Byte :=
  ((List.range Config.dictSize).find? fun k => held.confirms (held.candidate k) seq).map held.candidate

/-- FIND (R124): SNAPSHOT, the scan, RESTORE, and the snapshot dropped. -/
def State.find (seq : List Byte) (s : State) : State :=
  let held := s.dict
  let scanned := { s.takeSnapshot with fres := held.search seq }
  { scanned.restoreFrom held with shadow := none }

/-- PUSH `b` (R120). -/
def execPush (b : Byte) (s : State) : Host.Outcome State Fault Refusal := .next (s.push b)

/-- READ `i` (R121): the slot `i mod 256` on the port; no state element of R20 is written. -/
def execRead (i : Nat) (s : State) : Host.Outcome State Fault Refusal :=
  .next { s with readOut := s.dict.read (slotIndex i) }

/-- SNAPSHOT (R122). A snapshot already held is overwritten. -/
def execSnapshot (s : State) : Host.Outcome State Fault Refusal := .next s.takeSnapshot

/-- RESTORE (R123). With no snapshot held a model refuses it (decision D22). -/
def execRestore (s : State) : Host.Outcome State Fault Refusal :=
  match s.shadow with
  | some held => .next (s.restoreFrom held)
  | none => .refused .restoreWithoutSnapshot

/-- FIND `seq` (R124). A sequence of no byte or of more than 130 is outside the contract and refused (R127). -/
def execFind (seq : List Byte) (s : State) : Host.Outcome State Fault Refusal :=
  if 1 ≤ seq.length ∧ seq.length ≤ Config.cacheMax then .next (s.find seq) else .refused .findLength

end Sys2Proof.Machine
end

