-- ==== Sys2Proof/Machine/Encoder.lean ====
section
/-! DEFINITION. The encoder (41_encoder.md R150 to R160): DECIDE, the RUN chunk, the CACHE chunk, the terminator. -/

namespace Sys2Proof.Machine

/-- DECIDE (R151): the short probe of the next input byte, then, if it is found and three bytes remain, the long probe.
Only `FRES` (and, inside FIND, the shadow) is written. -/
def State.decideMode (s : State) : EncMode × State :=
  match s.inByte s.ip with
  | none => (.run, s)
  | some b0 =>
    let s1 := s.find [b0]
    if !s1.found then (.run, s1)
    else if s1.probeFits then
      match s1.inByte (s1.ip + 1), s1.inByte (s1.ip + 2) with
      | some b1, some b2 =>
        let s2 := s1.find [b0, b1, b2]
        if s2.found then (.cache, s2) else (.run, s2)
      | _, _ => (.run, s1)
    else (.run, s1)

/-- One literal is taken (R152): `IP` passes it, it is pushed, and it joins the literal buffer. -/
def State.takeLiteral (b : Byte) (s : State) : State := { s.push b with ip := s.ip + 1, lit := s.lit ++ [b] }

/-- The reading loop of the RUN chunk (R152), at most `n` bytes: a byte is consumed, pushed and put in the literal buffer;
then the three end tests, in the order of the rule. -/
def State.runLoop : Nat → State → State
  | 0, s => s
  | n + 1, s =>
    match s.inByte s.ip with
    | none => s
    | some b =>
      let t := s.takeLiteral b
      if t.litFull then t
      else if !t.inputRemains then t
      else
        let d := t.decideMode
        if d.1 = .cache then d.2 else State.runLoop n d.2

/-- `LITN <- 0` (R152). -/
def State.clearLiterals (s : State) : State := { s with lit := [] }

/-- RunChunk (R152): the literals are collected, then the count and the literals are emitted. -/
def State.runChunk (s : State) : State :=
  let t := State.runLoop Config.runMax s.clearLiterals
  (t.outAppend (runByte t.lit.length)).outAppendAll t.lit

/-- `CANDN <- 0` (R153): the candidate begins anew. -/
def State.clearCandidate (s : State) : State := { s with cand := [] }

/-- One more byte joins the candidate, and `IP` passes it (R153). -/
def State.growCandidate (b : Byte) (s : State) : State := { s with cand := s.cand ++ [b], ip := s.ip + 1 }

/-- The growth loop of the CACHE chunk (R153), at most `n` appends: while the candidate is found, shorter than 130 and
input remains, one more byte is appended and the candidate is searched again. The answer says whether the last search
found it. -/
def State.growLoop : Nat → State → Bool × State
  | 0, s => (true, s)
  | n + 1, s =>
    if s.candRoom && s.inputRemains then
      match s.inByte s.ip with
      | none => (true, s)
      | some b =>
        let t := (s.growCandidate b).find (s.growCandidate b).cand
        if t.found then State.growLoop n t else (false, t)
    else (true, s)

/-- Backing off the last unmatched byte (R153): it leaves the candidate and returns to the input. -/
def State.backOff (s : State) : State := { s with cand := s.cand.dropLast, ip := s.ip - 1 }

/-- The end of the CACHE chunk (R153): the final lookup, the two bytes of the command with the cursor as it is before
the pushes, then the pushes; or InternalInvariantViolation with `CANDN` (R157). -/
def State.emitCache (s : State) : State :=
  let t := s.find s.cand
  match t.fres with
  | none => t.raise .internalInvariantViolation (BitVec.ofNat 8 t.cand.length)
  | some idx =>
    let e := (t.outAppend (cacheCommandByte t.cand.length)).outAppend (offsetByte t.dict.wc idx)
    e.pushAll e.cand

/-- CacheChunk (R153): one byte is read, the candidate grows, the last byte is backed off exactly when the last search
failed, and the command is emitted. -/
def State.cacheChunk (s : State) : State :=
  match s.inByte s.ip with
  | none => s
  | some b =>
    let g := State.growLoop Config.cacheMax (s.clearCandidate.growCandidate b)
    (if g.1 then g.2 else g.2.backOff).emitCache

/-- `MODE <- m` (R33, R150). -/
def State.setMode (m : EncMode) (s : State) : State := { s with mode := m }

/-- One pass of the loop of COMPRESS (R150): while input remains, `FPC <- IP`, the mode is what DECIDE says, and a chunk
of that mode follows; at the end of the input the terminator is emitted and the operation is done (R154). -/
def State.compressPass (s : State) : State :=
  if s.inputRemains then
    let d := s.markStart.decideMode
    match d.1 with
    | .cache => (d.2.setMode .cache).cacheChunk
    | .run => (d.2.setMode .run).runChunk
  else (s.outAppend 0x00#8).finish

end Sys2Proof.Machine
end

