-- ==== Sys2Proof/Machine/Stream.lean ====
section
/-! DEFINITION. The commands of the compressed stream as the decoder executes them: END, RUN, CACHE, and the two steps
they share, Fetch and Produce (42_decoder.md R182 to R186). -/

namespace Sys2Proof.Machine

/-- `pc <- IP + 1` (R186). -/
def State.advance (s : State) : State := { s with ip := s.ip + 1 }

/-- `CMD <- c` (R36, R180). -/
def State.setCommand (c : Byte) (s : State) : State := { s with cmd := c }

/-- `CNT <- c`: how many bytes the command still has to produce (R36, R182, R183). -/
def State.setCount (c : Byte) (s : State) : State := { s with cnt := c }

/-- `SRC <- i`: the slot the copy reads first (R36, R183). -/
def State.setSource (i : Byte) (s : State) : State := { s with src := i }

/-- `CNT <- CNT - 1` (R182). -/
def State.countDown (s : State) : State := { s with cnt := s.cnt - 1#8 }

/-- `SRC <- (SRC + 1) mod 256; CNT <- CNT - 1` (R183). -/
def State.nextSource (s : State) : State := { s with src := s.src + 1#8, cnt := s.cnt - 1#8 }

/-- Fetch (R186): one stream byte is consumed and `k` goes on, or TruncatedStream with `info` where `IP = IN_LEN` and
no byte is left. The byte itself is the instruction's: the decoder read it at `IP`. -/
def State.fetch (info : Byte) (s : State) (k : State → State) : State :=
  if s.inputRemains then k s.advance else s.raise .truncatedStream info

/-- The head of the decoding loop (R180): `FPC <- IP`, the command byte fetched into `CMD`, then the command's own
rule. -/
def State.beginCommand (c : Byte) (s : State) (body : State → State) : State :=
  s.markStart.fetch 0x00#8 fun t => body (t.setCommand c)

/-- `GRP[GCNT] <- b`, and `GCNT` one more (R185). -/
def State.holdInGroup (b : Byte) (s : State) : State := { s with grp := s.grp ++ [b] }

/-- The group goes to `OUT` in the order it was produced (R65), and is empty (R185). -/
def State.flushGroup (s : State) : State := { s.outAppendAll s.grp with grp := [] }

/-- The output half of Produce (R185): straight to `OUT` in no-buffer mode; else into the group, which goes to `OUT` as
soon as it holds four bytes. -/
def State.output (b : Byte) (s : State) : State :=
  if s.nobuf then s.outAppend b
  else if (s.holdInGroup b).grp.length = Config.group then (s.holdInGroup b).flushGroup
  else s.holdInGroup b

/-- Produce (R185): the byte is pushed into the dictionary, in both modes, and output. -/
def State.produce (b : Byte) (s : State) : State := (s.push b).output b

/-- The loop of RUN (R182): each literal is fetched, then produced, then `CNT` is one less; a missing one ends it. -/
def State.runLits : List Byte → State → State
  | [], s => s
  | b :: bs, s =>
    s.fetch s.cmd fun t => State.runLits bs (t.produce b).countDown

/-- The copy loop of CACHE (R183), `n` bytes to go: the slot at `SRC` is read, its byte is pushed and output before the
next is read (R70); an `Empty` slot ends it. -/
def State.copyLoop : Nat → State → State
  | 0, s => s
  | n + 1, s =>
    match s.dict.read s.src with
    | none => s.raise .undefinedDictionaryRead s.src
    | some b => State.copyLoop n (s.produce b).nextSource

/-- END (R184): the warning, and the operation is done. -/
def execEnd (s : State) : Host.Outcome State Fault Refusal :=
  .next (s.beginCommand 0x00#8 fun t => t.discardPending.finish)

/-- RUN (R182): `CNT <- n`, then the literals. -/
def execRun (lits : List Byte) (s : State) : Host.Outcome State Fault Refusal :=
  .next (s.beginCommand (runByte lits.length) fun t => (t.setCount t.cmd).runLits lits)

/-- CACHE (R183): `CNT <- (CMD & 0x7F) + 3`, the offset byte fetched, `SRC` computed from `WC` before anything is
pushed, then the copy. -/
def execCache (k : BitVec 7) (o : Byte) (s : State) : Host.Outcome State Fault Refusal :=
  .next (s.beginCommand (cacheByte k) fun t =>
    (t.setCount (cacheLength t.cmd)).fetch t.cmd fun u =>
      (u.setSource (cacheSource u.dict.wc o)).copyLoop u.cnt.toNat)

/-- The meaning of a command of the stream. -/
def execCommand : Command → State → Host.Outcome State Fault Refusal
  | .endStream, s => execEnd s
  | .run lits, s => execRun lits s
  | .cache k o, s => execCache k o s

/-- One pass of the decoding loop (R180, R181): the command at `IP` is decoded and executed; where no byte is left,
`FPC <- IP` and TruncatedStream. -/
def State.decodePass (s : State) : Host.Outcome State Fault Refusal :=
  match decodeStream s.window with
  | .missing => .next (s.markStart.raise .truncatedStream 0x00#8)
  | .truncated c => execCommand c s
  | .command c _ => execCommand c s

end Sys2Proof.Machine
end

