-- ==== Sys2Proof/Machine/Block.lean ====
section
/-! DEFINITION. The block-level operations COMPRESS, DECOMPRESS, DECOMPRESSNOBUF (R150, R180, R181), `start` and `reset`
(70_reset_and_hazards.md R240, R241). -/

namespace Sys2Proof.Machine

/-- One pass of the operation in progress: a chunk or the terminator of COMPRESS, a command of a decompression. `OP = 3`
does not run (R214). -/
def State.enginePass (s : State) : Host.Outcome State Fault Refusal :=
  if !s.inputOk then .fault .inputHole
  else if s.op = 0#2 then .next s.compressPass
  else if s.op = 1#2 ∨ s.op = 2#2 then s.decodePass
  else .next (s.raise .invalidOperation (s.op.setWidth 8))

/-- Accepting `start` (R241): steps (1), (2) and (4). -/
def State.begin (op : BitVec 2) (s : State) : State := { s.initialise with op := op, phase := .busy }

/-- `start` with the reserved select (R241 step (3), R214): initialised, `OP <- op`, and InvalidOperation; nothing
runs. -/
def State.beginReserved (op : BitVec 2) (s : State) : State :=
  { s.initialise with op := op }.raise .invalidOperation (op.setWidth 8)

/-- At most `n` passes, until the operation has ended (R243). -/
def operationLoop : Nat → State → Host.Outcome State Fault Refusal
  | 0, s => .next s
  | n + 1, s =>
    if s.phase = .busy then
      match s.enginePass with
      | .next t => operationLoop n t
      | .fault r => .fault r
      | .refused r => .refused r
    else .next s

/-- A whole operation: `start` and then every pass. `IN_LEN + 1` passes are always enough (R252). `start` while
`PHASE = BUSY` is ignored (R241). -/
def runOperation (op : BitVec 2) (s : State) : Host.Outcome State Fault Refusal :=
  if s.phase = .busy then .next s else operationLoop (s.inLen + 1) (s.begin op)

/-- COMPRESS (R150): `IN` is encoded to a command stream in `OUT`. -/
def execCompress (s : State) : Host.Outcome State Fault Refusal := runOperation 0#2 s

/-- DECOMPRESS (R180): the command stream in `IN` is decoded, output in groups of four. -/
def execDecompress (s : State) : Host.Outcome State Fault Refusal := runOperation 1#2 s

/-- DECOMPRESSNOBUF (R181): the command stream in `IN` is decoded, every byte output. -/
def execDecompressNobuf (s : State) : Host.Outcome State Fault Refusal := runOperation 2#2 s

end Sys2Proof.Machine
end

