-- ==== Sys2Proof/Machine/Dispatch.lean ====
section
/-! DEFINITION. The meaning of every instruction: one arm per constructor of `Instr`. -/

namespace Sys2Proof.Machine

def exec (i : Instr) (s : State) : Host.Outcome State Fault Refusal :=
  match i with
  | .endStream => Sys2Proof.Machine.execEnd s
  | .run lits => Sys2Proof.Machine.execRun lits s
  | .cache k o => Sys2Proof.Machine.execCache k o s
  | .compress => Sys2Proof.Machine.execCompress s
  | .decompress => Sys2Proof.Machine.execDecompress s
  | .decompressNobuf => Sys2Proof.Machine.execDecompressNobuf s
  | .push b => Sys2Proof.Machine.execPush b s
  | .read idx => Sys2Proof.Machine.execRead idx s
  | .snapshot => Sys2Proof.Machine.execSnapshot s
  | .restore => Sys2Proof.Machine.execRestore s
  | .find seq => Sys2Proof.Machine.execFind seq s

end Sys2Proof.Machine
end

