-- ==== Sys2Proof/Machine/HostPort.lean ====
section
/-! DEFINITION. What a step does when the host acts, when the dictionary operation port has a request, and when the
engine moves on (10_state.md R41, 70_reset_and_hazards.md R240, R241, R249). -/

namespace Sys2Proof.Machine

/-- A request on the dictionary operation port (R101): its operation is executed; a reserved select is refused. -/
def servePort (q : PortRequest) (s : State) : Host.Outcome State Fault Refusal :=
  match decodeDop q with
  | some i => exec i s
  | none => .refused .reservedDictOp

/-- The block's own move: a request on the dictionary port is served first; else the operation in progress makes a pass;
else the block waits, nothing changing (R219, R249). -/
def blockStep (s : State) : Host.Outcome State Fault Refusal :=
  match s.port with
  | q :: qs => servePort q { s with port := qs }
  | [] => if s.phase = .busy then s.enginePass else .next s

/-- `start` with the host looking again when the operation has ended: the whole operation of the select; for the reserved
select InvalidOperation (R241). `start` while BUSY is ignored. -/
def startWhole (op : BitVec 2) (s : State) : Host.Outcome State Fault Refusal :=
  match decodeOp op with
  | some i => exec i s
  | none => if s.phase = .busy then .next s else .next (s.beginReserved op)

/-- `start` with the host looking on: the operation has begun and its passes follow (R241). -/
def startStepped (op : BitVec 2) (s : State) : State :=
  if s.phase = .busy then s
  else
    match decodeOp op with
    | some _ => s.begin op
    | none => s.beginReserved op

/-- The host writes `IN`, `IN_LEN`: not while BUSY (R249). -/
def hostLoad (bytes : List Byte) (s : State) : Host.Outcome State Fault Refusal :=
  if s.phase = .busy then .refused .inputChangedWhileBusy
  else .next { s with inMem := Memory.ofBytes bytes, inLen := bytes.length }

/-- The output signals of the block, each at its width (R41). `out_data`, `out_len`, `warn` and `dropped` are valid when
DONE, `fpc` and `finfo` when FAULTED; `hostRead` refuses the host's other reads. -/
structure OutputSignals where
  outData : List Byte
  outLen : Nat
  phase : BitVec 2
  status : BitVec 3
  warn : BitVec 1
  dropped : BitVec 2
  fpc : Nat
  finfo : Byte
  deriving DecidableEq, Repr

/-- What stands on the output signals in a state (R41): the registers R27 to R32, `OUT` as the bytes from address 0 up. -/
def State.signals (s : State) : OutputSignals where
  outData := s.outMem.map Prod.snd
  outLen := s.outLen
  phase := s.phase.code
  status := s.status
  warn := BitVec.ofBool s.warn
  dropped := s.dropped
  fpc := s.fpc
  finfo := s.finfo

/-- The phases in which the host may read `status` (R249: it must not rely on it while BUSY). -/
def State.statusReadable (s : State) : Bool := s.phase ≠ .busy

/-- The phase in which the host may read `OUT`, `OUT_LEN`, `WARN`, `DROPPED` (R27, R41, R249). -/
def State.resultReadable (s : State) : Bool := s.phase = .done

/-- The phase in which the host may read `FPC`, `FINFO` as meaningful (R41, R249). -/
def State.faultReadable (s : State) : Bool := s.phase = .faulted

/-- A read by the host changes nothing; in a phase in which it must not be made it is refused (R249, U16). -/
def hostRead (allowed : Bool) (s : State) : Host.Outcome State Fault Refusal :=
  if allowed then .next s else .refused .outputReadInWrongPhase

/-- One action of the host. -/
def hostStep (a : HostAction) (s : State) : Host.Outcome State Fault Refusal :=
  match a with
  | .quiet => blockStep s
  | .reset => .next s.initialise
  | .start op => startWhole op s
  | .startStepped op => .next (startStepped op s)
  | .load bytes => hostLoad bytes s
  | .readPhase => hostRead true s
  | .readStatus => hostRead s.statusReadable s
  | .readResult => hostRead s.resultReadable s
  | .readFault => hostRead s.faultReadable s

/-- One step: the host's next action, or the block's own move when the host is quiet. -/
def hostOrBlock (s : State) : Host.Outcome State Fault Refusal :=
  match s.host with
  | a :: rest => hostStep a { s with host := rest }
  | [] => blockStep s

/-- Lay stream bytes at `IP` as the end of `IN`, in an operation that decodes them: a decompression already selected
keeps its select, else DECOMPRESS, and the engine is BUSY with no other input pending. -/
def State.withStreamAt (bytes : List Byte) (s : State) : State :=
  { s with
    inMem := (s.inMem.filter fun c => c.1 < s.ip) ++ Memory.ofBytesAt s.ip bytes
    inLen := s.ip + bytes.length
    op := if s.op = 1#2 ∨ s.op = 2#2 then s.op else 1#2
    phase := .busy
    port := []
    host := [] }

/-- The host's next action is `start` with a select; `start` is accepted only when the block is not BUSY. -/
def State.withStart (op : BitVec 2) (s : State) : State :=
  { s with host := [.start op], phase := if s.phase = .busy then .idle else s.phase }

/-- A request on the dictionary port, the host quiet. -/
def State.withPortRequest (q : PortRequest) (s : State) : State := { s with port := [q], host := [] }

end Sys2Proof.Machine
end

