-- ==== Sys2Proof/Machine/Step.lean ====
section
/-! DEFINITION. One step of the machine, and where a step finds the instruction it runs. -/

namespace Sys2Proof.Machine

/-- One step (notes 4, 5): the host's next action; when the host is quiet, a request on the dictionary port; else one
pass of the operation in progress; else nothing. -/
def step (s : State) : Host.Outcome State Fault Refusal := hostOrBlock s

/-- The state with a table word where the next step takes its instruction from: a 2-bit word as the select of a `start`, a
3-bit word as a request on the dictionary port, any other as stream bytes at `IP` (notes 14, 15). -/
def State.withFetchWord (s : State) (nbits w : Nat) : State :=
  if nbits = 2 then s.withStart (BitVec.ofNat 2 w)
  else if nbits = 3 then s.withPortRequest (tableRequest w)
  else s.withStreamAt (tableBytes nbits w)

end Sys2Proof.Machine
end

