-- ==== Sys2Proof/Safety.lean ====
section
/-! DEFINITION. What claims about the block are stated in: the invariant of its states, what a copy from the dictionary
plays back (40_dictionary.md R125), what a list of commands says about the bytes before it (20_memory.md R75,
42_decoder.md R187), and how bytes reach the output (R185). -/

namespace Sys2Proof

/-- Copy `n` bytes from `d` bytes back, one at a time, onto the end of what has been produced (R70), or `none` where there
is no byte that far back. -/
def copyBack : Nat → Nat → List Byte → Option (List Byte)
  | 0, _, hist => some hist
  | n + 1, d, hist =>
    if d ≤ hist.length then
      match hist[hist.length - d]? with
      | some b => copyBack n d (hist ++ [b])
      | none => none
    else none

/-- What has been produced after a command, given what was produced before it: the literals of a RUN are added; a CACHE
copies `k + 3` bytes from `o + 1` bytes back (R94, R95, 90_conflicts.md C6). No dictionary: the command alone, over the
history. -/
def Command.extend : Command → List Byte → Option (List Byte)
  | .endStream, hist => some hist
  | .run lits, hist => some (hist ++ lits)
  | .cache k o, hist => copyBack (k.toNat + 3) (o.toNat + 1) hist

/-- The logical output of a list of commands (R11, R187): every byte they produce, or `none` where a CACHE reaches back
before the first. -/
def logicalFrom : List Byte → List Command → Option (List Byte)
  | hist, [] => some hist
  | hist, c :: cs => (c.extend hist).bind fun h => logicalFrom h cs

/-- The logical output of a stream's commands, from nothing. -/
def logicalOutput (cs : List Command) : Option (List Byte) := logicalFrom [] cs

/-- The stream bytes of a list of commands. -/
def streamBytes (cs : List Command) : List Byte := cs.flatMap Command.bytes

/-- A command a stream may hold before its END: a RUN of 1 to 127 literals or any CACHE (R90). -/
def Command.isChunk : Command → Bool
  | .endStream => false
  | .run lits => 1 ≤ lits.length && lits.length ≤ 127
  | .cache _ _ => true

end Sys2Proof

namespace Sys2Proof.Machine

/-- A dictionary in the form every operation keeps: its cells in canonical order, every address a slot number (R21). -/
def Dict.ok (w : Dict) : Prop := w.d.wf = true ∧ w.d.withinDict = true

/-- The invariant of the machine: what every state meets that steps can reach from one that meets it. -/
structure Inv (s : State) : Prop where
  /-- `IN` is one byte at each address below `IN_LEN`, and nothing else (R25). -/
  input : s.inputOk = true
  /-- `OUT` is one byte at each address below `OUT_LEN`, and nothing else (R27, R62). -/
  output : s.outMem.spans s.outLen = true
  /-- The dictionary is in canonical form with slot numbers 0 to 255 (R21). -/
  dict : s.dict.ok
  /-- So is a held snapshot (R23). -/
  shadow : ∀ h, s.shadow = some h → h.ok
  /-- While an operation runs, `IP <= IN_LEN` (R26). -/
  cursor : s.phase = .busy → s.ip ≤ s.inLen
  /-- `LITN <= 127` (R34). -/
  literals : s.lit.length ≤ 127
  /-- `CANDN <= 130` (R35). -/
  candidate : s.cand.length ≤ 130
  /-- `GCNT <= 3` (R37). -/
  group : s.grp.length < 4
  /-- `STATUS != 0` exactly when `PHASE = FAULTED` (R30). -/
  status : s.status ≠ 0#3 ↔ s.phase = .faulted
  /-- `STATUS` 5 to 7 are never written (R30). -/
  codes : s.status.toNat ≤ 4
  /-- `WARN = 1` exactly when `DROPPED != 0` (R31). -/
  warning : s.warn = true ↔ s.dropped ≠ 0#2
  /-- In buffered decompression `OUT_LEN` is a multiple of 4 (R189). -/
  groups : s.op = 1#2 → s.outLen % 4 = 0
  /-- The reserved select does not run (R214). -/
  select : s.op = 3#2 → s.phase = .faulted

/-- Every state element of R20 but `IN`, `IN_LEN`, `OP`, `PHASE`, `STATUS`, `FINFO` at the value of R42. -/
structure AtReset (t : State) : Prop where
  slots : ∀ i, t.dict.read i = none
  wc : t.dict.wc = 0#8
  notHeld : t.shadow = none
  fres : t.fres = none
  ip : t.ip = 0
  outMem : ∀ a, t.outMem.read a = none
  outLen : t.outLen = 0
  warn : t.warn = false
  dropped : t.dropped = 0#2
  fpc : t.fpc = 0
  mode : t.mode = .run
  litn : t.lit.length = 0
  candn : t.cand.length = 0
  cmd : t.cmd = 0x00#8
  cnt : t.cnt = 0x00#8
  src : t.src = 0x00#8
  gcnt : t.grp.length = 0

/-- The playback of `m` bytes from index `s` (R125): what a decoder holding this dictionary would produce for a CACHE
command of decoded length `m` whose source is `s`, or `none` if it would read an `Empty` slot. -/
def Dict.playback : Dict → Byte → Nat → Option (List Byte)
  | _, _, 0 => some []
  | w, s, m + 1 =>
    match w.read s with
    | none => none
    | some b => ((w.push b).playback (s + 1#8) m).map (b :: ·)

/-- The bytes a copy plays back before it meets an `Empty` slot, at most `m`. -/
def Dict.playable : Dict → Byte → Nat → List Byte
  | _, _, 0 => []
  | w, s, m + 1 =>
    match w.read s with
    | none => []
    | some b => b :: (w.push b).playable (s + 1#8) m

/-- What a command produces from a dictionary: the literals of a RUN, the playback of a CACHE from its source (R182, R183),
nothing for END. -/
def Dict.plays (w : Dict) : Command → Option (List Byte)
  | .endStream => some []
  | .run lits => some lits
  | .cache k o => w.playback (cacheSource w.wc o) (k.toNat + 3)

/-- PUSH of several bytes, the first first. -/
def Dict.pushAll (w : Dict) (bs : List Byte) : Dict := bs.foldl Dict.push w

/-- The dictionary holds the last 256 bytes of a history: the slot `j + 1` behind the cursor is `Filled` with the byte
`j + 1` from the end, or `Empty` where the history is not that long (R120). -/
def Dict.remembers (w : Dict) (hist : List Byte) : Prop :=
  ∀ j : Byte, w.read (w.wc - 1#8 - j) = hist.reverse[j.toNat]?

/-- The input bytes from `a` on are `bs`, and more may follow (R61). -/
def State.holdsAt (s : State) (a : Nat) (bs : List Byte) : Prop :=
  ∀ j, j < bs.length → s.inByte (a + j) = bs[j]?

/-- The space holds exactly this sequence (R25, R27). -/
def Memory.holds (m : Memory) (n : Nat) (bs : List Byte) : Prop := m = Memory.ofBytes bs ∧ n = bs.length

/-- `bs` reached `OUT` between `s` and `t` and nothing else did: they stand from `OUT_LEN` up, and every other address
reads as before (R62). -/
def Appended (bs : List Byte) (s t : State) : Prop :=
  t.outLen = s.outLen + bs.length ∧
  (∀ j, j < bs.length → t.outMem.read (s.outLen + j) = bs[j]?) ∧
  (∀ a, a < s.outLen ∨ t.outLen ≤ a → t.outMem.read a = s.outMem.read a)

/-- `bs` went through the output step of Produce between `s` and `t` (R185): in no-buffer mode all of it reached `OUT`; in
buffered mode the bytes that were pending, then `bs`, in whole groups of four, the rest staying pending. -/
def Delivered (bs : List Byte) (s t : State) : Prop :=
  if s.op = 2#2 then Appended bs s t ∧ t.grp = s.grp
  else
    Appended ((s.grp ++ bs).take (4 * ((s.grp ++ bs).length / 4))) s t ∧
    t.grp = (s.grp ++ bs).drop (4 * ((s.grp ++ bs).length / 4))

/-- A RUN chunk that began at `s`, the input being `S`, meets one of its three end tests after `n` literals (R152): 127 are
collected, the input is exhausted, or DECIDE is CACHE with the literals consumed and pushed. -/
def RunEndsAt (S : List Byte) (s : State) (n : Nat) : Prop :=
  n = 127 ∨ s.ip + n = S.length ∨
    (State.decideMode { s with ip := s.ip + n, dict := s.dict.pushAll ((S.drop s.ip).take n) }).1 = .cache

/-- Two states that differ only in where the dictionary begins (R22): the slots of one are those of the other rotated by
`r`, the cursor and every register that holds a slot number follow, and all else is equal. -/
structure RotatedBy (r : Byte) (s u : State) : Prop where
  wc : u.dict.wc = s.dict.wc + r
  slots : ∀ i, u.dict.read (i + r) = s.dict.read i
  fres : u.fres = s.fres.map (· + r)
  inMem : u.inMem = s.inMem
  inLen : u.inLen = s.inLen
  ip : u.ip = s.ip
  outMem : u.outMem = s.outMem
  outLen : u.outLen = s.outLen
  op : u.op = s.op
  phase : u.phase = s.phase
  status : u.status = s.status
  warn : u.warn = s.warn
  dropped : u.dropped = s.dropped
  fpc : u.fpc = s.fpc
  mode : u.mode = s.mode
  lit : u.lit = s.lit
  cand : u.cand = s.cand
  cmd : u.cmd = s.cmd
  cnt : u.cnt = s.cnt
  grp : u.grp = s.grp

end Sys2Proof.Machine
end

