-- ==== Sys2Proof/Certificates/Slice0/Obligations.lean ====
section
/-! DEFINITION. The statements about the block, from the numbered rules of the spec. -/

open Sys2Proof Sys2Proof.Machine

/-! ## Reset, start, the host -/

/-- R240: `reset`, in any state and phase, puts every state element at the value of R42 and `PHASE` at IDLE; `IN` and
`IN_LEN` are the host's and stay. -/
def Obligations.ResetRestoresEveryElement : Prop :=
  ∀ (s : State) (rest : List HostAction), s.host = .reset :: rest →
    ∃ t, step s = .next t ∧ AtReset t ∧ t.op = 0#2 ∧ t.phase = .idle ∧ t.status = 0#3 ∧ t.finfo = 0x00#8 ∧
      t.inMem = s.inMem ∧ t.inLen = s.inLen

/-- R241: `start` while BUSY is ignored, in every form of it: the state stays as it is, the host's action apart, and an
operation executed as an instruction leaves it whole. Else every element but the input takes its reset value, `OP` the
sampled `op`, and `PHASE` is BUSY, or, for `op = 3`, InvalidOperation is raised; this is said of the form of `start` after
which the host looks on, a step being one command or chunk. That there are two forms is the model's choice of step
(decision D17, notes 4), and so is the list of the host's actions that a step uses up (notes 5). -/
def Obligations.StartInitialisesAndSelects : Prop :=
  (∀ (s : State) (op : BitVec 2) (rest : List HostAction), s.phase = .busy →
    (s.host = .start op :: rest ∨ s.host = .startStepped op :: rest) → step s = .next { s with host := rest }) ∧
  (∀ (s : State) (i : Instr), s.phase = .busy → (i = .compress ∨ i = .decompress ∨ i = .decompressNobuf) →
    exec i s = .next s) ∧
  (∀ (s : State) (op : BitVec 2) (rest : List HostAction), s.phase ≠ .busy → s.host = .startStepped op :: rest →
    ∃ t, step s = .next t ∧ AtReset t ∧ t.op = op ∧ t.inMem = s.inMem ∧ t.inLen = s.inLen ∧ t.host = rest ∧
      (op ≠ 3#2 → t.phase = .busy ∧ t.status = 0#3 ∧ t.finfo = 0x00#8) ∧
      (op = 3#2 → t.phase = .faulted ∧ t.status = 4#3 ∧ t.finfo = 0x03#8))

/-- R214: `start` with `op = 3` does not run an operation: `PHASE` is FAULTED, `STATUS` 4, `FINFO` 3, `FPC` 0, `OP` 3, and nothing
is read or written: every other element is at its reset value and the input as it was. -/
def Obligations.ReservedSelectRaisesInvalidOperation : Prop :=
  ∀ (s : State) (rest : List HostAction), s.phase ≠ .busy →
    (s.host = .start 3#2 :: rest ∨ s.host = .startStepped 3#2 :: rest) →
    ∃ t, step s = .next t ∧ t.phase = .faulted ∧ t.status = 4#3 ∧ t.finfo = 0x03#8 ∧ t.fpc = 0 ∧ t.op = 3#2 ∧
      AtReset t ∧ t.inMem = s.inMem ∧ t.inLen = s.inLen

/-- R249, U16: the host may write the input and read `status` except while BUSY, the result only when DONE, the fault
registers only when FAULTED, `phase` always; what it must not do is refused. A read changes nothing. That the result is
refused in IDLE too, and the fault registers in DONE, is the model's choice (notes 13), and so is the list of the host's
actions that a step uses up (notes 5). -/
def Obligations.HostProtocolByPhase : Prop :=
  ∀ (s : State) (rest : List HostAction),
    (∀ bytes, s.host = .load bytes :: rest →
      (s.phase = .busy → step s = .refused .inputChangedWhileBusy) ∧
      (s.phase ≠ .busy → ∃ t, step s = .next t ∧ t.inMem.holds t.inLen bytes ∧
        t = { s with inMem := t.inMem, inLen := t.inLen, host := rest })) ∧
    (s.host = .readPhase :: rest → step s = .next { s with host := rest }) ∧
    (s.host = .readStatus :: rest →
      (s.phase = .busy → step s = .refused .outputReadInWrongPhase) ∧
      (s.phase ≠ .busy → step s = .next { s with host := rest })) ∧
    (s.host = .readResult :: rest →
      (s.phase = .done → step s = .next { s with host := rest }) ∧
      (s.phase ≠ .done → step s = .refused .outputReadInWrongPhase)) ∧
    (s.host = .readFault :: rest →
      (s.phase = .faulted → step s = .next { s with host := rest }) ∧
      (s.phase ≠ .faulted → step s = .refused .outputReadInWrongPhase))

/-- R29, R219, R220: outside BUSY the block waits: with the host quiet and nothing on the dictionary port, a step changes
nothing, so DONE and FAULTED (and `STATUS`) persist until the next `start` or `reset`. -/
def Obligations.BlockWaitsOutsideBusy : Prop :=
  ∀ s : State, s.phase ≠ .busy → s.port = [] →
    (s.host = [] → step s = .next s) ∧
    (∀ rest, s.host = .quiet :: rest → step s = .next { s with host := rest })

/-! ## Decoding, encoding, and what a step runs -/

/-- The model's step (notes 4, 5, 6): a stream command that stands at `IP` of a running decompression, the operation a
`start` selects, and the operation a port request names are executed by `exec`, nothing added but the input that is used
up. -/
def Obligations.StepRunsTheDecodedInstruction : Prop :=
  (∀ (s : State) (c : Command), c.toInstr.wellFormed = true → s.phase = .busy → (s.op = 1#2 ∨ s.op = 2#2) →
    s.inputOk = true → s.port = [] → s.holdsAt s.ip c.bytes →
    (s.host = [] → step s = exec c.toInstr s) ∧
    (∀ rest, s.host = .quiet :: rest → step s = exec c.toInstr { s with host := rest })) ∧
  (∀ (s : State) (op : BitVec 2) (i : Instr) (rest : List HostAction), decode (.op op) = .instr i [] →
    s.host = .start op :: rest → step s = exec i { s with host := rest }) ∧
  (∀ (s : State) (q : PortRequest) (qs : List PortRequest) (i : Instr), decode (.dop q) = .instr i [] →
    s.host = [] → s.port = q :: qs → step s = exec i { s with port := qs })

/-- The model's loader (notes 14, 15): a word the decoder reads as an instruction is what the very next step runs: as the
select of a `start`, as a request on the dictionary port, or as stream bytes at `IP`, there from any state whose input is
in order. -/
def Obligations.TableWordIsRunByTheNextStep : Prop :=
  ∀ (s : State) (nbits w : Nat) (i : Instr), decodeTableWord nbits w = some i →
    (nbits = 2 → step (s.withFetchWord nbits w) = exec i { s.withFetchWord nbits w with host := [] }) ∧
    (nbits = 3 → step (s.withFetchWord nbits w) = exec i { s.withFetchWord nbits w with port := [] }) ∧
    (nbits ≠ 2 → nbits ≠ 3 → s.inputOk = true → s.ip ≤ s.inLen →
      step (s.withFetchWord nbits w) = exec i (s.withFetchWord nbits w))

/-- Words written out from the encodings of 30_encoding.md (R91 to R93, R100, R101, R104) decode to the instruction they
stand for, and the reserved selects to none. -/
def Obligations.WrittenOutWordsDecode : Prop :=
  decode (.stream [0b00000000#8]) = .instr .endStream [] ∧
  decode (.stream [0b00000011#8, 0x01#8, 0x02#8, 0x03#8, 0x99#8]) =
    .instr (.run [0x01#8, 0x02#8, 0x03#8]) [0x99#8] ∧
  decode (.stream [0b10000110#8, 0x00#8]) = .instr (.cache 6#7 0x00#8) [] ∧
  decode (.stream [0b11111111#8, 0x37#8]) = .instr (.cache 127#7 0x37#8) [] ∧
  decode (.op 0b00#2) = .instr .compress [] ∧
  decode (.op 0b01#2) = .instr .decompress [] ∧
  decode (.op 0b10#2) = .instr .decompressNobuf [] ∧
  decode (.op 0b11#2) = .rejected .reservedOperation ∧
  decode (.dop { dop := 0b000#3, byte := 0xAB#8, index := 0, seq := [] }) = .instr (.push 0xAB#8) [] ∧
  decode (.dop { dop := 0b001#3, byte := 0, index := 257, seq := [] }) = .instr (.read 257) [] ∧
  decode (.dop { dop := 0b010#3, byte := 0, index := 0, seq := [] }) = .instr .snapshot [] ∧
  decode (.dop { dop := 0b011#3, byte := 0, index := 0, seq := [] }) = .instr .restore [] ∧
  decode (.dop { dop := 0b100#3, byte := 0, index := 0, seq := [0xAB#8] }) = .instr (.find [0xAB#8]) [] ∧
  decode (.dop { dop := 0b101#3, byte := 0, index := 0, seq := [] }) = .rejected .reservedDictOperation

/-- Decode and encode agree (R90 to R101): every well-formed instruction, at every value of every operand, is read back
from its encoding; a stream command also with any bytes after it, which are left over. -/
def Obligations.DecodeOfEncodeIsTheInstruction : Prop :=
  ∀ i : Instr, i.wellFormed = true →
    decode (encode i) = .instr i [] ∧
    (∀ bytes rest, encode i = .stream bytes → decode (.stream (bytes ++ rest)) = .instr i rest)

/-- The other direction (R98): what the stream decoder reads is well formed and its bytes are the ones that stood there; a
truncated command's bytes are a beginning of it. So every byte sequence has one reading. -/
def Obligations.EncodeOfDecodeIsTheBytes : Prop :=
  ∀ bs : List Byte,
    (∀ c rest, decodeStream bs = .command c rest → c.toInstr.wellFormed = true ∧ c.bytes ++ rest = bs) ∧
    (∀ c, decodeStream bs = .truncated c → c.toInstr.wellFormed = true ∧ bs ≠ [] ∧
      bs.length < c.bytes.length ∧ c.bytes.take bs.length = bs) ∧
    (decodeStream bs = .missing ↔ bs = [])

/-- R97: the command and its length are decided by its first byte: 0x00 is END, bit 7 clear is RUN of that many literals,
bit 7 set is CACHE with one offset byte. -/
def Obligations.FirstByteDecidesTheCommand : Prop :=
  ∀ (c : Byte) (bs : List Byte),
    (c = 0x00#8 → decodeStream (c :: bs) = .command .endStream bs) ∧
    (c ≠ 0x00#8 → c.toNat < 128 →
      (c.toNat ≤ bs.length → decodeStream (c :: bs) = .command (.run (bs.take c.toNat)) (bs.drop c.toNat)) ∧
      (bs.length < c.toNat → ∃ lits, lits.length = c.toNat ∧ decodeStream (c :: bs) = .truncated (.run lits))) ∧
    (128 ≤ c.toNat →
      (∀ o bs', bs = o :: bs' →
        decodeStream (c :: bs) = .command (.cache (BitVec.ofNat 7 (c.toNat - 128)) o) bs') ∧
      (bs = [] → ∃ o, decodeStream (c :: bs) = .truncated (.cache (BitVec.ofNat 7 (c.toNat - 128)) o)))

/-- R94, R95, R96: a CACHE command byte gives the decoded length `k + 3`, 3 to 130, its inverse being `0x80 | (L - 3)`; the
offset byte `o` gives the source `(WC - o - 1) mod 256`, its inverse being `(WC - idx - 1) mod 256`; 0 names the slot pushed
last, 255 the slot `WC` itself; the command byte of a RUN is its count. -/
def Obligations.OperandFieldsAssemble : Prop :=
  (∀ k : BitVec 7, (cacheByte k).toNat = 128 + k.toNat ∧ (cacheLength (cacheByte k)).toNat = k.toNat + 3 ∧
    cacheCommandByte (k.toNat + 3) = cacheByte k) ∧
  (∀ L, 3 ≤ L → L ≤ 130 → (cacheLength (cacheCommandByte L)).toNat = L) ∧
  (∀ wc o idx : Byte, ((cacheSource wc o).toNat + o.toNat + 1) % 256 = wc.toNat ∧
    cacheSource wc (offsetByte wc idx) = idx ∧ offsetByte wc (cacheSource wc o) = o) ∧
  (∀ wc : Byte, cacheSource wc 0#8 = wc - 1#8 ∧ cacheSource wc 255#8 = wc) ∧
  (∀ n, n ≤ 127 → (runByte n).toNat = n)

/-- R101: a request with a reserved select is refused. -/
def Obligations.ReservedDictSelectIsRefused : Prop :=
  ∀ (s : State) (q : PortRequest) (qs : List PortRequest), 5 ≤ q.dop.toNat → s.host = [] → s.port = q :: qs →
    step s = .refused .reservedDictOp

/-! ## The dictionary operations -/

/-- R120: PUSH writes its byte at the cursor, advances the cursor modulo 256, and changes nothing else; it always succeeds.
After `p` pushes from an empty dictionary the `Filled` slots are exactly the `min(p, 256)` behind the cursor, each with
the byte pushed that long ago. -/
def Obligations.PushWritesAtTheCursor : Prop :=
  (∀ (b : Byte) (s : State), ∃ t, exec (.push b) s = .next t ∧
    t.dict.read s.dict.wc = some b ∧ (∀ i, i ≠ s.dict.wc → t.dict.read i = s.dict.read i) ∧
    t.dict.wc.toNat = (s.dict.wc.toNat + 1) % 256 ∧ t = { s with dict := t.dict }) ∧
  (∀ (bs : List Byte) (j : Byte),
    ((State.reset.dict.pushAll bs).read ((State.reset.dict.pushAll bs).wc - 1#8 - j) = bs.reverse[j.toNat]?))

/-- R121: READ gives the slot at the index modulo 256, which is `Empty` or `Filled`; no state element is written. The read
value on the port is where the model puts the answer (notes 7). -/
def Obligations.ReadGivesTheSlot : Prop :=
  ∀ (i : Nat) (s : State), ∃ t, exec (.read i) s = .next t ∧
    t.readOut = s.dict.d.read (i % 256) ∧ t = { s with readOut := t.readOut }

/-- R122: SNAPSHOT copies the dictionary, presence flags and cursor included, into the shadow, which is then held, whether
or not one was held before; nothing else changes. -/
def Obligations.SnapshotCopiesTheDictionary : Prop :=
  ∀ s : State, ∃ t, exec .snapshot s = .next t ∧ t.shadow = some s.dict ∧ t = { s with shadow := t.shadow }

/-- R123: RESTORE copies the shadow back and keeps it held, nothing else changing; without one it is refused. After a
SNAPSHOT and any pushes, RESTORE gives the dictionary back as it was. FIND drops the snapshot. -/
def Obligations.RestoreCopiesTheShadowBack : Prop :=
  (∀ (s : State) (h : Dict), s.shadow = some h →
    ∃ t, exec .restore s = .next t ∧ t.dict = h ∧ t.shadow = some h ∧ t = { s with dict := t.dict }) ∧
  (∀ s : State, s.shadow = none → exec .restore s = .refused .restoreWithoutSnapshot) ∧
  (∀ (s u : State) (bs : List Byte), exec .snapshot s = .next u →
    ∃ t, exec .restore (u.pushAll bs) = .next t ∧ t.dict = s.dict) ∧
  (∀ (s t : State) (seq : List Byte), exec (.find seq) s = .next t → t.shadow = none)

/-- R124, R125: FIND of 1 to 130 bytes completes, writes `FRES` only and leaves no snapshot held; it reports the first start
index in scan order from the cursor whose playback is the sequence, and none exactly when no index has such a playback. -/
def Obligations.FindReportsTheFirstPlayback : Prop :=
  ∀ (seq : List Byte) (s : State), 1 ≤ seq.length → seq.length ≤ 130 →
    ∃ t, exec (.find seq) s = .next t ∧ t = { s with fres := t.fres, shadow := none } ∧
      (∀ i, t.fres = some i ↔ ∃ k, k < 256 ∧ i = s.dict.wc + BitVec.ofNat 8 k ∧
        s.dict.playback i seq.length = some seq ∧
        ∀ k', k' < k → s.dict.playback (s.dict.wc + BitVec.ofNat 8 k') seq.length ≠ some seq) ∧
      (t.fres = none ↔ ∀ i, s.dict.playback i seq.length ≠ some seq)

/-- R127: FIND of the empty sequence, or of more than 130 bytes, is refused. -/
def Obligations.FindRefusesOtherLengths : Prop :=
  ∀ (seq : List Byte) (s : State), (seq.length = 0 ∨ 130 < seq.length) → exec (.find seq) s = .refused .findLength

/-- R126 (b), (d): if a sequence is found, every non-empty beginning of it is found, at or before it in scan order, and
the slot reported is `Filled`. -/
def Obligations.FoundSequencesHaveFoundPrefixes : Prop :=
  ∀ (w : Dict) (p q : List Byte) (i : Byte), p ≠ [] → w.search (p ++ q) = some i →
    ∃ i', w.search p = some i' ∧ (i' - w.wc).toNat ≤ (i - w.wc).toNat ∧ (w.read i').isSome = true

/-- R126 (e): rotating the slots by `r` and adding `r` to the cursor adds `r` to what is found, and leaves the offset byte
unchanged. -/
def Obligations.FindIsTranslationInvariant : Prop :=
  ∀ (w v : Dict) (r : Byte) (seq : List Byte), v.wc = w.wc + r → (∀ i, v.read (i + r) = w.read i) →
    v.search seq = (w.search seq).map (· + r) ∧
    ∀ i, w.search seq = some i → offsetByte v.wc (i + r) = offsetByte w.wc i

/-! ## The commands of the stream -/

/-- R184: END completes where its byte is present: `IP` passes it, the operation is DONE, and in buffered output with bytes
pending `WARN` and `DROPPED` say how many are discarded; nothing else changes but `FPC` and `CMD`, which the decoding loop
writes (R180). -/
def Obligations.EndStopsAndWarns : Prop :=
  ∀ s : State, s.ip < s.inLen → ∃ t, exec .endStream s = .next t ∧ t.phase = .done ∧ t.ip = s.ip + 1 ∧
    t.fpc = s.ip ∧ t.cmd = 0x00#8 ∧
    (s.op ≠ 2#2 → 1 ≤ s.grp.length → s.grp.length ≤ 3 →
      t.warn = true ∧ t.dropped.toNat = s.grp.length ∧ t.grp = []) ∧
    ((s.op = 2#2 ∨ s.grp = []) → t.warn = s.warn ∧ t.dropped = s.dropped ∧ t.grp = s.grp) ∧
    t = { s with
      phase := t.phase, ip := t.ip, fpc := t.fpc, cmd := t.cmd, warn := t.warn, dropped := t.dropped,
      grp := t.grp }

/-- R182: RUN with all its literals present completes: each is pushed and goes to the output in stream order, `IP` passes
`1 + n` bytes, `CNT` ends at 0; nothing else changes but `FPC` and `CMD` (R180). Every byte of `OUT` and of the dictionary
that is not written is as before. -/
def Obligations.RunProducesItsLiterals : Prop :=
  ∀ (lits : List Byte) (s : State), (Instr.run lits).wellFormed = true → s.grp.length < 4 →
    s.ip + 1 + lits.length ≤ s.inLen →
    ∃ t, exec (.run lits) s = .next t ∧ Delivered lits s t ∧ t.dict = s.dict.pushAll lits ∧
      t.ip = s.ip + 1 + lits.length ∧ t.fpc = s.ip ∧ t.cmd.toNat = lits.length ∧ t.cnt = 0x00#8 ∧
      t = { s with
        dict := t.dict, outMem := t.outMem, outLen := t.outLen, grp := t.grp, ip := t.ip, fpc := t.fpc,
        cmd := t.cmd, cnt := t.cnt }

/-- R211 (a), R219: RUN with a literal missing produces the literals that are present, then TruncatedStream: `STATUS` 1,
`FINFO` the command byte, `FPC` its address, `IP` at the end of the input. -/
def Obligations.RunWithAMissingLiteralIsTruncated : Prop :=
  ∀ (lits : List Byte) (s : State), (Instr.run lits).wellFormed = true → s.grp.length < 4 → s.ip < s.inLen →
    s.inLen < s.ip + 1 + lits.length →
    ∃ t, exec (.run lits) s = .next t ∧ t.phase = .faulted ∧ t.status = 1#3 ∧ t.finfo.toNat = lits.length ∧
      t.fpc = s.ip ∧ t.ip = s.inLen ∧ t.cmd = t.finfo ∧ t.cnt.toNat = s.ip + 1 + lits.length - s.inLen ∧
      Delivered (lits.take (s.inLen - s.ip - 1)) s t ∧ t.dict = s.dict.pushAll (lits.take (s.inLen - s.ip - 1)) ∧
      t = { s with
        dict := t.dict, outMem := t.outMem, outLen := t.outLen, grp := t.grp, ip := t.ip, fpc := t.fpc,
        cmd := t.cmd, cnt := t.cnt, phase := t.phase, status := t.status, finfo := t.finfo }

/-- R183: CACHE with its offset byte present and no `Empty` slot in its copy completes: the bytes it produces are the playback
of `k + 3` bytes from `(WC - o - 1) mod 256` (R94, R95), each pushed and output before the next is read (R70); `IP`
advances by 2, `SRC` by `k + 3`, `CNT` ends at 0; nothing else changes but `FPC` and `CMD` (R180). -/
def Obligations.CacheCopiesFromTheDictionary : Prop :=
  ∀ (k : BitVec 7) (o : Byte) (s : State) (bs : List Byte), s.grp.length < 4 → s.ip + 1 < s.inLen →
    s.dict.playback (s.dict.wc - o - 1#8) (k.toNat + 3) = some bs →
    ∃ t, exec (.cache k o) s = .next t ∧ bs.length = k.toNat + 3 ∧ Delivered bs s t ∧ t.dict = s.dict.pushAll bs ∧
      t.ip = s.ip + 2 ∧ t.fpc = s.ip ∧ t.cmd.toNat = 128 + k.toNat ∧ t.cnt = 0x00#8 ∧
      t.src = s.dict.wc - o - 1#8 + BitVec.ofNat 8 (k.toNat + 3) ∧
      t = { s with
        dict := t.dict, outMem := t.outMem, outLen := t.outLen, grp := t.grp, ip := t.ip, fpc := t.fpc,
        cmd := t.cmd, cnt := t.cnt, src := t.src }

/-- R213, R219: CACHE whose copy meets an `Empty` slot produces the bytes before it, then UndefinedDictionaryRead: `STATUS`
3, `FINFO` the index of that slot, `FPC` the address of the command byte. -/
def Obligations.CacheOfAnEmptySlotIsUndefined : Prop :=
  ∀ (k : BitVec 7) (o : Byte) (s : State), s.grp.length < 4 → s.ip + 1 < s.inLen →
    s.dict.playback (s.dict.wc - o - 1#8) (k.toNat + 3) = none →
    ∃ t bs, exec (.cache k o) s = .next t ∧ bs.length < k.toNat + 3 ∧
      s.dict.playback (s.dict.wc - o - 1#8) bs.length = some bs ∧
      (s.dict.pushAll bs).read (s.dict.wc - o - 1#8 + BitVec.ofNat 8 bs.length) = none ∧
      Delivered bs s t ∧ t.dict = s.dict.pushAll bs ∧
      t.phase = .faulted ∧ t.status = 3#3 ∧ t.finfo = s.dict.wc - o - 1#8 + BitVec.ofNat 8 bs.length ∧
      t.src = t.finfo ∧ t.fpc = s.ip ∧ t.ip = s.ip + 2 ∧ t.cmd.toNat = 128 + k.toNat ∧
      t.cnt.toNat = k.toNat + 3 - bs.length ∧
      t = { s with
        dict := t.dict, outMem := t.outMem, outLen := t.outLen, grp := t.grp, ip := t.ip, fpc := t.fpc,
        cmd := t.cmd, cnt := t.cnt, src := t.src, phase := t.phase, status := t.status, finfo := t.finfo }

/-- R211 (b), R218: CACHE with its offset byte missing is TruncatedStream, before any slot is read: nothing is produced or
pushed. -/
def Obligations.CacheWithoutItsOffsetIsTruncated : Prop :=
  ∀ (k : BitVec 7) (o : Byte) (s : State), s.ip + 1 = s.inLen →
    ∃ t, exec (.cache k o) s = .next t ∧ t.phase = .faulted ∧ t.status = 1#3 ∧ t.finfo.toNat = 128 + k.toNat ∧
      t.fpc = s.ip ∧ t.ip = s.inLen ∧ t.cmd = t.finfo ∧ t.cnt.toNat = k.toNat + 3 ∧
      t = { s with
        ip := t.ip, fpc := t.fpc, cmd := t.cmd, cnt := t.cnt, phase := t.phase, status := t.status,
        finfo := t.finfo }

/-- R211 (c), R186: where a command byte is due and the input has ended, the step of a decompression raises TruncatedStream
with `FINFO` 0 and `FPC` the end of the input; nothing is produced or pushed. -/
def Obligations.MissingCommandByteIsTruncated : Prop :=
  ∀ s : State, s.phase = .busy → (s.op = 1#2 ∨ s.op = 2#2) → s.inputOk = true → s.port = [] → s.host = [] →
    s.ip = s.inLen →
    step s = .next { s with fpc := s.inLen, phase := .faulted, status := 1#3, finfo := 0x00#8 }

/-- The zero bytes that stand in for the missing operand bytes of a truncated command (notes 9) are never used: any others
give the same next state. -/
def Obligations.MissingOperandsAreNeverUsed : Prop :=
  (∀ (lits lits' : List Byte) (s : State), lits.length = lits'.length → s.inLen < s.ip + 1 + lits.length →
    lits.take (s.inLen - s.ip - 1) = lits'.take (s.inLen - s.ip - 1) → exec (.run lits) s = exec (.run lits') s) ∧
  (∀ (k : BitVec 7) (o o' : Byte) (s : State), s.inLen ≤ s.ip + 1 → exec (.cache k o) s = exec (.cache k o') s)

/-! ## The block-level operations -/

/-- R187, R180, R181: on a stream of RUN and CACHE commands with a defined logical output `P`, then END, then anything,
DECOMPRESSNOBUF ends DONE with `OUT = P`; DECOMPRESS ends DONE with `P` cut to a multiple of 4, `DROPPED` the number of
bytes cut and `WARN` whether any were. In both `IP` ends just after END, the dictionary holds the last 256 bytes of `P`, and
`IN` is as it was; that the host's coming actions stay is the model's choice (notes 5, 18). -/
def Obligations.DecompressionOutputsTheLogicalOutput : Prop :=
  ∀ (s : State) (cs : List Command) (rest P : List Byte), s.phase ≠ .busy → (∀ c ∈ cs, c.isChunk = true) →
    s.inMem.holds s.inLen (streamBytes cs ++ 0x00#8 :: rest) → logicalOutput cs = some P →
    (∃ t, exec .decompressNobuf s = .next t ∧ t.phase = .done ∧ t.status = 0#3 ∧ t.outMem.holds t.outLen P ∧
      t.warn = false ∧ t.dropped = 0#2 ∧ t.ip = (streamBytes cs).length + 1 ∧ t.op = 2#2 ∧
      t.dict.remembers P ∧ t.inMem = s.inMem ∧ t.inLen = s.inLen ∧ t.host = s.host) ∧
    (∃ t, exec .decompress s = .next t ∧ t.phase = .done ∧ t.status = 0#3 ∧
      t.outMem.holds t.outLen (P.take (P.length - P.length % 4)) ∧
      t.dropped.toNat = P.length % 4 ∧ (t.warn = true ↔ P.length % 4 ≠ 0) ∧
      t.ip = (streamBytes cs).length + 1 ∧ t.op = 1#2 ∧
      t.dict.remembers P ∧ t.inMem = s.inMem ∧ t.inLen = s.inLen ∧ t.host = s.host)

/-- R213: a stream whose first undefined command is a CACHE that reaches back before the first byte produced ends FAULTED
with UndefinedDictionaryRead, in both modes, `FPC` naming that command and `IP` just after it. -/
def Obligations.DecompressionFaultsOnAnUndefinedCopy : Prop :=
  ∀ (s : State) (cs : List Command) (c : Command) (rest hist : List Byte), s.phase ≠ .busy →
    (∀ d ∈ cs, d.isChunk = true) → c.isChunk = true →
    s.inMem.holds s.inLen (streamBytes cs ++ c.bytes ++ rest) → logicalOutput cs = some hist →
    c.extend hist = none →
    ∀ i, i = Instr.decompress ∨ i = Instr.decompressNobuf →
      ∃ t, exec i s = .next t ∧ t.phase = .faulted ∧ t.status = 3#3 ∧ t.fpc = (streamBytes cs).length ∧
        t.ip = (streamBytes cs).length + 2

/-- R211: a stream that ends without END, or in the middle of a command, ends FAULTED with TruncatedStream, in both modes:
`FPC` names the command that is not whole, `FINFO` is its command byte, or 0 where that is what is missing, and `IP` is at
the end. -/
def Obligations.DecompressionFaultsOnATruncatedStream : Prop :=
  ∀ (s : State) (cs : List Command) (c : Command) (part hist : List Byte), s.phase ≠ .busy →
    (∀ d ∈ cs, d.isChunk = true) → c.isChunk = true → part.length < c.bytes.length →
    part = c.bytes.take part.length →
    s.inMem.holds s.inLen (streamBytes cs ++ part) → logicalOutput cs = some hist →
    ∀ i, i = Instr.decompress ∨ i = Instr.decompressNobuf →
      ∃ t, exec i s = .next t ∧ t.phase = .faulted ∧ t.status = 1#3 ∧ t.fpc = (streamBytes cs).length ∧
        t.ip = s.inLen ∧ t.finfo = part.headD 0x00#8

/-- R252, R243: a decompression of any input ends, DONE or FAULTED, a fault being TruncatedStream or
UndefinedDictionaryRead. -/
def Obligations.DecompressionAlwaysEnds : Prop :=
  ∀ (s : State) (i : Instr), s.phase ≠ .busy → s.inputOk = true → (i = .decompress ∨ i = .decompressNobuf) →
    ∃ t, exec i s = .next t ∧
      ((t.phase = .done ∧ t.status = 0#3) ∨ (t.phase = .faulted ∧ (t.status = 1#3 ∨ t.status = 3#3)))

/-- R150, R99, R156, R160: COMPRESS of any input `S` ends DONE, with no fault and no warning, `IN` consumed and unchanged, and
`OUT` a stream of RUN (1 to 127) and CACHE (3 to 130) commands whose logical output is `S`, so that every CACHE copies
bytes already produced, then one END; the first command of a non-empty input is a RUN. That the host's coming actions stay
is the model's choice (notes 5, 18). -/
def Obligations.CompressEncodesEveryInput : Prop :=
  ∀ (s : State) (S : List Byte), s.phase ≠ .busy → s.inMem.holds s.inLen S →
    ∃ t cs, exec .compress s = .next t ∧ t.phase = .done ∧ t.status = 0#3 ∧ t.warn = false ∧ t.dropped = 0#2 ∧
      t.ip = S.length ∧ t.inMem = s.inMem ∧ t.inLen = s.inLen ∧ t.host = s.host ∧ t.op = 0#2 ∧
      t.outMem.holds t.outLen (streamBytes cs ++ [0x00#8]) ∧ (∀ c ∈ cs, c.isChunk = true) ∧
      logicalOutput cs = some S ∧ t.dict.remembers S ∧
      (S ≠ [] → ∃ lits, cs.head? = some (.run lits))

/-- R188: for every byte sequence `S`, DECOMPRESSNOBUF applied to the output of COMPRESS applied to `S` ends normally with
`OUT = S`, and DECOMPRESS with `S` cut to a multiple of 4; no fault occurs. -/
def Obligations.RoundTripForEveryInput : Prop :=
  ∀ (s u : State) (S : List Byte), s.phase ≠ .busy → s.inMem.holds s.inLen S →
    ∃ t, exec .compress s = .next t ∧ t.phase = .done ∧
      (u.phase ≠ .busy → u.inMem = t.outMem → u.inLen = t.outLen →
        (∃ v, exec .decompressNobuf u = .next v ∧ v.phase = .done ∧ v.status = 0#3 ∧ v.outMem.holds v.outLen S) ∧
        (∃ v, exec .decompress u = .next v ∧ v.phase = .done ∧ v.status = 0#3 ∧
          v.outMem.holds v.outLen (S.take (S.length - S.length % 4))))

/-- R75, R159, R156 (d), (e): a pass of COMPRESS with input left covers the next input bytes with one command: it consumes and
pushes exactly them and appends the command to `OUT`. A decoder with the same dictionary that finds the command produces
exactly those bytes and ends with the same dictionary. -/
def Obligations.ChunksKeepTheDictionariesInLockstep : Prop :=
  ∀ (s : State) (S : List Byte), s.phase = .busy → s.op = 0#2 → s.port = [] → s.host = [] →
    s.inMem.holds s.inLen S → s.ip < S.length →
    ∃ (t : State) (c : Command) (xs : List Byte), step s = .next t ∧ c.isChunk = true ∧ 0 < xs.length ∧ xs = (S.drop s.ip).take xs.length ∧
      t.phase = .busy ∧ t.ip = s.ip + xs.length ∧ t.dict = s.dict.pushAll xs ∧ Appended c.bytes s t ∧ t.fpc = s.ip ∧
      ∀ u : State, u.dict = s.dict → u.grp.length < 4 → u.ip + c.bytes.length ≤ u.inLen →
        ∃ v, exec c.toInstr u = .next v ∧ v.dict = t.dict ∧ Delivered xs u v ∧ v.ip = u.ip + c.bytes.length ∧
          v.phase = u.phase

/-- R153, R156 (b), R150, R33: where DECIDE says CACHE, the pass of COMPRESS, which is the step of a running COMPRESS, writes
CACHE to `MODE` and emits one CACHE of 3 to 130 bytes, the longest match: it stops at 130 bytes, at the end of the input,
or because one more byte would not be found; its offset byte names the index FIND reports for exactly those bytes. `CAND`
holds them, `FRES` that index, `FPC` where the chunk began, and nothing else changes. -/
def Obligations.CacheChunkIsTheLongestMatch : Prop :=
  ∀ (s : State) (S : List Byte), s.inMem.holds s.inLen S → s.decideMode.1 = .cache →
    ∃ (t : State) (k : BitVec 7) (o : Byte) (xs : List Byte), s.compressPass = t ∧
      (s.phase = .busy → s.op = 0#2 → s.port = [] → s.host = [] → step s = .next t) ∧
      xs = (S.drop s.ip).take (k.toNat + 3) ∧ xs.length = k.toNat + 3 ∧
      Appended [cacheByte k, o] s t ∧ t.ip = s.ip + xs.length ∧ t.dict = s.dict.pushAll xs ∧
      s.dict.search xs = some (s.dict.wc - o - 1#8) ∧
      (xs.length = 130 ∨ s.ip + xs.length = S.length ∨
        s.dict.search ((S.drop s.ip).take (xs.length + 1)) = none) ∧
      t.mode = .cache ∧ t.cand = xs ∧ t.fres = s.dict.search xs ∧ t.shadow = none ∧ t.fpc = s.ip ∧
      t = { s with
        dict := t.dict, outMem := t.outMem, outLen := t.outLen, ip := t.ip, fpc := t.fpc, mode := t.mode,
        cand := t.cand, fres := t.fres, shadow := t.shadow }

/-- R151, D25: DECIDE is CACHE exactly when at least three bytes remain and the three-byte probe is found: the short probe
never changes the result. DECIDE consumes and emits nothing: it writes `FRES` only, the result of the last probe it made,
and the snapshot FIND takes is dropped (R124); where no byte remains, no probe is made and nothing changes. -/
def Obligations.LongProbeAloneDecides : Prop :=
  ∀ (s : State) (S : List Byte), s.inMem.holds s.inLen S →
    (s.decideMode.1 = .cache ↔
      s.ip + 3 ≤ S.length ∧ (s.dict.search ((S.drop s.ip).take 3)).isSome = true) ∧
    (S.length ≤ s.ip → s.decideMode.2 = s) ∧
    (s.ip < S.length →
      s.decideMode.2 = { s with
        fres :=
          if s.ip + 3 ≤ S.length ∧ (s.dict.search ((S.drop s.ip).take 1)).isSome = true then
            s.dict.search ((S.drop s.ip).take 3)
          else s.dict.search ((S.drop s.ip).take 1)
        shadow := none })

/-- R241, R33 to R37: an operation leaves the registers of the other engine, and what no rule of it writes, at their reset
values, whatever they held before: COMPRESS the decoder's, a decompression the encoder's and the search result. The last
clause is the model's choice, not a rule: the fields it names are not of R20; an operation empties the dictionary port's
requests and its read value and keeps the host's coming actions (notes 18, 7, 5). -/
def Obligations.OperationsLeaveTheOtherEngineAtReset : Prop :=
  ∀ (i : Instr) (s t : State), s.phase ≠ .busy → exec i s = .next t →
    (i = .compress → t.cmd = 0x00#8 ∧ t.cnt = 0x00#8 ∧ t.src = 0x00#8 ∧ t.grp = [] ∧ t.warn = false ∧
      t.dropped = 0#2 ∧ t.shadow = none) ∧
    (i = .decompress ∨ i = .decompressNobuf → t.mode = .run ∧ t.lit = [] ∧ t.cand = [] ∧ t.fres = none ∧
      t.shadow = none) ∧
    (i = .decompressNobuf → t.grp = [] ∧ t.warn = false ∧ t.dropped = 0#2) ∧
    (i = .compress ∨ i = .decompress ∨ i = .decompressNobuf → t.port = [] ∧ t.readOut = none ∧ t.host = s.host)

/-- R241: what an operation does is a function of `op` and the input alone: two blocks with the same input, whatever else
they hold, end in the same state (the host's own next actions apart). -/
def Obligations.OperationDependsOnTheInputOnly : Prop :=
  ∀ (s t : State) (i : Instr), s.phase ≠ .busy → t.phase ≠ .busy → s.inMem = t.inMem → s.inLen = t.inLen →
    (i = .compress ∨ i = .decompress ∨ i = .decompressNobuf) → exec i s = exec i { t with host := s.host }

/-- R251, decision D17: an operation run a command or chunk at a time, the host looking on, reaches exactly the state it
reaches when it is run as one step, in at most `IN_LEN + 2` steps. -/
def Obligations.StepwiseRunEqualsWholeOperation : Prop :=
  ∀ (s : State) (op : BitVec 2), s.phase ≠ .busy →
    Host.Core.run Sys2Proof.core (s.inLen + 2) { s with host := [.startStepped op] } =
      step { s with host := [.start op] }

/-! ## Rules of the whole machine -/

/-- The invariant holds after reset. -/
def Obligations.ResetMeetsTheInvariant : Prop := Inv State.reset

/-- R25, R26, R27, R30, R31, R34, R35, R37, R189: every step from a state that meets the invariant gives one that meets it. -/
def Obligations.EveryStepKeepsTheInvariant : Prop :=
  ∀ s t : State, Inv s → step s = .next t → Inv t

/-- R60, R73: no instruction writes the input space. -/
def Obligations.NoInstructionWritesTheInput : Prop :=
  ∀ (i : Instr) (s t : State), exec i s = .next t → t.inMem = s.inMem ∧ t.inLen = s.inLen

/-- R27, R62: while an operation runs, a step of the block only appends to `OUT`: no address below `OUT_LEN` changes. -/
def Obligations.OutputIsAppendOnly : Prop :=
  ∀ s t : State, Inv s → s.phase = .busy → s.host = [] → step s = .next t →
    s.outLen ≤ t.outLen ∧ ∀ a, a < s.outLen → t.outMem.read a = s.outMem.read a

/-- R31, R160, R181: of the instructions, only END itself and DECOMPRESS, which runs it, can turn `WARN` on. -/
def Obligations.OnlyEndRaisesTheWarning : Prop :=
  ∀ (i : Instr) (s t : State), exec i s = .next t → s.warn = false → t.warn = true →
    i = .endStream ∨ i = .decompress

/-- R243: of a running operation's steps, exactly these reach DONE: the terminator of COMPRESS at the end of the input, and
END in a decompression. -/
def Obligations.DoneIsReachedInTwoWays : Prop :=
  ∀ s t : State, Inv s → s.phase = .busy → s.host = [] → s.port = [] → step s = .next t →
    (t.phase = .done ↔ (s.op = 0#2 ∧ s.ip = s.inLen) ∨ (s.op ≠ 0#2 ∧ s.inByte s.ip = some 0x00#8))

/-- R252: every step of a running operation ends it or consumes at least one byte of the input. -/
def Obligations.EveryPassEndsOrConsumesInput : Prop :=
  ∀ s t : State, Inv s → s.phase = .busy → s.host = [] → s.port = [] → step s = .next t →
    t.phase ≠ .busy ∨ (s.ip < t.ip ∧ t.ip ≤ s.inLen)

/-- R210, R219, R156 (c): of a running operation's steps only a decompression's can fault, with TruncatedStream or
UndefinedDictionaryRead, and `FPC` then names the command that began there; COMPRESS never faults. -/
def Obligations.RunningOperationsFaultPrecisely : Prop :=
  ∀ s t : State, Inv s → s.phase = .busy → s.host = [] → s.port = [] → step s = .next t → t.phase = .faulted →
    s.op ≠ 0#2 ∧ (t.status = 1#3 ∨ t.status = 3#3) ∧ t.fpc = s.ip

/-- R23, R245: between the steps of a running operation no snapshot is held. -/
def Obligations.EngineLeavesNoSnapshotHeld : Prop :=
  ∀ s t : State, s.phase = .busy → s.host = [] → s.port = [] → s.shadow = none → step s = .next t → t.shadow = none

/-- R190: every command of the stream that does not fault advances `IP` by its own length: END 1, RUN `1 + n`, CACHE 2. -/
def Obligations.CommandsAdvanceByTheirLength : Prop :=
  ∀ (s t : State) (c : Command), c.toInstr.wellFormed = true → exec c.toInstr s = .next t →
    s.phase ≠ .faulted → t.phase ≠ .faulted → t.ip = s.ip + c.bytes.length

/-- R22: the reset value of the cursor cannot be observed. Two running blocks that differ by a rotation of the dictionary
make steps that agree in every output byte, fault and warning, and differ by the same rotation after it. -/
def Obligations.CursorOriginIsUnobservable : Prop :=
  ∀ (r : Byte) (s u t : State), RotatedBy r s u → s.phase = .busy → s.host = [] → s.port = [] → u.host = [] →
    u.port = [] → s.inputOk = true → s.op ≠ 3#2 → step s = .next t → ∃ v, step u = .next v ∧ RotatedBy r t v

/-! ## The RUN chunk, the output signals -/

/-- R152, R150, R155, R33: where input remains and DECIDE says RUN, the pass of COMPRESS, which is the step of a running
COMPRESS, writes RUN to `MODE` and emits one RUN. It ends at the FIRST byte at which 127 literals are collected, the input
is exhausted, or DECIDE is CACHE at the next byte, the literals so far being in the dictionary (`RunEndsAt`); its literals
are the bytes up to there. `LIT` holds them, `FPC` where the chunk began, and nothing else changes but `FRES`, by DECIDE. -/
def Obligations.RunChunkEndsAtTheFirstLimit : Prop :=
  ∀ (s : State) (S : List Byte), s.inMem.holds s.inLen S → s.ip < S.length → s.decideMode.1 = .run →
    ∃ (t : State) (xs : List Byte), s.compressPass = t ∧
      (s.phase = .busy → s.op = 0#2 → s.port = [] → s.host = [] → step s = .next t) ∧
      xs = (S.drop s.ip).take xs.length ∧ 1 ≤ xs.length ∧ xs.length ≤ 127 ∧
      RunEndsAt S s xs.length ∧ (∀ n, 1 ≤ n → n < xs.length → ¬ RunEndsAt S s n) ∧
      Appended (runByte xs.length :: xs) s t ∧ t.ip = s.ip + xs.length ∧ t.dict = s.dict.pushAll xs ∧
      t.mode = .run ∧ t.lit = xs ∧ t.shadow = none ∧ t.fpc = s.ip ∧
      t = { s with
        dict := t.dict, outMem := t.outMem, outLen := t.outLen, ip := t.ip, fpc := t.fpc, mode := t.mode,
        lit := t.lit, fres := t.fres, shadow := t.shadow }

/-- R29, R33, R41: the output signals carry the registers, in every state: `out_len`, `status`, `dropped`, `fpc`, `finfo` are
`OUT_LEN`, `STATUS`, `DROPPED`, `FPC`, `FINFO`, `warn` is the bit of `WARN`, `out_data` is the bytes of `OUT`, and `phase` is 0 in
IDLE, 1 in BUSY, 2 in DONE, 3 in FAULTED; `MODE` is 0 for RUN and 1 for CACHE. `phase` is 0 after `reset`; after a `start` that is accepted it is 1,
or, for the reserved select, 3 with `status` 4; a step of a running operation leaves it at 1, 2 or 3. In a state that meets
the invariant `status` is not 0 exactly when `phase` is 3 (R30), and `warn` is 1 exactly when `dropped` is not 0 (R31). -/
def Obligations.OutputSignalsCarryTheRegisters : Prop :=
  (∀ s : State, (s.signals.phase = 0#2 ↔ s.phase = .idle) ∧ (s.signals.phase = 1#2 ↔ s.phase = .busy) ∧
    (s.signals.phase = 2#2 ↔ s.phase = .done) ∧ (s.signals.phase = 3#2 ↔ s.phase = .faulted) ∧
    (s.mode.code = 0#1 ↔ s.mode = .run) ∧ (s.mode.code = 1#1 ↔ s.mode = .cache)) ∧
  (∀ s : State, s.signals.outLen = s.outLen ∧ s.signals.status = s.status ∧ s.signals.warn = BitVec.ofBool s.warn ∧
    s.signals.dropped = s.dropped ∧ s.signals.fpc = s.fpc ∧ s.signals.finfo = s.finfo) ∧
  (∀ (s : State) (bytes : List Byte), s.outMem.holds s.outLen bytes →
    s.signals.outData = bytes ∧ s.signals.outLen = bytes.length) ∧
  (∀ (s : State) (rest : List HostAction), s.host = .reset :: rest →
    ∃ t, step s = .next t ∧ t.signals.phase = 0#2) ∧
  (∀ (s : State) (op : BitVec 2) (rest : List HostAction), s.phase ≠ .busy → s.host = .startStepped op :: rest →
    ∃ t, step s = .next t ∧ (op ≠ 3#2 → t.signals.phase = 1#2) ∧
      (op = 3#2 → t.signals.phase = 3#2 ∧ t.signals.status = 4#3)) ∧
  (∀ s t : State, Inv s → s.phase = .busy → s.host = [] → s.port = [] → step s = .next t → t.signals.phase ≠ 0#2) ∧
  (∀ s : State, Inv s → (s.signals.status ≠ 0#3 ↔ s.signals.phase = 3#2) ∧
    (s.signals.warn = 1#1 ↔ s.signals.dropped ≠ 0#2))
end

