-- ==== Sys2Proof/Laws/State.lean ====
section
/-! SUPPORT. One lemma per field and named update of the state, so that no later proof unfolds a record update. -/

namespace Sys2Proof.Machine

/-! State.push -/

@[simp] theorem State.push_dict (b : Byte) (s : State) : (s.push b).dict = s.dict.push b := rfl
@[simp] theorem State.push_shadow (b : Byte) (s : State) : (s.push b).shadow = s.shadow := rfl
@[simp] theorem State.push_fres (b : Byte) (s : State) : (s.push b).fres = s.fres := rfl
@[simp] theorem State.push_inMem (b : Byte) (s : State) : (s.push b).inMem = s.inMem := rfl
@[simp] theorem State.push_inLen (b : Byte) (s : State) : (s.push b).inLen = s.inLen := rfl
@[simp] theorem State.push_ip (b : Byte) (s : State) : (s.push b).ip = s.ip := rfl
@[simp] theorem State.push_outMem (b : Byte) (s : State) : (s.push b).outMem = s.outMem := rfl
@[simp] theorem State.push_outLen (b : Byte) (s : State) : (s.push b).outLen = s.outLen := rfl
@[simp] theorem State.push_op (b : Byte) (s : State) : (s.push b).op = s.op := rfl
@[simp] theorem State.push_phase (b : Byte) (s : State) : (s.push b).phase = s.phase := rfl
@[simp] theorem State.push_status (b : Byte) (s : State) : (s.push b).status = s.status := rfl
@[simp] theorem State.push_warn (b : Byte) (s : State) : (s.push b).warn = s.warn := rfl
@[simp] theorem State.push_dropped (b : Byte) (s : State) : (s.push b).dropped = s.dropped := rfl
@[simp] theorem State.push_fpc (b : Byte) (s : State) : (s.push b).fpc = s.fpc := rfl
@[simp] theorem State.push_finfo (b : Byte) (s : State) : (s.push b).finfo = s.finfo := rfl
@[simp] theorem State.push_mode (b : Byte) (s : State) : (s.push b).mode = s.mode := rfl
@[simp] theorem State.push_lit (b : Byte) (s : State) : (s.push b).lit = s.lit := rfl
@[simp] theorem State.push_cand (b : Byte) (s : State) : (s.push b).cand = s.cand := rfl
@[simp] theorem State.push_cmd (b : Byte) (s : State) : (s.push b).cmd = s.cmd := rfl
@[simp] theorem State.push_cnt (b : Byte) (s : State) : (s.push b).cnt = s.cnt := rfl
@[simp] theorem State.push_src (b : Byte) (s : State) : (s.push b).src = s.src := rfl
@[simp] theorem State.push_grp (b : Byte) (s : State) : (s.push b).grp = s.grp := rfl
@[simp] theorem State.push_readOut (b : Byte) (s : State) : (s.push b).readOut = s.readOut := rfl
@[simp] theorem State.push_port (b : Byte) (s : State) : (s.push b).port = s.port := rfl
@[simp] theorem State.push_host (b : Byte) (s : State) : (s.push b).host = s.host := rfl

/-! State.takeSnapshot -/

@[simp] theorem State.takeSnapshot_dict (s : State) : s.takeSnapshot.dict = s.dict := rfl
@[simp] theorem State.takeSnapshot_shadow (s : State) : s.takeSnapshot.shadow = some s.dict := rfl
@[simp] theorem State.takeSnapshot_fres (s : State) : s.takeSnapshot.fres = s.fres := rfl
@[simp] theorem State.takeSnapshot_inMem (s : State) : s.takeSnapshot.inMem = s.inMem := rfl
@[simp] theorem State.takeSnapshot_inLen (s : State) : s.takeSnapshot.inLen = s.inLen := rfl
@[simp] theorem State.takeSnapshot_ip (s : State) : s.takeSnapshot.ip = s.ip := rfl
@[simp] theorem State.takeSnapshot_outMem (s : State) : s.takeSnapshot.outMem = s.outMem := rfl
@[simp] theorem State.takeSnapshot_outLen (s : State) : s.takeSnapshot.outLen = s.outLen := rfl
@[simp] theorem State.takeSnapshot_op (s : State) : s.takeSnapshot.op = s.op := rfl
@[simp] theorem State.takeSnapshot_phase (s : State) : s.takeSnapshot.phase = s.phase := rfl
@[simp] theorem State.takeSnapshot_status (s : State) : s.takeSnapshot.status = s.status := rfl
@[simp] theorem State.takeSnapshot_warn (s : State) : s.takeSnapshot.warn = s.warn := rfl
@[simp] theorem State.takeSnapshot_dropped (s : State) : s.takeSnapshot.dropped = s.dropped := rfl
@[simp] theorem State.takeSnapshot_fpc (s : State) : s.takeSnapshot.fpc = s.fpc := rfl
@[simp] theorem State.takeSnapshot_finfo (s : State) : s.takeSnapshot.finfo = s.finfo := rfl
@[simp] theorem State.takeSnapshot_mode (s : State) : s.takeSnapshot.mode = s.mode := rfl
@[simp] theorem State.takeSnapshot_lit (s : State) : s.takeSnapshot.lit = s.lit := rfl
@[simp] theorem State.takeSnapshot_cand (s : State) : s.takeSnapshot.cand = s.cand := rfl
@[simp] theorem State.takeSnapshot_cmd (s : State) : s.takeSnapshot.cmd = s.cmd := rfl
@[simp] theorem State.takeSnapshot_cnt (s : State) : s.takeSnapshot.cnt = s.cnt := rfl
@[simp] theorem State.takeSnapshot_src (s : State) : s.takeSnapshot.src = s.src := rfl
@[simp] theorem State.takeSnapshot_grp (s : State) : s.takeSnapshot.grp = s.grp := rfl
@[simp] theorem State.takeSnapshot_readOut (s : State) : s.takeSnapshot.readOut = s.readOut := rfl
@[simp] theorem State.takeSnapshot_port (s : State) : s.takeSnapshot.port = s.port := rfl
@[simp] theorem State.takeSnapshot_host (s : State) : s.takeSnapshot.host = s.host := rfl

/-! State.restoreFrom -/

@[simp] theorem State.restoreFrom_dict (h : Dict) (s : State) : (s.restoreFrom h).dict = h := rfl
@[simp] theorem State.restoreFrom_shadow (h : Dict) (s : State) : (s.restoreFrom h).shadow = s.shadow := rfl
@[simp] theorem State.restoreFrom_fres (h : Dict) (s : State) : (s.restoreFrom h).fres = s.fres := rfl
@[simp] theorem State.restoreFrom_inMem (h : Dict) (s : State) : (s.restoreFrom h).inMem = s.inMem := rfl
@[simp] theorem State.restoreFrom_inLen (h : Dict) (s : State) : (s.restoreFrom h).inLen = s.inLen := rfl
@[simp] theorem State.restoreFrom_ip (h : Dict) (s : State) : (s.restoreFrom h).ip = s.ip := rfl
@[simp] theorem State.restoreFrom_outMem (h : Dict) (s : State) : (s.restoreFrom h).outMem = s.outMem := rfl
@[simp] theorem State.restoreFrom_outLen (h : Dict) (s : State) : (s.restoreFrom h).outLen = s.outLen := rfl
@[simp] theorem State.restoreFrom_op (h : Dict) (s : State) : (s.restoreFrom h).op = s.op := rfl
@[simp] theorem State.restoreFrom_phase (h : Dict) (s : State) : (s.restoreFrom h).phase = s.phase := rfl
@[simp] theorem State.restoreFrom_status (h : Dict) (s : State) : (s.restoreFrom h).status = s.status := rfl
@[simp] theorem State.restoreFrom_warn (h : Dict) (s : State) : (s.restoreFrom h).warn = s.warn := rfl
@[simp] theorem State.restoreFrom_dropped (h : Dict) (s : State) : (s.restoreFrom h).dropped = s.dropped := rfl
@[simp] theorem State.restoreFrom_fpc (h : Dict) (s : State) : (s.restoreFrom h).fpc = s.fpc := rfl
@[simp] theorem State.restoreFrom_finfo (h : Dict) (s : State) : (s.restoreFrom h).finfo = s.finfo := rfl
@[simp] theorem State.restoreFrom_mode (h : Dict) (s : State) : (s.restoreFrom h).mode = s.mode := rfl
@[simp] theorem State.restoreFrom_lit (h : Dict) (s : State) : (s.restoreFrom h).lit = s.lit := rfl
@[simp] theorem State.restoreFrom_cand (h : Dict) (s : State) : (s.restoreFrom h).cand = s.cand := rfl
@[simp] theorem State.restoreFrom_cmd (h : Dict) (s : State) : (s.restoreFrom h).cmd = s.cmd := rfl
@[simp] theorem State.restoreFrom_cnt (h : Dict) (s : State) : (s.restoreFrom h).cnt = s.cnt := rfl
@[simp] theorem State.restoreFrom_src (h : Dict) (s : State) : (s.restoreFrom h).src = s.src := rfl
@[simp] theorem State.restoreFrom_grp (h : Dict) (s : State) : (s.restoreFrom h).grp = s.grp := rfl
@[simp] theorem State.restoreFrom_readOut (h : Dict) (s : State) : (s.restoreFrom h).readOut = s.readOut := rfl
@[simp] theorem State.restoreFrom_port (h : Dict) (s : State) : (s.restoreFrom h).port = s.port := rfl
@[simp] theorem State.restoreFrom_host (h : Dict) (s : State) : (s.restoreFrom h).host = s.host := rfl

/-! State.outAppend -/

@[simp] theorem State.outAppend_dict (b : Byte) (s : State) : (s.outAppend b).dict = s.dict := rfl
@[simp] theorem State.outAppend_shadow (b : Byte) (s : State) : (s.outAppend b).shadow = s.shadow := rfl
@[simp] theorem State.outAppend_fres (b : Byte) (s : State) : (s.outAppend b).fres = s.fres := rfl
@[simp] theorem State.outAppend_inMem (b : Byte) (s : State) : (s.outAppend b).inMem = s.inMem := rfl
@[simp] theorem State.outAppend_inLen (b : Byte) (s : State) : (s.outAppend b).inLen = s.inLen := rfl
@[simp] theorem State.outAppend_ip (b : Byte) (s : State) : (s.outAppend b).ip = s.ip := rfl
@[simp] theorem State.outAppend_outMem (b : Byte) (s : State) : (s.outAppend b).outMem = s.outMem.write s.outLen b := rfl
@[simp] theorem State.outAppend_outLen (b : Byte) (s : State) : (s.outAppend b).outLen = s.outLen + 1 := rfl
@[simp] theorem State.outAppend_op (b : Byte) (s : State) : (s.outAppend b).op = s.op := rfl
@[simp] theorem State.outAppend_phase (b : Byte) (s : State) : (s.outAppend b).phase = s.phase := rfl
@[simp] theorem State.outAppend_status (b : Byte) (s : State) : (s.outAppend b).status = s.status := rfl
@[simp] theorem State.outAppend_warn (b : Byte) (s : State) : (s.outAppend b).warn = s.warn := rfl
@[simp] theorem State.outAppend_dropped (b : Byte) (s : State) : (s.outAppend b).dropped = s.dropped := rfl
@[simp] theorem State.outAppend_fpc (b : Byte) (s : State) : (s.outAppend b).fpc = s.fpc := rfl
@[simp] theorem State.outAppend_finfo (b : Byte) (s : State) : (s.outAppend b).finfo = s.finfo := rfl
@[simp] theorem State.outAppend_mode (b : Byte) (s : State) : (s.outAppend b).mode = s.mode := rfl
@[simp] theorem State.outAppend_lit (b : Byte) (s : State) : (s.outAppend b).lit = s.lit := rfl
@[simp] theorem State.outAppend_cand (b : Byte) (s : State) : (s.outAppend b).cand = s.cand := rfl
@[simp] theorem State.outAppend_cmd (b : Byte) (s : State) : (s.outAppend b).cmd = s.cmd := rfl
@[simp] theorem State.outAppend_cnt (b : Byte) (s : State) : (s.outAppend b).cnt = s.cnt := rfl
@[simp] theorem State.outAppend_src (b : Byte) (s : State) : (s.outAppend b).src = s.src := rfl
@[simp] theorem State.outAppend_grp (b : Byte) (s : State) : (s.outAppend b).grp = s.grp := rfl
@[simp] theorem State.outAppend_readOut (b : Byte) (s : State) : (s.outAppend b).readOut = s.readOut := rfl
@[simp] theorem State.outAppend_port (b : Byte) (s : State) : (s.outAppend b).port = s.port := rfl
@[simp] theorem State.outAppend_host (b : Byte) (s : State) : (s.outAppend b).host = s.host := rfl

/-! State.raise -/

@[simp] theorem State.raise_dict (f : FaultKind) (info : Byte) (s : State) : (s.raise f info).dict = s.dict := rfl
@[simp] theorem State.raise_shadow (f : FaultKind) (info : Byte) (s : State) : (s.raise f info).shadow = s.shadow := rfl
@[simp] theorem State.raise_fres (f : FaultKind) (info : Byte) (s : State) : (s.raise f info).fres = s.fres := rfl
@[simp] theorem State.raise_inMem (f : FaultKind) (info : Byte) (s : State) : (s.raise f info).inMem = s.inMem := rfl
@[simp] theorem State.raise_inLen (f : FaultKind) (info : Byte) (s : State) : (s.raise f info).inLen = s.inLen := rfl
@[simp] theorem State.raise_ip (f : FaultKind) (info : Byte) (s : State) : (s.raise f info).ip = s.ip := rfl
@[simp] theorem State.raise_outMem (f : FaultKind) (info : Byte) (s : State) : (s.raise f info).outMem = s.outMem := rfl
@[simp] theorem State.raise_outLen (f : FaultKind) (info : Byte) (s : State) : (s.raise f info).outLen = s.outLen := rfl
@[simp] theorem State.raise_op (f : FaultKind) (info : Byte) (s : State) : (s.raise f info).op = s.op := rfl
@[simp] theorem State.raise_phase (f : FaultKind) (info : Byte) (s : State) : (s.raise f info).phase = .faulted := rfl
@[simp] theorem State.raise_status (f : FaultKind) (info : Byte) (s : State) : (s.raise f info).status = f.code := rfl
@[simp] theorem State.raise_warn (f : FaultKind) (info : Byte) (s : State) : (s.raise f info).warn = s.warn := rfl
@[simp] theorem State.raise_dropped (f : FaultKind) (info : Byte) (s : State) : (s.raise f info).dropped = s.dropped := rfl
@[simp] theorem State.raise_fpc (f : FaultKind) (info : Byte) (s : State) : (s.raise f info).fpc = s.fpc := rfl
@[simp] theorem State.raise_finfo (f : FaultKind) (info : Byte) (s : State) : (s.raise f info).finfo = info := rfl
@[simp] theorem State.raise_mode (f : FaultKind) (info : Byte) (s : State) : (s.raise f info).mode = s.mode := rfl
@[simp] theorem State.raise_lit (f : FaultKind) (info : Byte) (s : State) : (s.raise f info).lit = s.lit := rfl
@[simp] theorem State.raise_cand (f : FaultKind) (info : Byte) (s : State) : (s.raise f info).cand = s.cand := rfl
@[simp] theorem State.raise_cmd (f : FaultKind) (info : Byte) (s : State) : (s.raise f info).cmd = s.cmd := rfl
@[simp] theorem State.raise_cnt (f : FaultKind) (info : Byte) (s : State) : (s.raise f info).cnt = s.cnt := rfl
@[simp] theorem State.raise_src (f : FaultKind) (info : Byte) (s : State) : (s.raise f info).src = s.src := rfl
@[simp] theorem State.raise_grp (f : FaultKind) (info : Byte) (s : State) : (s.raise f info).grp = s.grp := rfl
@[simp] theorem State.raise_readOut (f : FaultKind) (info : Byte) (s : State) : (s.raise f info).readOut = s.readOut := rfl
@[simp] theorem State.raise_port (f : FaultKind) (info : Byte) (s : State) : (s.raise f info).port = s.port := rfl
@[simp] theorem State.raise_host (f : FaultKind) (info : Byte) (s : State) : (s.raise f info).host = s.host := rfl

/-! State.find -/

@[simp] theorem State.find_dict (seq : List Byte) (s : State) : (s.find seq).dict = s.dict := rfl
@[simp] theorem State.find_shadow (seq : List Byte) (s : State) : (s.find seq).shadow = none := rfl
@[simp] theorem State.find_fres (seq : List Byte) (s : State) : (s.find seq).fres = s.dict.search seq := rfl
@[simp] theorem State.find_inMem (seq : List Byte) (s : State) : (s.find seq).inMem = s.inMem := rfl
@[simp] theorem State.find_inLen (seq : List Byte) (s : State) : (s.find seq).inLen = s.inLen := rfl
@[simp] theorem State.find_ip (seq : List Byte) (s : State) : (s.find seq).ip = s.ip := rfl
@[simp] theorem State.find_outMem (seq : List Byte) (s : State) : (s.find seq).outMem = s.outMem := rfl
@[simp] theorem State.find_outLen (seq : List Byte) (s : State) : (s.find seq).outLen = s.outLen := rfl
@[simp] theorem State.find_op (seq : List Byte) (s : State) : (s.find seq).op = s.op := rfl
@[simp] theorem State.find_phase (seq : List Byte) (s : State) : (s.find seq).phase = s.phase := rfl
@[simp] theorem State.find_status (seq : List Byte) (s : State) : (s.find seq).status = s.status := rfl
@[simp] theorem State.find_warn (seq : List Byte) (s : State) : (s.find seq).warn = s.warn := rfl
@[simp] theorem State.find_dropped (seq : List Byte) (s : State) : (s.find seq).dropped = s.dropped := rfl
@[simp] theorem State.find_fpc (seq : List Byte) (s : State) : (s.find seq).fpc = s.fpc := rfl
@[simp] theorem State.find_finfo (seq : List Byte) (s : State) : (s.find seq).finfo = s.finfo := rfl
@[simp] theorem State.find_mode (seq : List Byte) (s : State) : (s.find seq).mode = s.mode := rfl
@[simp] theorem State.find_lit (seq : List Byte) (s : State) : (s.find seq).lit = s.lit := rfl
@[simp] theorem State.find_cand (seq : List Byte) (s : State) : (s.find seq).cand = s.cand := rfl
@[simp] theorem State.find_cmd (seq : List Byte) (s : State) : (s.find seq).cmd = s.cmd := rfl
@[simp] theorem State.find_cnt (seq : List Byte) (s : State) : (s.find seq).cnt = s.cnt := rfl
@[simp] theorem State.find_src (seq : List Byte) (s : State) : (s.find seq).src = s.src := rfl
@[simp] theorem State.find_grp (seq : List Byte) (s : State) : (s.find seq).grp = s.grp := rfl
@[simp] theorem State.find_readOut (seq : List Byte) (s : State) : (s.find seq).readOut = s.readOut := rfl
@[simp] theorem State.find_port (seq : List Byte) (s : State) : (s.find seq).port = s.port := rfl
@[simp] theorem State.find_host (seq : List Byte) (s : State) : (s.find seq).host = s.host := rfl

/-! State.backOff -/

@[simp] theorem State.backOff_dict (s : State) : s.backOff.dict = s.dict := rfl
@[simp] theorem State.backOff_shadow (s : State) : s.backOff.shadow = s.shadow := rfl
@[simp] theorem State.backOff_fres (s : State) : s.backOff.fres = s.fres := rfl
@[simp] theorem State.backOff_inMem (s : State) : s.backOff.inMem = s.inMem := rfl
@[simp] theorem State.backOff_inLen (s : State) : s.backOff.inLen = s.inLen := rfl
@[simp] theorem State.backOff_ip (s : State) : s.backOff.ip = s.ip - 1 := rfl
@[simp] theorem State.backOff_outMem (s : State) : s.backOff.outMem = s.outMem := rfl
@[simp] theorem State.backOff_outLen (s : State) : s.backOff.outLen = s.outLen := rfl
@[simp] theorem State.backOff_op (s : State) : s.backOff.op = s.op := rfl
@[simp] theorem State.backOff_phase (s : State) : s.backOff.phase = s.phase := rfl
@[simp] theorem State.backOff_status (s : State) : s.backOff.status = s.status := rfl
@[simp] theorem State.backOff_warn (s : State) : s.backOff.warn = s.warn := rfl
@[simp] theorem State.backOff_dropped (s : State) : s.backOff.dropped = s.dropped := rfl
@[simp] theorem State.backOff_fpc (s : State) : s.backOff.fpc = s.fpc := rfl
@[simp] theorem State.backOff_finfo (s : State) : s.backOff.finfo = s.finfo := rfl
@[simp] theorem State.backOff_mode (s : State) : s.backOff.mode = s.mode := rfl
@[simp] theorem State.backOff_lit (s : State) : s.backOff.lit = s.lit := rfl
@[simp] theorem State.backOff_cand (s : State) : s.backOff.cand = s.cand.dropLast := rfl
@[simp] theorem State.backOff_cmd (s : State) : s.backOff.cmd = s.cmd := rfl
@[simp] theorem State.backOff_cnt (s : State) : s.backOff.cnt = s.cnt := rfl
@[simp] theorem State.backOff_src (s : State) : s.backOff.src = s.src := rfl
@[simp] theorem State.backOff_grp (s : State) : s.backOff.grp = s.grp := rfl
@[simp] theorem State.backOff_readOut (s : State) : s.backOff.readOut = s.readOut := rfl
@[simp] theorem State.backOff_port (s : State) : s.backOff.port = s.port := rfl
@[simp] theorem State.backOff_host (s : State) : s.backOff.host = s.host := rfl

/-! State.takeLiteral -/

@[simp] theorem State.takeLiteral_dict (b : Byte) (s : State) : (s.takeLiteral b).dict = s.dict.push b := rfl
@[simp] theorem State.takeLiteral_shadow (b : Byte) (s : State) : (s.takeLiteral b).shadow = s.shadow := rfl
@[simp] theorem State.takeLiteral_fres (b : Byte) (s : State) : (s.takeLiteral b).fres = s.fres := rfl
@[simp] theorem State.takeLiteral_inMem (b : Byte) (s : State) : (s.takeLiteral b).inMem = s.inMem := rfl
@[simp] theorem State.takeLiteral_inLen (b : Byte) (s : State) : (s.takeLiteral b).inLen = s.inLen := rfl
@[simp] theorem State.takeLiteral_ip (b : Byte) (s : State) : (s.takeLiteral b).ip = s.ip + 1 := rfl
@[simp] theorem State.takeLiteral_outMem (b : Byte) (s : State) : (s.takeLiteral b).outMem = s.outMem := rfl
@[simp] theorem State.takeLiteral_outLen (b : Byte) (s : State) : (s.takeLiteral b).outLen = s.outLen := rfl
@[simp] theorem State.takeLiteral_op (b : Byte) (s : State) : (s.takeLiteral b).op = s.op := rfl
@[simp] theorem State.takeLiteral_phase (b : Byte) (s : State) : (s.takeLiteral b).phase = s.phase := rfl
@[simp] theorem State.takeLiteral_status (b : Byte) (s : State) : (s.takeLiteral b).status = s.status := rfl
@[simp] theorem State.takeLiteral_warn (b : Byte) (s : State) : (s.takeLiteral b).warn = s.warn := rfl
@[simp] theorem State.takeLiteral_dropped (b : Byte) (s : State) : (s.takeLiteral b).dropped = s.dropped := rfl
@[simp] theorem State.takeLiteral_fpc (b : Byte) (s : State) : (s.takeLiteral b).fpc = s.fpc := rfl
@[simp] theorem State.takeLiteral_finfo (b : Byte) (s : State) : (s.takeLiteral b).finfo = s.finfo := rfl
@[simp] theorem State.takeLiteral_mode (b : Byte) (s : State) : (s.takeLiteral b).mode = s.mode := rfl
@[simp] theorem State.takeLiteral_lit (b : Byte) (s : State) : (s.takeLiteral b).lit = s.lit ++ [b] := rfl
@[simp] theorem State.takeLiteral_cand (b : Byte) (s : State) : (s.takeLiteral b).cand = s.cand := rfl
@[simp] theorem State.takeLiteral_cmd (b : Byte) (s : State) : (s.takeLiteral b).cmd = s.cmd := rfl
@[simp] theorem State.takeLiteral_cnt (b : Byte) (s : State) : (s.takeLiteral b).cnt = s.cnt := rfl
@[simp] theorem State.takeLiteral_src (b : Byte) (s : State) : (s.takeLiteral b).src = s.src := rfl
@[simp] theorem State.takeLiteral_grp (b : Byte) (s : State) : (s.takeLiteral b).grp = s.grp := rfl
@[simp] theorem State.takeLiteral_readOut (b : Byte) (s : State) : (s.takeLiteral b).readOut = s.readOut := rfl
@[simp] theorem State.takeLiteral_port (b : Byte) (s : State) : (s.takeLiteral b).port = s.port := rfl
@[simp] theorem State.takeLiteral_host (b : Byte) (s : State) : (s.takeLiteral b).host = s.host := rfl

/-! State.growCandidate -/

@[simp] theorem State.growCandidate_dict (b : Byte) (s : State) : (s.growCandidate b).dict = s.dict := rfl
@[simp] theorem State.growCandidate_shadow (b : Byte) (s : State) : (s.growCandidate b).shadow = s.shadow := rfl
@[simp] theorem State.growCandidate_fres (b : Byte) (s : State) : (s.growCandidate b).fres = s.fres := rfl
@[simp] theorem State.growCandidate_inMem (b : Byte) (s : State) : (s.growCandidate b).inMem = s.inMem := rfl
@[simp] theorem State.growCandidate_inLen (b : Byte) (s : State) : (s.growCandidate b).inLen = s.inLen := rfl
@[simp] theorem State.growCandidate_ip (b : Byte) (s : State) : (s.growCandidate b).ip = s.ip + 1 := rfl
@[simp] theorem State.growCandidate_outMem (b : Byte) (s : State) : (s.growCandidate b).outMem = s.outMem := rfl
@[simp] theorem State.growCandidate_outLen (b : Byte) (s : State) : (s.growCandidate b).outLen = s.outLen := rfl
@[simp] theorem State.growCandidate_op (b : Byte) (s : State) : (s.growCandidate b).op = s.op := rfl
@[simp] theorem State.growCandidate_phase (b : Byte) (s : State) : (s.growCandidate b).phase = s.phase := rfl
@[simp] theorem State.growCandidate_status (b : Byte) (s : State) : (s.growCandidate b).status = s.status := rfl
@[simp] theorem State.growCandidate_warn (b : Byte) (s : State) : (s.growCandidate b).warn = s.warn := rfl
@[simp] theorem State.growCandidate_dropped (b : Byte) (s : State) : (s.growCandidate b).dropped = s.dropped := rfl
@[simp] theorem State.growCandidate_fpc (b : Byte) (s : State) : (s.growCandidate b).fpc = s.fpc := rfl
@[simp] theorem State.growCandidate_finfo (b : Byte) (s : State) : (s.growCandidate b).finfo = s.finfo := rfl
@[simp] theorem State.growCandidate_mode (b : Byte) (s : State) : (s.growCandidate b).mode = s.mode := rfl
@[simp] theorem State.growCandidate_lit (b : Byte) (s : State) : (s.growCandidate b).lit = s.lit := rfl
@[simp] theorem State.growCandidate_cand (b : Byte) (s : State) : (s.growCandidate b).cand = s.cand ++ [b] := rfl
@[simp] theorem State.growCandidate_cmd (b : Byte) (s : State) : (s.growCandidate b).cmd = s.cmd := rfl
@[simp] theorem State.growCandidate_cnt (b : Byte) (s : State) : (s.growCandidate b).cnt = s.cnt := rfl
@[simp] theorem State.growCandidate_src (b : Byte) (s : State) : (s.growCandidate b).src = s.src := rfl
@[simp] theorem State.growCandidate_grp (b : Byte) (s : State) : (s.growCandidate b).grp = s.grp := rfl
@[simp] theorem State.growCandidate_readOut (b : Byte) (s : State) : (s.growCandidate b).readOut = s.readOut := rfl
@[simp] theorem State.growCandidate_port (b : Byte) (s : State) : (s.growCandidate b).port = s.port := rfl
@[simp] theorem State.growCandidate_host (b : Byte) (s : State) : (s.growCandidate b).host = s.host := rfl

/-! State.clearLiterals -/

@[simp] theorem State.clearLiterals_dict (s : State) : s.clearLiterals.dict = s.dict := rfl
@[simp] theorem State.clearLiterals_shadow (s : State) : s.clearLiterals.shadow = s.shadow := rfl
@[simp] theorem State.clearLiterals_fres (s : State) : s.clearLiterals.fres = s.fres := rfl
@[simp] theorem State.clearLiterals_inMem (s : State) : s.clearLiterals.inMem = s.inMem := rfl
@[simp] theorem State.clearLiterals_inLen (s : State) : s.clearLiterals.inLen = s.inLen := rfl
@[simp] theorem State.clearLiterals_ip (s : State) : s.clearLiterals.ip = s.ip := rfl
@[simp] theorem State.clearLiterals_outMem (s : State) : s.clearLiterals.outMem = s.outMem := rfl
@[simp] theorem State.clearLiterals_outLen (s : State) : s.clearLiterals.outLen = s.outLen := rfl
@[simp] theorem State.clearLiterals_op (s : State) : s.clearLiterals.op = s.op := rfl
@[simp] theorem State.clearLiterals_phase (s : State) : s.clearLiterals.phase = s.phase := rfl
@[simp] theorem State.clearLiterals_status (s : State) : s.clearLiterals.status = s.status := rfl
@[simp] theorem State.clearLiterals_warn (s : State) : s.clearLiterals.warn = s.warn := rfl
@[simp] theorem State.clearLiterals_dropped (s : State) : s.clearLiterals.dropped = s.dropped := rfl
@[simp] theorem State.clearLiterals_fpc (s : State) : s.clearLiterals.fpc = s.fpc := rfl
@[simp] theorem State.clearLiterals_finfo (s : State) : s.clearLiterals.finfo = s.finfo := rfl
@[simp] theorem State.clearLiterals_mode (s : State) : s.clearLiterals.mode = s.mode := rfl
@[simp] theorem State.clearLiterals_lit (s : State) : s.clearLiterals.lit = [] := rfl
@[simp] theorem State.clearLiterals_cand (s : State) : s.clearLiterals.cand = s.cand := rfl
@[simp] theorem State.clearLiterals_cmd (s : State) : s.clearLiterals.cmd = s.cmd := rfl
@[simp] theorem State.clearLiterals_cnt (s : State) : s.clearLiterals.cnt = s.cnt := rfl
@[simp] theorem State.clearLiterals_src (s : State) : s.clearLiterals.src = s.src := rfl
@[simp] theorem State.clearLiterals_grp (s : State) : s.clearLiterals.grp = s.grp := rfl
@[simp] theorem State.clearLiterals_readOut (s : State) : s.clearLiterals.readOut = s.readOut := rfl
@[simp] theorem State.clearLiterals_port (s : State) : s.clearLiterals.port = s.port := rfl
@[simp] theorem State.clearLiterals_host (s : State) : s.clearLiterals.host = s.host := rfl

/-! State.clearCandidate -/

@[simp] theorem State.clearCandidate_dict (s : State) : s.clearCandidate.dict = s.dict := rfl
@[simp] theorem State.clearCandidate_shadow (s : State) : s.clearCandidate.shadow = s.shadow := rfl
@[simp] theorem State.clearCandidate_fres (s : State) : s.clearCandidate.fres = s.fres := rfl
@[simp] theorem State.clearCandidate_inMem (s : State) : s.clearCandidate.inMem = s.inMem := rfl
@[simp] theorem State.clearCandidate_inLen (s : State) : s.clearCandidate.inLen = s.inLen := rfl
@[simp] theorem State.clearCandidate_ip (s : State) : s.clearCandidate.ip = s.ip := rfl
@[simp] theorem State.clearCandidate_outMem (s : State) : s.clearCandidate.outMem = s.outMem := rfl
@[simp] theorem State.clearCandidate_outLen (s : State) : s.clearCandidate.outLen = s.outLen := rfl
@[simp] theorem State.clearCandidate_op (s : State) : s.clearCandidate.op = s.op := rfl
@[simp] theorem State.clearCandidate_phase (s : State) : s.clearCandidate.phase = s.phase := rfl
@[simp] theorem State.clearCandidate_status (s : State) : s.clearCandidate.status = s.status := rfl
@[simp] theorem State.clearCandidate_warn (s : State) : s.clearCandidate.warn = s.warn := rfl
@[simp] theorem State.clearCandidate_dropped (s : State) : s.clearCandidate.dropped = s.dropped := rfl
@[simp] theorem State.clearCandidate_fpc (s : State) : s.clearCandidate.fpc = s.fpc := rfl
@[simp] theorem State.clearCandidate_finfo (s : State) : s.clearCandidate.finfo = s.finfo := rfl
@[simp] theorem State.clearCandidate_mode (s : State) : s.clearCandidate.mode = s.mode := rfl
@[simp] theorem State.clearCandidate_lit (s : State) : s.clearCandidate.lit = s.lit := rfl
@[simp] theorem State.clearCandidate_cand (s : State) : s.clearCandidate.cand = [] := rfl
@[simp] theorem State.clearCandidate_cmd (s : State) : s.clearCandidate.cmd = s.cmd := rfl
@[simp] theorem State.clearCandidate_cnt (s : State) : s.clearCandidate.cnt = s.cnt := rfl
@[simp] theorem State.clearCandidate_src (s : State) : s.clearCandidate.src = s.src := rfl
@[simp] theorem State.clearCandidate_grp (s : State) : s.clearCandidate.grp = s.grp := rfl
@[simp] theorem State.clearCandidate_readOut (s : State) : s.clearCandidate.readOut = s.readOut := rfl
@[simp] theorem State.clearCandidate_port (s : State) : s.clearCandidate.port = s.port := rfl
@[simp] theorem State.clearCandidate_host (s : State) : s.clearCandidate.host = s.host := rfl

/-! State.setMode -/

@[simp] theorem State.setMode_dict (m : EncMode) (s : State) : (s.setMode m).dict = s.dict := rfl
@[simp] theorem State.setMode_shadow (m : EncMode) (s : State) : (s.setMode m).shadow = s.shadow := rfl
@[simp] theorem State.setMode_fres (m : EncMode) (s : State) : (s.setMode m).fres = s.fres := rfl
@[simp] theorem State.setMode_inMem (m : EncMode) (s : State) : (s.setMode m).inMem = s.inMem := rfl
@[simp] theorem State.setMode_inLen (m : EncMode) (s : State) : (s.setMode m).inLen = s.inLen := rfl
@[simp] theorem State.setMode_ip (m : EncMode) (s : State) : (s.setMode m).ip = s.ip := rfl
@[simp] theorem State.setMode_outMem (m : EncMode) (s : State) : (s.setMode m).outMem = s.outMem := rfl
@[simp] theorem State.setMode_outLen (m : EncMode) (s : State) : (s.setMode m).outLen = s.outLen := rfl
@[simp] theorem State.setMode_op (m : EncMode) (s : State) : (s.setMode m).op = s.op := rfl
@[simp] theorem State.setMode_phase (m : EncMode) (s : State) : (s.setMode m).phase = s.phase := rfl
@[simp] theorem State.setMode_status (m : EncMode) (s : State) : (s.setMode m).status = s.status := rfl
@[simp] theorem State.setMode_warn (m : EncMode) (s : State) : (s.setMode m).warn = s.warn := rfl
@[simp] theorem State.setMode_dropped (m : EncMode) (s : State) : (s.setMode m).dropped = s.dropped := rfl
@[simp] theorem State.setMode_fpc (m : EncMode) (s : State) : (s.setMode m).fpc = s.fpc := rfl
@[simp] theorem State.setMode_finfo (m : EncMode) (s : State) : (s.setMode m).finfo = s.finfo := rfl
@[simp] theorem State.setMode_mode (m : EncMode) (s : State) : (s.setMode m).mode = m := rfl
@[simp] theorem State.setMode_lit (m : EncMode) (s : State) : (s.setMode m).lit = s.lit := rfl
@[simp] theorem State.setMode_cand (m : EncMode) (s : State) : (s.setMode m).cand = s.cand := rfl
@[simp] theorem State.setMode_cmd (m : EncMode) (s : State) : (s.setMode m).cmd = s.cmd := rfl
@[simp] theorem State.setMode_cnt (m : EncMode) (s : State) : (s.setMode m).cnt = s.cnt := rfl
@[simp] theorem State.setMode_src (m : EncMode) (s : State) : (s.setMode m).src = s.src := rfl
@[simp] theorem State.setMode_grp (m : EncMode) (s : State) : (s.setMode m).grp = s.grp := rfl
@[simp] theorem State.setMode_readOut (m : EncMode) (s : State) : (s.setMode m).readOut = s.readOut := rfl
@[simp] theorem State.setMode_port (m : EncMode) (s : State) : (s.setMode m).port = s.port := rfl
@[simp] theorem State.setMode_host (m : EncMode) (s : State) : (s.setMode m).host = s.host := rfl

/-! State.markStart -/

@[simp] theorem State.markStart_dict (s : State) : s.markStart.dict = s.dict := rfl
@[simp] theorem State.markStart_shadow (s : State) : s.markStart.shadow = s.shadow := rfl
@[simp] theorem State.markStart_fres (s : State) : s.markStart.fres = s.fres := rfl
@[simp] theorem State.markStart_inMem (s : State) : s.markStart.inMem = s.inMem := rfl
@[simp] theorem State.markStart_inLen (s : State) : s.markStart.inLen = s.inLen := rfl
@[simp] theorem State.markStart_ip (s : State) : s.markStart.ip = s.ip := rfl
@[simp] theorem State.markStart_outMem (s : State) : s.markStart.outMem = s.outMem := rfl
@[simp] theorem State.markStart_outLen (s : State) : s.markStart.outLen = s.outLen := rfl
@[simp] theorem State.markStart_op (s : State) : s.markStart.op = s.op := rfl
@[simp] theorem State.markStart_phase (s : State) : s.markStart.phase = s.phase := rfl
@[simp] theorem State.markStart_status (s : State) : s.markStart.status = s.status := rfl
@[simp] theorem State.markStart_warn (s : State) : s.markStart.warn = s.warn := rfl
@[simp] theorem State.markStart_dropped (s : State) : s.markStart.dropped = s.dropped := rfl
@[simp] theorem State.markStart_fpc (s : State) : s.markStart.fpc = s.ip := rfl
@[simp] theorem State.markStart_finfo (s : State) : s.markStart.finfo = s.finfo := rfl
@[simp] theorem State.markStart_mode (s : State) : s.markStart.mode = s.mode := rfl
@[simp] theorem State.markStart_lit (s : State) : s.markStart.lit = s.lit := rfl
@[simp] theorem State.markStart_cand (s : State) : s.markStart.cand = s.cand := rfl
@[simp] theorem State.markStart_cmd (s : State) : s.markStart.cmd = s.cmd := rfl
@[simp] theorem State.markStart_cnt (s : State) : s.markStart.cnt = s.cnt := rfl
@[simp] theorem State.markStart_src (s : State) : s.markStart.src = s.src := rfl
@[simp] theorem State.markStart_grp (s : State) : s.markStart.grp = s.grp := rfl
@[simp] theorem State.markStart_readOut (s : State) : s.markStart.readOut = s.readOut := rfl
@[simp] theorem State.markStart_port (s : State) : s.markStart.port = s.port := rfl
@[simp] theorem State.markStart_host (s : State) : s.markStart.host = s.host := rfl

/-! State.finish -/

@[simp] theorem State.finish_dict (s : State) : s.finish.dict = s.dict := rfl
@[simp] theorem State.finish_shadow (s : State) : s.finish.shadow = s.shadow := rfl
@[simp] theorem State.finish_fres (s : State) : s.finish.fres = s.fres := rfl
@[simp] theorem State.finish_inMem (s : State) : s.finish.inMem = s.inMem := rfl
@[simp] theorem State.finish_inLen (s : State) : s.finish.inLen = s.inLen := rfl
@[simp] theorem State.finish_ip (s : State) : s.finish.ip = s.ip := rfl
@[simp] theorem State.finish_outMem (s : State) : s.finish.outMem = s.outMem := rfl
@[simp] theorem State.finish_outLen (s : State) : s.finish.outLen = s.outLen := rfl
@[simp] theorem State.finish_op (s : State) : s.finish.op = s.op := rfl
@[simp] theorem State.finish_phase (s : State) : s.finish.phase = .done := rfl
@[simp] theorem State.finish_status (s : State) : s.finish.status = s.status := rfl
@[simp] theorem State.finish_warn (s : State) : s.finish.warn = s.warn := rfl
@[simp] theorem State.finish_dropped (s : State) : s.finish.dropped = s.dropped := rfl
@[simp] theorem State.finish_fpc (s : State) : s.finish.fpc = s.fpc := rfl
@[simp] theorem State.finish_finfo (s : State) : s.finish.finfo = s.finfo := rfl
@[simp] theorem State.finish_mode (s : State) : s.finish.mode = s.mode := rfl
@[simp] theorem State.finish_lit (s : State) : s.finish.lit = s.lit := rfl
@[simp] theorem State.finish_cand (s : State) : s.finish.cand = s.cand := rfl
@[simp] theorem State.finish_cmd (s : State) : s.finish.cmd = s.cmd := rfl
@[simp] theorem State.finish_cnt (s : State) : s.finish.cnt = s.cnt := rfl
@[simp] theorem State.finish_src (s : State) : s.finish.src = s.src := rfl
@[simp] theorem State.finish_grp (s : State) : s.finish.grp = s.grp := rfl
@[simp] theorem State.finish_readOut (s : State) : s.finish.readOut = s.readOut := rfl
@[simp] theorem State.finish_port (s : State) : s.finish.port = s.port := rfl
@[simp] theorem State.finish_host (s : State) : s.finish.host = s.host := rfl

/-! State.setCommand -/

@[simp] theorem State.setCommand_dict (c : Byte) (s : State) : (s.setCommand c).dict = s.dict := rfl
@[simp] theorem State.setCommand_shadow (c : Byte) (s : State) : (s.setCommand c).shadow = s.shadow := rfl
@[simp] theorem State.setCommand_fres (c : Byte) (s : State) : (s.setCommand c).fres = s.fres := rfl
@[simp] theorem State.setCommand_inMem (c : Byte) (s : State) : (s.setCommand c).inMem = s.inMem := rfl
@[simp] theorem State.setCommand_inLen (c : Byte) (s : State) : (s.setCommand c).inLen = s.inLen := rfl
@[simp] theorem State.setCommand_ip (c : Byte) (s : State) : (s.setCommand c).ip = s.ip := rfl
@[simp] theorem State.setCommand_outMem (c : Byte) (s : State) : (s.setCommand c).outMem = s.outMem := rfl
@[simp] theorem State.setCommand_outLen (c : Byte) (s : State) : (s.setCommand c).outLen = s.outLen := rfl
@[simp] theorem State.setCommand_op (c : Byte) (s : State) : (s.setCommand c).op = s.op := rfl
@[simp] theorem State.setCommand_phase (c : Byte) (s : State) : (s.setCommand c).phase = s.phase := rfl
@[simp] theorem State.setCommand_status (c : Byte) (s : State) : (s.setCommand c).status = s.status := rfl
@[simp] theorem State.setCommand_warn (c : Byte) (s : State) : (s.setCommand c).warn = s.warn := rfl
@[simp] theorem State.setCommand_dropped (c : Byte) (s : State) : (s.setCommand c).dropped = s.dropped := rfl
@[simp] theorem State.setCommand_fpc (c : Byte) (s : State) : (s.setCommand c).fpc = s.fpc := rfl
@[simp] theorem State.setCommand_finfo (c : Byte) (s : State) : (s.setCommand c).finfo = s.finfo := rfl
@[simp] theorem State.setCommand_mode (c : Byte) (s : State) : (s.setCommand c).mode = s.mode := rfl
@[simp] theorem State.setCommand_lit (c : Byte) (s : State) : (s.setCommand c).lit = s.lit := rfl
@[simp] theorem State.setCommand_cand (c : Byte) (s : State) : (s.setCommand c).cand = s.cand := rfl
@[simp] theorem State.setCommand_cmd (c : Byte) (s : State) : (s.setCommand c).cmd = c := rfl
@[simp] theorem State.setCommand_cnt (c : Byte) (s : State) : (s.setCommand c).cnt = s.cnt := rfl
@[simp] theorem State.setCommand_src (c : Byte) (s : State) : (s.setCommand c).src = s.src := rfl
@[simp] theorem State.setCommand_grp (c : Byte) (s : State) : (s.setCommand c).grp = s.grp := rfl
@[simp] theorem State.setCommand_readOut (c : Byte) (s : State) : (s.setCommand c).readOut = s.readOut := rfl
@[simp] theorem State.setCommand_port (c : Byte) (s : State) : (s.setCommand c).port = s.port := rfl
@[simp] theorem State.setCommand_host (c : Byte) (s : State) : (s.setCommand c).host = s.host := rfl

/-! State.setCount -/

@[simp] theorem State.setCount_dict (c : Byte) (s : State) : (s.setCount c).dict = s.dict := rfl
@[simp] theorem State.setCount_shadow (c : Byte) (s : State) : (s.setCount c).shadow = s.shadow := rfl
@[simp] theorem State.setCount_fres (c : Byte) (s : State) : (s.setCount c).fres = s.fres := rfl
@[simp] theorem State.setCount_inMem (c : Byte) (s : State) : (s.setCount c).inMem = s.inMem := rfl
@[simp] theorem State.setCount_inLen (c : Byte) (s : State) : (s.setCount c).inLen = s.inLen := rfl
@[simp] theorem State.setCount_ip (c : Byte) (s : State) : (s.setCount c).ip = s.ip := rfl
@[simp] theorem State.setCount_outMem (c : Byte) (s : State) : (s.setCount c).outMem = s.outMem := rfl
@[simp] theorem State.setCount_outLen (c : Byte) (s : State) : (s.setCount c).outLen = s.outLen := rfl
@[simp] theorem State.setCount_op (c : Byte) (s : State) : (s.setCount c).op = s.op := rfl
@[simp] theorem State.setCount_phase (c : Byte) (s : State) : (s.setCount c).phase = s.phase := rfl
@[simp] theorem State.setCount_status (c : Byte) (s : State) : (s.setCount c).status = s.status := rfl
@[simp] theorem State.setCount_warn (c : Byte) (s : State) : (s.setCount c).warn = s.warn := rfl
@[simp] theorem State.setCount_dropped (c : Byte) (s : State) : (s.setCount c).dropped = s.dropped := rfl
@[simp] theorem State.setCount_fpc (c : Byte) (s : State) : (s.setCount c).fpc = s.fpc := rfl
@[simp] theorem State.setCount_finfo (c : Byte) (s : State) : (s.setCount c).finfo = s.finfo := rfl
@[simp] theorem State.setCount_mode (c : Byte) (s : State) : (s.setCount c).mode = s.mode := rfl
@[simp] theorem State.setCount_lit (c : Byte) (s : State) : (s.setCount c).lit = s.lit := rfl
@[simp] theorem State.setCount_cand (c : Byte) (s : State) : (s.setCount c).cand = s.cand := rfl
@[simp] theorem State.setCount_cmd (c : Byte) (s : State) : (s.setCount c).cmd = s.cmd := rfl
@[simp] theorem State.setCount_cnt (c : Byte) (s : State) : (s.setCount c).cnt = c := rfl
@[simp] theorem State.setCount_src (c : Byte) (s : State) : (s.setCount c).src = s.src := rfl
@[simp] theorem State.setCount_grp (c : Byte) (s : State) : (s.setCount c).grp = s.grp := rfl
@[simp] theorem State.setCount_readOut (c : Byte) (s : State) : (s.setCount c).readOut = s.readOut := rfl
@[simp] theorem State.setCount_port (c : Byte) (s : State) : (s.setCount c).port = s.port := rfl
@[simp] theorem State.setCount_host (c : Byte) (s : State) : (s.setCount c).host = s.host := rfl

/-! State.setSource -/

@[simp] theorem State.setSource_dict (i : Byte) (s : State) : (s.setSource i).dict = s.dict := rfl
@[simp] theorem State.setSource_shadow (i : Byte) (s : State) : (s.setSource i).shadow = s.shadow := rfl
@[simp] theorem State.setSource_fres (i : Byte) (s : State) : (s.setSource i).fres = s.fres := rfl
@[simp] theorem State.setSource_inMem (i : Byte) (s : State) : (s.setSource i).inMem = s.inMem := rfl
@[simp] theorem State.setSource_inLen (i : Byte) (s : State) : (s.setSource i).inLen = s.inLen := rfl
@[simp] theorem State.setSource_ip (i : Byte) (s : State) : (s.setSource i).ip = s.ip := rfl
@[simp] theorem State.setSource_outMem (i : Byte) (s : State) : (s.setSource i).outMem = s.outMem := rfl
@[simp] theorem State.setSource_outLen (i : Byte) (s : State) : (s.setSource i).outLen = s.outLen := rfl
@[simp] theorem State.setSource_op (i : Byte) (s : State) : (s.setSource i).op = s.op := rfl
@[simp] theorem State.setSource_phase (i : Byte) (s : State) : (s.setSource i).phase = s.phase := rfl
@[simp] theorem State.setSource_status (i : Byte) (s : State) : (s.setSource i).status = s.status := rfl
@[simp] theorem State.setSource_warn (i : Byte) (s : State) : (s.setSource i).warn = s.warn := rfl
@[simp] theorem State.setSource_dropped (i : Byte) (s : State) : (s.setSource i).dropped = s.dropped := rfl
@[simp] theorem State.setSource_fpc (i : Byte) (s : State) : (s.setSource i).fpc = s.fpc := rfl
@[simp] theorem State.setSource_finfo (i : Byte) (s : State) : (s.setSource i).finfo = s.finfo := rfl
@[simp] theorem State.setSource_mode (i : Byte) (s : State) : (s.setSource i).mode = s.mode := rfl
@[simp] theorem State.setSource_lit (i : Byte) (s : State) : (s.setSource i).lit = s.lit := rfl
@[simp] theorem State.setSource_cand (i : Byte) (s : State) : (s.setSource i).cand = s.cand := rfl
@[simp] theorem State.setSource_cmd (i : Byte) (s : State) : (s.setSource i).cmd = s.cmd := rfl
@[simp] theorem State.setSource_cnt (i : Byte) (s : State) : (s.setSource i).cnt = s.cnt := rfl
@[simp] theorem State.setSource_src (i : Byte) (s : State) : (s.setSource i).src = i := rfl
@[simp] theorem State.setSource_grp (i : Byte) (s : State) : (s.setSource i).grp = s.grp := rfl
@[simp] theorem State.setSource_readOut (i : Byte) (s : State) : (s.setSource i).readOut = s.readOut := rfl
@[simp] theorem State.setSource_port (i : Byte) (s : State) : (s.setSource i).port = s.port := rfl
@[simp] theorem State.setSource_host (i : Byte) (s : State) : (s.setSource i).host = s.host := rfl

/-! State.advance -/

@[simp] theorem State.advance_dict (s : State) : s.advance.dict = s.dict := rfl
@[simp] theorem State.advance_shadow (s : State) : s.advance.shadow = s.shadow := rfl
@[simp] theorem State.advance_fres (s : State) : s.advance.fres = s.fres := rfl
@[simp] theorem State.advance_inMem (s : State) : s.advance.inMem = s.inMem := rfl
@[simp] theorem State.advance_inLen (s : State) : s.advance.inLen = s.inLen := rfl
@[simp] theorem State.advance_ip (s : State) : s.advance.ip = s.ip + 1 := rfl
@[simp] theorem State.advance_outMem (s : State) : s.advance.outMem = s.outMem := rfl
@[simp] theorem State.advance_outLen (s : State) : s.advance.outLen = s.outLen := rfl
@[simp] theorem State.advance_op (s : State) : s.advance.op = s.op := rfl
@[simp] theorem State.advance_phase (s : State) : s.advance.phase = s.phase := rfl
@[simp] theorem State.advance_status (s : State) : s.advance.status = s.status := rfl
@[simp] theorem State.advance_warn (s : State) : s.advance.warn = s.warn := rfl
@[simp] theorem State.advance_dropped (s : State) : s.advance.dropped = s.dropped := rfl
@[simp] theorem State.advance_fpc (s : State) : s.advance.fpc = s.fpc := rfl
@[simp] theorem State.advance_finfo (s : State) : s.advance.finfo = s.finfo := rfl
@[simp] theorem State.advance_mode (s : State) : s.advance.mode = s.mode := rfl
@[simp] theorem State.advance_lit (s : State) : s.advance.lit = s.lit := rfl
@[simp] theorem State.advance_cand (s : State) : s.advance.cand = s.cand := rfl
@[simp] theorem State.advance_cmd (s : State) : s.advance.cmd = s.cmd := rfl
@[simp] theorem State.advance_cnt (s : State) : s.advance.cnt = s.cnt := rfl
@[simp] theorem State.advance_src (s : State) : s.advance.src = s.src := rfl
@[simp] theorem State.advance_grp (s : State) : s.advance.grp = s.grp := rfl
@[simp] theorem State.advance_readOut (s : State) : s.advance.readOut = s.readOut := rfl
@[simp] theorem State.advance_port (s : State) : s.advance.port = s.port := rfl
@[simp] theorem State.advance_host (s : State) : s.advance.host = s.host := rfl

/-! State.holdInGroup -/

@[simp] theorem State.holdInGroup_dict (b : Byte) (s : State) : (s.holdInGroup b).dict = s.dict := rfl
@[simp] theorem State.holdInGroup_shadow (b : Byte) (s : State) : (s.holdInGroup b).shadow = s.shadow := rfl
@[simp] theorem State.holdInGroup_fres (b : Byte) (s : State) : (s.holdInGroup b).fres = s.fres := rfl
@[simp] theorem State.holdInGroup_inMem (b : Byte) (s : State) : (s.holdInGroup b).inMem = s.inMem := rfl
@[simp] theorem State.holdInGroup_inLen (b : Byte) (s : State) : (s.holdInGroup b).inLen = s.inLen := rfl
@[simp] theorem State.holdInGroup_ip (b : Byte) (s : State) : (s.holdInGroup b).ip = s.ip := rfl
@[simp] theorem State.holdInGroup_outMem (b : Byte) (s : State) : (s.holdInGroup b).outMem = s.outMem := rfl
@[simp] theorem State.holdInGroup_outLen (b : Byte) (s : State) : (s.holdInGroup b).outLen = s.outLen := rfl
@[simp] theorem State.holdInGroup_op (b : Byte) (s : State) : (s.holdInGroup b).op = s.op := rfl
@[simp] theorem State.holdInGroup_phase (b : Byte) (s : State) : (s.holdInGroup b).phase = s.phase := rfl
@[simp] theorem State.holdInGroup_status (b : Byte) (s : State) : (s.holdInGroup b).status = s.status := rfl
@[simp] theorem State.holdInGroup_warn (b : Byte) (s : State) : (s.holdInGroup b).warn = s.warn := rfl
@[simp] theorem State.holdInGroup_dropped (b : Byte) (s : State) : (s.holdInGroup b).dropped = s.dropped := rfl
@[simp] theorem State.holdInGroup_fpc (b : Byte) (s : State) : (s.holdInGroup b).fpc = s.fpc := rfl
@[simp] theorem State.holdInGroup_finfo (b : Byte) (s : State) : (s.holdInGroup b).finfo = s.finfo := rfl
@[simp] theorem State.holdInGroup_mode (b : Byte) (s : State) : (s.holdInGroup b).mode = s.mode := rfl
@[simp] theorem State.holdInGroup_lit (b : Byte) (s : State) : (s.holdInGroup b).lit = s.lit := rfl
@[simp] theorem State.holdInGroup_cand (b : Byte) (s : State) : (s.holdInGroup b).cand = s.cand := rfl
@[simp] theorem State.holdInGroup_cmd (b : Byte) (s : State) : (s.holdInGroup b).cmd = s.cmd := rfl
@[simp] theorem State.holdInGroup_cnt (b : Byte) (s : State) : (s.holdInGroup b).cnt = s.cnt := rfl
@[simp] theorem State.holdInGroup_src (b : Byte) (s : State) : (s.holdInGroup b).src = s.src := rfl
@[simp] theorem State.holdInGroup_grp (b : Byte) (s : State) : (s.holdInGroup b).grp = s.grp ++ [b] := rfl
@[simp] theorem State.holdInGroup_readOut (b : Byte) (s : State) : (s.holdInGroup b).readOut = s.readOut := rfl
@[simp] theorem State.holdInGroup_port (b : Byte) (s : State) : (s.holdInGroup b).port = s.port := rfl
@[simp] theorem State.holdInGroup_host (b : Byte) (s : State) : (s.holdInGroup b).host = s.host := rfl

/-! State.initialise -/

@[simp] theorem State.initialise_dict (s : State) : s.initialise.dict = { d := [], wc := 0#8 } := rfl
@[simp] theorem State.initialise_shadow (s : State) : s.initialise.shadow = none := rfl
@[simp] theorem State.initialise_fres (s : State) : s.initialise.fres = none := rfl
@[simp] theorem State.initialise_inMem (s : State) : s.initialise.inMem = s.inMem := rfl
@[simp] theorem State.initialise_inLen (s : State) : s.initialise.inLen = s.inLen := rfl
@[simp] theorem State.initialise_ip (s : State) : s.initialise.ip = 0 := rfl
@[simp] theorem State.initialise_outMem (s : State) : s.initialise.outMem = [] := rfl
@[simp] theorem State.initialise_outLen (s : State) : s.initialise.outLen = 0 := rfl
@[simp] theorem State.initialise_op (s : State) : s.initialise.op = 0#2 := rfl
@[simp] theorem State.initialise_phase (s : State) : s.initialise.phase = .idle := rfl
@[simp] theorem State.initialise_status (s : State) : s.initialise.status = 0#3 := rfl
@[simp] theorem State.initialise_warn (s : State) : s.initialise.warn = false := rfl
@[simp] theorem State.initialise_dropped (s : State) : s.initialise.dropped = 0#2 := rfl
@[simp] theorem State.initialise_fpc (s : State) : s.initialise.fpc = 0 := rfl
@[simp] theorem State.initialise_finfo (s : State) : s.initialise.finfo = 0#8 := rfl
@[simp] theorem State.initialise_mode (s : State) : s.initialise.mode = .run := rfl
@[simp] theorem State.initialise_lit (s : State) : s.initialise.lit = [] := rfl
@[simp] theorem State.initialise_cand (s : State) : s.initialise.cand = [] := rfl
@[simp] theorem State.initialise_cmd (s : State) : s.initialise.cmd = 0#8 := rfl
@[simp] theorem State.initialise_cnt (s : State) : s.initialise.cnt = 0#8 := rfl
@[simp] theorem State.initialise_src (s : State) : s.initialise.src = 0#8 := rfl
@[simp] theorem State.initialise_grp (s : State) : s.initialise.grp = [] := rfl
@[simp] theorem State.initialise_readOut (s : State) : s.initialise.readOut = none := rfl
@[simp] theorem State.initialise_port (s : State) : s.initialise.port = [] := rfl
@[simp] theorem State.initialise_host (s : State) : s.initialise.host = s.host := rfl

/-! State.begin -/

@[simp] theorem State.begin_dict (op : BitVec 2) (s : State) : (s.begin op).dict = { d := [], wc := 0#8 } := rfl
@[simp] theorem State.begin_shadow (op : BitVec 2) (s : State) : (s.begin op).shadow = none := rfl
@[simp] theorem State.begin_fres (op : BitVec 2) (s : State) : (s.begin op).fres = none := rfl
@[simp] theorem State.begin_inMem (op : BitVec 2) (s : State) : (s.begin op).inMem = s.inMem := rfl
@[simp] theorem State.begin_inLen (op : BitVec 2) (s : State) : (s.begin op).inLen = s.inLen := rfl
@[simp] theorem State.begin_ip (op : BitVec 2) (s : State) : (s.begin op).ip = 0 := rfl
@[simp] theorem State.begin_outMem (op : BitVec 2) (s : State) : (s.begin op).outMem = [] := rfl
@[simp] theorem State.begin_outLen (op : BitVec 2) (s : State) : (s.begin op).outLen = 0 := rfl
@[simp] theorem State.begin_op (op : BitVec 2) (s : State) : (s.begin op).op = op := rfl
@[simp] theorem State.begin_phase (op : BitVec 2) (s : State) : (s.begin op).phase = .busy := rfl
@[simp] theorem State.begin_status (op : BitVec 2) (s : State) : (s.begin op).status = 0#3 := rfl
@[simp] theorem State.begin_warn (op : BitVec 2) (s : State) : (s.begin op).warn = false := rfl
@[simp] theorem State.begin_dropped (op : BitVec 2) (s : State) : (s.begin op).dropped = 0#2 := rfl
@[simp] theorem State.begin_fpc (op : BitVec 2) (s : State) : (s.begin op).fpc = 0 := rfl
@[simp] theorem State.begin_finfo (op : BitVec 2) (s : State) : (s.begin op).finfo = 0#8 := rfl
@[simp] theorem State.begin_mode (op : BitVec 2) (s : State) : (s.begin op).mode = .run := rfl
@[simp] theorem State.begin_lit (op : BitVec 2) (s : State) : (s.begin op).lit = [] := rfl
@[simp] theorem State.begin_cand (op : BitVec 2) (s : State) : (s.begin op).cand = [] := rfl
@[simp] theorem State.begin_cmd (op : BitVec 2) (s : State) : (s.begin op).cmd = 0#8 := rfl
@[simp] theorem State.begin_cnt (op : BitVec 2) (s : State) : (s.begin op).cnt = 0#8 := rfl
@[simp] theorem State.begin_src (op : BitVec 2) (s : State) : (s.begin op).src = 0#8 := rfl
@[simp] theorem State.begin_grp (op : BitVec 2) (s : State) : (s.begin op).grp = [] := rfl
@[simp] theorem State.begin_readOut (op : BitVec 2) (s : State) : (s.begin op).readOut = none := rfl
@[simp] theorem State.begin_port (op : BitVec 2) (s : State) : (s.begin op).port = [] := rfl
@[simp] theorem State.begin_host (op : BitVec 2) (s : State) : (s.begin op).host = s.host := rfl

/-! The codes, and the output signals -/

@[simp] theorem Phase.code_eq_iff {p q : Phase} : p.code = q.code ↔ p = q := by cases p <;> cases q <;> decide
@[simp] theorem EncMode.code_eq_iff {m n : EncMode} : m.code = n.code ↔ m = n := by cases m <;> cases n <;> decide

@[simp] theorem State.signals_outData (s : State) : s.signals.outData = s.outMem.map Prod.snd := rfl
@[simp] theorem State.signals_outLen (s : State) : s.signals.outLen = s.outLen := rfl
@[simp] theorem State.signals_phase (s : State) : s.signals.phase = s.phase.code := rfl
@[simp] theorem State.signals_status (s : State) : s.signals.status = s.status := rfl
@[simp] theorem State.signals_warn (s : State) : s.signals.warn = BitVec.ofBool s.warn := rfl
@[simp] theorem State.signals_dropped (s : State) : s.signals.dropped = s.dropped := rfl
@[simp] theorem State.signals_fpc (s : State) : s.signals.fpc = s.fpc := rfl
@[simp] theorem State.signals_finfo (s : State) : s.signals.finfo = s.finfo := rfl

end Sys2Proof.Machine
end

