-- ==== Sys2Proof/Laws/Memory.lean ====
section
/-! SUPPORT. The laws of the address spaces: a read after a write, that every write keeps the canonical form, and the
space of a byte sequence. -/

namespace Sys2Proof.Machine

@[simp] theorem Memory.read_nil (a : Nat) : Memory.read [] a = none := rfl

theorem Memory.read_cons (x : Nat) (b : Byte) (m : Memory) (a : Nat) :
    Memory.read ((x, b) :: m) a = if x = a then some b else Memory.read m a := rfl

@[simp] theorem Memory.read_write_same (m : Memory) (a : Nat) (v : Byte) : (m.write a v).read a = some v := by
  induction m with
  | nil => simp [Memory.write, Memory.read]
  | cons c m ih =>
    obtain ⟨x, b⟩ := c
    simp only [Memory.write]
    split
    · simp [Memory.read]
    · split
      · simp [Memory.read]
      · rw [Memory.read_cons, if_neg (by omega), ih]

theorem Memory.read_write_other (m : Memory) {a b : Nat} (v : Byte) (h : b ≠ a) : (m.write a v).read b = m.read b := by
  induction m with
  | nil => simp [Memory.write, Memory.read, h.symm]
  | cons c m ih =>
    obtain ⟨x, w⟩ := c
    simp only [Memory.write]
    split
    · rw [Memory.read_cons, if_neg h.symm]
    · split
      · subst_vars; rw [Memory.read_cons, Memory.read_cons, if_neg h.symm, if_neg h.symm]
      · rw [Memory.read_cons, Memory.read_cons, ih]

theorem Memory.read_write (m : Memory) (a b : Nat) (v : Byte) :
    (m.write a v).read b = if b = a then some v else m.read b := by
  split
  · subst_vars; simp
  · exact Memory.read_write_other m v ‹_›

/-! The canonical form -/

theorem Memory.wf_cons {x : Nat} {b : Byte} {m : Memory} :
    Memory.wf ((x, b) :: m) = true ↔ (∀ y c m', m = (y, c) :: m' → x < y) ∧ m.wf = true := by
  cases m with
  | nil => simp [Memory.wf]
  | cons d m => obtain ⟨y, c⟩ := d; simp [Memory.wf]

theorem Memory.write_head {m : Memory} {a y : Nat} {v c : Byte} {m' : Memory} (h : m.write a v = (y, c) :: m') :
    y = a ∨ ∃ d m'', m = (y, d) :: m'' := by
  cases m with
  | nil => simp [Memory.write] at h; exact .inl h.1.1.symm
  | cons e m =>
    obtain ⟨x, b⟩ := e
    simp only [Memory.write] at h
    split at h
    · simp only [List.cons.injEq, Prod.mk.injEq] at h; exact .inl h.1.1.symm
    · split at h
      · simp only [List.cons.injEq, Prod.mk.injEq] at h; exact .inl h.1.1.symm
      · simp only [List.cons.injEq, Prod.mk.injEq] at h; exact .inr ⟨b, m, by rw [h.1.1]⟩

/-- Every write keeps the canonical form. -/
theorem Memory.write_wf {m : Memory} (a : Nat) (v : Byte) (h : m.wf = true) : (m.write a v).wf = true := by
  induction m with
  | nil => rfl
  | cons e m ih =>
    obtain ⟨x, b⟩ := e
    simp only [Memory.write]
    split
    · simp [Memory.wf, *]
    · rw [Memory.wf_cons] at h
      split
      · subst_vars; exact Memory.wf_cons.2 h
      · refine Memory.wf_cons.2 ⟨fun y c m' hm => ?_, ih h.2⟩
        rcases Memory.write_head hm with rfl | ⟨d, m'', rfl⟩
        · omega
        · exact h.1 _ _ _ rfl

theorem Memory.write_withinDict {m : Memory} {a : Nat} (v : Byte) (ha : a < 256) (h : m.withinDict = true) :
    (m.write a v).withinDict = true := by
  induction m with
  | nil => simp [Memory.write, Memory.withinDict, ha]
  | cons e m ih =>
    obtain ⟨x, b⟩ := e
    simp only [Memory.withinDict, List.all_cons, Bool.and_eq_true] at h ih ⊢
    simp only [Memory.write]
    split
    · simp [h, ha]
    · split
      · simp [h.2, ha]
      · simp only [List.all_cons, Bool.and_eq_true]; exact ⟨h.1, ih h.2⟩

/-! The space of a byte sequence -/

@[simp] theorem Memory.length_ofBytesAt (a : Nat) (bs : List Byte) : (Memory.ofBytesAt a bs).length = bs.length := by
  induction bs generalizing a with
  | nil => rfl
  | cons b bs ih => simp [Memory.ofBytesAt, ih]

/-- The bytes of a space that holds a sequence are the sequence. -/
@[simp] theorem Memory.map_snd_ofBytesAt (a : Nat) (bs : List Byte) : (Memory.ofBytesAt a bs).map Prod.snd = bs := by
  induction bs generalizing a with
  | nil => rfl
  | cons b bs ih => exact congrArg (b :: ·) (ih (a + 1))

theorem Memory.ofBytesAt_append (a : Nat) (xs ys : List Byte) :
    Memory.ofBytesAt a (xs ++ ys) = Memory.ofBytesAt a xs ++ Memory.ofBytesAt (a + xs.length) ys := by
  induction xs generalizing a with
  | nil => simp [Memory.ofBytesAt]
  | cons b xs ih => simp [Memory.ofBytesAt, ih, Nat.add_assoc, Nat.add_comm 1]

theorem Memory.read_ofBytesAt (a x : Nat) (bs : List Byte) :
    (Memory.ofBytesAt a bs).read x = if x < a then none else bs[x - a]? := by
  induction bs generalizing a with
  | nil => simp [Memory.ofBytesAt]
  | cons b bs ih =>
    rw [Memory.ofBytesAt, Memory.read_cons, ih]
    by_cases h : a = x
    · simp [h]
    · by_cases hx : x < a
      · simp [h, hx, show x < a + 1 by omega]
      · have : x - a = (x - (a + 1)) + 1 := by omega
        simp [h, hx, show ¬ x < a + 1 by omega, this]

@[simp] theorem Memory.read_ofBytes (bs : List Byte) (x : Nat) : (Memory.ofBytes bs).read x = bs[x]? := by
  simp [Memory.ofBytes, Memory.read_ofBytesAt]

/-- Writing at the end of a sequence appends to it. -/
theorem Memory.write_ofBytesAt_end (a : Nat) (bs : List Byte) (v : Byte) :
    (Memory.ofBytesAt a bs).write (a + bs.length) v = Memory.ofBytesAt a (bs ++ [v]) := by
  induction bs generalizing a with
  | nil => rfl
  | cons b bs ih =>
    have hlt : ¬ a + (bs.length + 1) < a := by omega
    simp only [Memory.ofBytesAt, List.cons_append, List.length_cons, Memory.write, hlt, if_false]
    rw [if_neg (by omega), show a + (bs.length + 1) = a + 1 + bs.length by omega, ih]

theorem Memory.write_ofBytes_end (bs : List Byte) (v : Byte) :
    (Memory.ofBytes bs).write bs.length v = Memory.ofBytes (bs ++ [v]) := by
  have := Memory.write_ofBytesAt_end 0 bs v
  simpa [Memory.ofBytes] using this

theorem Memory.contiguousFrom_ofBytesAt (a : Nat) (bs : List Byte) :
    Memory.contiguousFrom a (Memory.ofBytesAt a bs) = true := by
  induction bs generalizing a with
  | nil => rfl
  | cons b bs ih => simp [Memory.ofBytesAt, Memory.contiguousFrom, ih]

theorem Memory.eq_ofBytesAt_of_contiguousFrom {a : Nat} {m : Memory} (h : Memory.contiguousFrom a m = true) :
    m = Memory.ofBytesAt a (m.map Prod.snd) := by
  induction m generalizing a with
  | nil => rfl
  | cons e m ih =>
    obtain ⟨x, b⟩ := e
    simp only [Memory.contiguousFrom, Bool.and_eq_true, decide_eq_true_eq] at h
    simp only [List.map_cons, Memory.ofBytesAt, h.1, ← ih h.2]

/-- A space spans `n` exactly when it holds some sequence of length `n`. -/
theorem Memory.spans_iff {m : Memory} {n : Nat} : m.spans n = true ↔ ∃ bs, m.holds n bs := by
  constructor
  · intro h
    simp only [Memory.spans, Bool.and_eq_true, decide_eq_true_eq] at h
    exact ⟨m.map Prod.snd, Memory.eq_ofBytesAt_of_contiguousFrom h.1, by simp [h.2]⟩
  · rintro ⟨bs, rfl, rfl⟩
    simp [Memory.spans, Memory.ofBytes, Memory.contiguousFrom_ofBytesAt]

@[simp] theorem Memory.spans_ofBytes (bs : List Byte) : (Memory.ofBytes bs).spans bs.length = true :=
  Memory.spans_iff.2 ⟨bs, rfl, rfl⟩

theorem Memory.wf_ofBytesAt (a : Nat) (bs : List Byte) : (Memory.ofBytesAt a bs).wf = true := by
  induction bs generalizing a with
  | nil => rfl
  | cons b bs ih =>
    refine Memory.wf_cons.2 ⟨fun y c m' hm => ?_, ih _⟩
    cases bs with
    | nil => simp [Memory.ofBytesAt] at hm
    | cons d bs => simp only [Memory.ofBytesAt, List.cons.injEq, Prod.mk.injEq] at hm; omega

/-- A space that spans a range is in canonical form. -/
theorem Memory.wf_of_spans {m : Memory} {n : Nat} (h : m.spans n = true) : m.wf = true := by
  obtain ⟨bs, rfl, -⟩ := Memory.spans_iff.1 h
  exact Memory.wf_ofBytesAt 0 bs

/-- Appending a byte keeps a space spanning its length. -/
theorem Memory.spans_write_end {m : Memory} {n : Nat} (v : Byte) (h : m.spans n = true) :
    (m.write n v).spans (n + 1) = true := by
  obtain ⟨bs, rfl, rfl⟩ := Memory.spans_iff.1 h
  rw [Memory.write_ofBytes_end]
  simpa using Memory.spans_ofBytes (bs ++ [v])

theorem Memory.readRun_ofBytesAt (a i n : Nat) (bs : List Byte) :
    Memory.readRun (Memory.ofBytesAt a bs) (a + i) n = (bs.drop i).take n := by
  induction bs generalizing a i n with
  | nil => simp [Memory.ofBytesAt, Memory.readRun]
  | cons b bs ih =>
    cases i with
    | zero =>
      cases n with
      | zero => simp [Memory.ofBytesAt, Memory.readRun]
      | succ n =>
        have := ih (a + 1) 0 n
        simp only [Nat.add_zero, List.drop_zero] at this
        simp [Memory.ofBytesAt, Memory.readRun, this]
    | succ i =>
      have := ih (a + 1) i n
      rw [show a + 1 + i = a + (i + 1) by omega] at this
      simp [Memory.ofBytesAt, Memory.readRun, this]

/-! The input space -/

theorem State.inByte_of_holds {s : State} {bs : List Byte} (h : s.inMem.holds s.inLen bs) (a : Nat) :
    s.inByte a = bs[a]? := by
  obtain ⟨hm, hn⟩ := h
  unfold State.inByte
  rw [hm, hn, Memory.read_ofBytes]
  split
  · rfl
  · exact (List.getElem?_eq_none (by omega)).symm

theorem State.window_of_holds {s : State} {bs : List Byte} (h : s.inMem.holds s.inLen bs) :
    s.window = (bs.drop s.ip).take 128 := by
  obtain ⟨hm, hn⟩ := h
  unfold State.window
  have := Memory.readRun_ofBytesAt 0 s.ip (min 128 (bs.length - s.ip)) bs
  rw [Nat.zero_add] at this
  rw [hm, hn, Memory.ofBytes]
  simp only [Config.longestCommand]
  rw [this, ← List.take_take, List.take_of_length_le (by simp : (bs.drop s.ip).length ≤ bs.length - s.ip)]

end Sys2Proof.Machine
end

