-- ==== Sys2Proof/Laws/Dictionary.lean ====
section
/-! SUPPORT. The laws of the dictionary and of FIND: what PUSH leaves, what a search answers, and the dictionary as the
last 256 bytes of a history. -/

namespace Sys2Proof.Machine

/-! PUSH -/

@[simp] theorem Dict.push_wc (w : Dict) (b : Byte) : (w.push b).wc = w.wc + 1#8 := rfl

theorem Dict.read_push (w : Dict) (b i : Byte) : (w.push b).read i = if i = w.wc then some b else w.read i := by
  unfold Dict.push Dict.read
  simp only [Memory.read_write]
  by_cases h : i = w.wc
  · simp [h]
  · rw [if_neg h, if_neg fun hn => h (BitVec.eq_of_toNat_eq hn)]

theorem Dict.push_ok {w : Dict} (b : Byte) (h : w.ok) : (w.push b).ok :=
  ⟨Memory.write_wf _ _ h.1, Memory.write_withinDict _ w.wc.isLt h.2⟩

@[simp] theorem Dict.pushAll_nil (w : Dict) : w.pushAll [] = w := rfl
@[simp] theorem Dict.pushAll_cons (w : Dict) (b : Byte) (bs : List Byte) :
    w.pushAll (b :: bs) = (w.push b).pushAll bs := rfl

theorem Dict.pushAll_append (w : Dict) (xs ys : List Byte) : w.pushAll (xs ++ ys) = (w.pushAll xs).pushAll ys :=
  List.foldl_append

theorem Dict.pushAll_ok {w : Dict} (bs : List Byte) (h : w.ok) : (w.pushAll bs).ok := by
  induction bs generalizing w with
  | nil => exact h
  | cons b bs ih => exact ih (Dict.push_ok b h)

theorem Dict.ok_empty (c : Byte) : Dict.ok { d := [], wc := c } := ⟨rfl, rfl⟩

/-! Playback and search -/

/-- A candidate is confirmed exactly when its playback is the sequence (R125). -/
theorem Dict.confirms_iff_playback (w : Dict) (s : Byte) (seq : List Byte) :
    w.confirms s seq = true ↔ w.playback s seq.length = some seq := by
  induction seq generalizing w s with
  | nil => simp [Dict.confirms, Dict.playback]
  | cons b bs ih =>
    simp only [Dict.confirms, List.length_cons, Dict.playback]
    cases w.read s with
    | none => simp
    | some v =>
      simp only [Option.map_eq_some_iff, List.cons.injEq]
      split
      · subst_vars; rw [ih]; simp
      · rename_i hv
        simp only [Bool.false_eq_true, false_iff]
        rintro ⟨a, -, h, -⟩
        exact hv h

/-- A confirmed sequence has every prefix confirmed (R126). -/
theorem Dict.confirms_append_left {w : Dict} {s : Byte} {p q : List Byte} (h : w.confirms s (p ++ q) = true) :
    w.confirms s p = true := by
  induction p generalizing w s with
  | nil => rfl
  | cons b bs ih =>
    simp only [List.cons_append, Dict.confirms] at h ⊢
    cases hr : w.read s with
    | none => simp [hr] at h
    | some v =>
      simp only [hr] at h ⊢
      split at h
      · rw [if_pos ‹_›]; exact ih h
      · simp at h

theorem Dict.search_eq_some_iff {w : Dict} {seq : List Byte} {i : Byte} :
    w.search seq = some i ↔
      ∃ k < 256, i = w.candidate k ∧ w.confirms (w.candidate k) seq = true ∧
        ∀ k' < k, w.confirms (w.candidate k') seq ≠ true := by
  simp only [Dict.search, Option.map_eq_some_iff, Config.dictSize]
  constructor
  · rintro ⟨k, hk, rfl⟩
    rw [List.find?_range_eq_some] at hk
    exact ⟨k, by simpa using hk.2.1, rfl, by simpa using hk.1, fun k' hk' => by simpa using hk.2.2 k' hk'⟩
  · rintro ⟨k, hk, rfl, hc, hmin⟩
    exact ⟨k, List.find?_range_eq_some.2 ⟨by simpa using hc, by simpa using hk, fun j hj => by simpa using hmin j hj⟩, rfl⟩

theorem Dict.search_eq_none_iff {w : Dict} {seq : List Byte} :
    w.search seq = none ↔ ∀ k < 256, w.confirms (w.candidate k) seq ≠ true := by
  simp [Dict.search]

/-- What a search reports is a start whose playback is the sequence (R125). -/
theorem Dict.playback_of_search {w : Dict} {seq : List Byte} {i : Byte} (h : w.search seq = some i) :
    w.playback i seq.length = some seq := by
  obtain ⟨k, -, rfl, hc, -⟩ := Dict.search_eq_some_iff.1 h
  exact (Dict.confirms_iff_playback _ _ _).1 hc

/-- If a sequence is found so is every prefix (R126 (b)). -/
theorem Dict.search_isSome_of_append {w : Dict} {p q : List Byte} (h : (w.search (p ++ q)).isSome = true) :
    (w.search p).isSome = true := by
  cases hp : w.search p with
  | some i => rfl
  | none =>
    obtain ⟨i, hi⟩ := Option.isSome_iff_exists.1 h
    obtain ⟨k, hk, -, hc, -⟩ := Dict.search_eq_some_iff.1 hi
    exact absurd (Dict.confirms_append_left hc) (Dict.search_eq_none_iff.1 hp k hk)

/-! Playback, the copy it stops at, and the pushes it makes -/

theorem Dict.playable_of_playback {w : Dict} {s : Byte} {n : Nat} {bs : List Byte} (h : w.playback s n = some bs) :
    w.playable s n = bs := by
  induction n generalizing w s bs with
  | zero => simpa [Dict.playback, Dict.playable] using h
  | succ n ih =>
    simp only [Dict.playback, Dict.playable] at h ⊢
    cases hr : w.read s with
    | none => simp [hr] at h
    | some b =>
      simp only [hr, Option.map_eq_some_iff] at h ⊢
      obtain ⟨a, ha, rfl⟩ := h
      rw [ih ha]

theorem Dict.length_of_playback {w : Dict} {s : Byte} {n : Nat} {bs : List Byte} (h : w.playback s n = some bs) :
    bs.length = n := by
  induction n generalizing w s bs with
  | zero => simp [Dict.playback] at h; simp [← h]
  | succ n ih =>
    simp only [Dict.playback] at h
    cases hr : w.read s with
    | none => simp [hr] at h
    | some b =>
      simp only [hr, Option.map_eq_some_iff] at h
      obtain ⟨a, ha, rfl⟩ := h
      simp [ih ha]

/-! The dictionary as the last 256 bytes of a history -/

theorem Dict.remembers_empty (c : Byte) : Dict.remembers { d := [], wc := c } [] := fun j => by
  simp [Dict.read]

theorem Dict.remembers_push {w : Dict} {hist : List Byte} (b : Byte) (h : w.remembers hist) :
    (w.push b).remembers (hist ++ [b]) := by
  intro j
  rw [Dict.read_push, Dict.push_wc, BitVec.add_sub_cancel]
  by_cases hj : j = 0#8
  · subst hj; simp
  · have hne : w.wc - j ≠ w.wc := by bv_omega
    have hpos : j.toNat = (j - 1#8).toNat + 1 := by bv_omega
    have hidx : w.wc - j = w.wc - 1#8 - (j - 1#8) := by bv_omega
    rw [if_neg hne, hidx, h (j - 1#8), hpos]
    simp

theorem Dict.remembers_pushAll {w : Dict} {hist : List Byte} (bs : List Byte) (h : w.remembers hist) :
    (w.pushAll bs).remembers (hist ++ bs) := by
  induction bs generalizing w hist with
  | nil => simpa using h
  | cons b bs ih => simpa using ih (Dict.remembers_push b h)

/-- A copy from `o + 1` behind the cursor of a dictionary that remembers a history copies from `o + 1` back in it. -/
theorem Dict.playback_remembers {w : Dict} {hist : List Byte} (n : Nat) (o : Byte) (h : w.remembers hist) :
    (w.playback (cacheSource w.wc o) n).map (hist ++ ·) = copyBack n (o.toNat + 1) hist := by
  have hsrc : ∀ v : Dict, cacheSource v.wc o = v.wc - 1#8 - o := fun v => by unfold cacheSource; bv_omega
  induction n generalizing w hist with
  | zero => simp [Dict.playback, copyBack]
  | succ n ih =>
    have hr := h o
    rw [← hsrc w] at hr
    rw [Dict.playback, hr, copyBack]
    by_cases hlen : o.toNat + 1 ≤ hist.length
    · rw [if_pos hlen, List.getElem?_reverse (by omega), show hist.length - 1 - o.toNat = hist.length - (o.toNat + 1) by omega]
      obtain ⟨b, hb⟩ : ∃ b, hist[hist.length - (o.toNat + 1)]? = some b :=
        ⟨_, List.getElem?_eq_getElem (by omega)⟩
      have hnext : cacheSource w.wc o + 1#8 = cacheSource (w.push b).wc o := by
        rw [hsrc, hsrc, Dict.push_wc]; bv_omega
      simp only [hb]
      rw [hnext, ← ih (Dict.remembers_push b h)]
      cases (w.push b).playback (cacheSource (w.push b).wc o) n <;> simp
    · rw [if_neg hlen, List.getElem?_eq_none (by simpa using Nat.lt_succ_iff.1 (Nat.lt_of_not_le hlen))]
      rfl

end Sys2Proof.Machine
end

