-- ==== Sys2Proof/Laws/Stream.lean ====
section
/-! SUPPORT. The laws of the steps the stream commands share: bytes reaching `OUT`, Produce, the loops of RUN and CACHE. -/

namespace Sys2Proof.Machine

/-! Bytes reaching `OUT` -/

theorem Appended.refl (s : State) : Appended [] s s := ⟨rfl, by simp, fun _ _ => rfl⟩

/-- A step that touches neither `OUT` nor `OUT_LEN` can stand on either side. -/
theorem Appended.congr {bs : List Byte} {s s' t t' : State} (h : Appended bs s t) (hs : s'.outMem = s.outMem)
    (hs' : s'.outLen = s.outLen) (ht : t'.outMem = t.outMem) (ht' : t'.outLen = t.outLen) : Appended bs s' t' := by
  unfold Appended at h ⊢
  rw [hs, hs', ht, ht']
  exact h

theorem Appended.trans {xs ys : List Byte} {s t u : State} (h : Appended xs s t) (k : Appended ys t u) :
    Appended (xs ++ ys) s u := by
  obtain ⟨h1, h2, h3⟩ := h
  obtain ⟨k1, k2, k3⟩ := k
  refine ⟨by simp [k1, h1]; omega, fun j hj => ?_, fun a ha => ?_⟩
  · by_cases hx : j < xs.length
    · rw [k3 _ (by omega), h2 j hx, List.getElem?_append_left hx]
    · have := k2 (j - xs.length) (by simp at hj; omega)
      rw [h1, show s.outLen + xs.length + (j - xs.length) = s.outLen + j by omega] at this
      rw [this, List.getElem?_append_right (by omega)]
  · rw [k3 a (by omega), h3 a (by omega)]

theorem Appended.outAppend (b : Byte) (s : State) : Appended [b] s (s.outAppend b) := by
  refine ⟨rfl, fun j hj => ?_, fun a ha => ?_⟩
  · obtain rfl : j = 0 := by simpa using hj
    simp
  · simp only [State.outAppend_outMem, State.outAppend_outLen] at ha ⊢
    exact Memory.read_write_other _ _ (by omega)

@[simp] theorem State.outAppendAll_nil (s : State) : s.outAppendAll [] = s := rfl
@[simp] theorem State.outAppendAll_cons (b : Byte) (bs : List Byte) (s : State) :
    s.outAppendAll (b :: bs) = (s.outAppend b).outAppendAll bs := rfl

/-- `OutAppend` of several bytes writes `OUT` and `OUT_LEN` only. -/
theorem State.outAppendAll_frame (bs : List Byte) (s : State) :
    s.outAppendAll bs = { s with outMem := (s.outAppendAll bs).outMem, outLen := s.outLen + bs.length } := by
  induction bs generalizing s with
  | nil => rfl
  | cons b bs ih =>
    rw [State.outAppendAll_cons, ih]
    simp [State.outAppend, Nat.add_assoc, Nat.add_comm 1]

theorem Appended.outAppendAll (bs : List Byte) (s : State) : Appended bs s (s.outAppendAll bs) := by
  induction bs generalizing s with
  | nil => exact Appended.refl s
  | cons b bs ih => exact (Appended.outAppend b s).trans (ih _)

/-- What a space holds after bytes were appended to it. -/
theorem State.outAppendAll_holds {s : State} {xs : List Byte} (bs : List Byte) (h : s.outMem.holds s.outLen xs) :
    (s.outAppendAll bs).outMem.holds (s.outAppendAll bs).outLen (xs ++ bs) := by
  induction bs generalizing s xs with
  | nil => simpa using h
  | cons b bs ih =>
    have hb : (s.outAppend b).outMem.holds (s.outAppend b).outLen (xs ++ [b]) := by
      obtain ⟨h1, h2⟩ := h
      simp only [State.outAppend_outMem, State.outAppend_outLen, h1, h2]
      exact ⟨Memory.write_ofBytes_end xs b, by simp⟩
    simpa using ih hb

/-! Produce -/

/-- The part of the state Produce writes, all set. -/
def State.outPart (w : Dict) (m : Memory) (n : Nat) (g : List Byte) (s : State) : State :=
  { s with dict := w, outMem := m, outLen := n, grp := g }

theorem State.outAppendAll_outPart (bs : List Byte) (s : State) :
    s.outAppendAll bs = s.outPart s.dict (s.outAppendAll bs).outMem (s.outLen + bs.length) s.grp :=
  State.outAppendAll_frame bs s

theorem State.flushGroup_outPart (s : State) :
    s.flushGroup = s.outPart s.dict (s.outAppendAll s.grp).outMem (s.outLen + s.grp.length) [] := by
  unfold State.flushGroup
  rw [State.outAppendAll_outPart]
  rfl

/-- Produce writes the dictionary, `OUT`, `OUT_LEN` and the group only, and pushes its byte. -/
theorem State.produce_frame (b : Byte) (s : State) :
    s.produce b = s.outPart (s.dict.push b) (s.produce b).outMem (s.produce b).outLen (s.produce b).grp := by
  unfold State.produce State.output
  split
  · rfl
  · split
    · rw [State.flushGroup_outPart]; rfl
    · rfl

@[simp] theorem State.produce_dict (b : Byte) (s : State) : (s.produce b).dict = s.dict.push b := by
  rw [State.produce_frame]; rfl
@[simp] theorem State.produce_inLen (b : Byte) (s : State) : (s.produce b).inLen = s.inLen := by
  rw [State.produce_frame]; rfl
@[simp] theorem State.produce_ip (b : Byte) (s : State) : (s.produce b).ip = s.ip := by
  rw [State.produce_frame]; rfl
@[simp] theorem State.produce_op (b : Byte) (s : State) : (s.produce b).op = s.op := by
  rw [State.produce_frame]; rfl
@[simp] theorem State.produce_cnt (b : Byte) (s : State) : (s.produce b).cnt = s.cnt := by
  rw [State.produce_frame]; rfl
@[simp] theorem State.produce_src (b : Byte) (s : State) : (s.produce b).src = s.src := by
  rw [State.produce_frame]; rfl
@[simp] theorem State.produce_cmd (b : Byte) (s : State) : (s.produce b).cmd = s.cmd := by
  rw [State.produce_frame]; rfl

/-- The registers the loops of RUN and CACHE keep, all set. -/
def State.loopRegs (ip : Nat) (cnt src : Byte) (s : State) : State := { s with ip := ip, cnt := cnt, src := src }

@[simp] theorem State.loopRegs_dict (i : Nat) (c r : Byte) (s : State) : (s.loopRegs i c r).dict = s.dict := rfl
@[simp] theorem State.loopRegs_inLen (i : Nat) (c r : Byte) (s : State) : (s.loopRegs i c r).inLen = s.inLen := rfl
@[simp] theorem State.loopRegs_ip (i : Nat) (c r : Byte) (s : State) : (s.loopRegs i c r).ip = i := rfl
@[simp] theorem State.loopRegs_cnt (i : Nat) (c r : Byte) (s : State) : (s.loopRegs i c r).cnt = c := rfl
@[simp] theorem State.loopRegs_src (i : Nat) (c r : Byte) (s : State) : (s.loopRegs i c r).src = r := rfl
@[simp] theorem State.loopRegs_cmd (i : Nat) (c r : Byte) (s : State) : (s.loopRegs i c r).cmd = s.cmd := rfl
@[simp] theorem State.loopRegs_loopRegs (i i' : Nat) (c c' r r' : Byte) (s : State) :
    (s.loopRegs i c r).loopRegs i' c' r' = s.loopRegs i' c' r' := rfl
@[simp] theorem State.loopRegs_self (s : State) : s.loopRegs s.ip s.cnt s.src = s := rfl
theorem State.advance_eq (s : State) : s.advance = s.loopRegs (s.ip + 1) s.cnt s.src := rfl
theorem State.countDown_eq (s : State) : s.countDown = s.loopRegs s.ip (s.cnt - 1#8) s.src := rfl
theorem State.nextSource_eq (s : State) : s.nextSource = s.loopRegs s.ip (s.cnt - 1#8) (s.src + 1#8) := rfl

/-- What `OutAppend` leaves in `OUT` depends on `OUT` and `OUT_LEN` only. -/
theorem State.outAppendAll_outMem_congr (bs : List Byte) {s t : State} (h : s.outMem = t.outMem)
    (k : s.outLen = t.outLen) : (s.outAppendAll bs).outMem = (t.outAppendAll bs).outMem := by
  induction bs generalizing s t with
  | nil => exact h
  | cons b bs ih => exact ih (by simp [h, k]) (by simp [k])

/-- Produce neither reads nor writes the registers the loops keep. -/
theorem State.produce_loopRegs (b : Byte) (s : State) (i : Nat) (c r : Byte) :
    (s.loopRegs i c r).produce b = (s.produce b).loopRegs i c r := by
  unfold State.produce State.output
  change (if s.nobuf then _ else _) = State.loopRegs i c r (if s.nobuf then _ else _)
  split
  · rfl
  · change (if (s.grp ++ [b]).length = Config.group then _ else _) =
      State.loopRegs i c r (if (s.grp ++ [b]).length = Config.group then _ else _)
    split
    · rw [State.flushGroup_outPart, State.flushGroup_outPart,
        State.outAppendAll_outMem_congr (s := ((s.loopRegs i c r).push b).holdInGroup b)
          (t := (s.push b).holdInGroup b) _ rfl rfl]
      rfl
    · rfl

theorem Delivered.refl {s : State} (h : s.grp.length < 4) : Delivered [] s s := by
  unfold Delivered
  split
  · exact ⟨Appended.refl s, rfl⟩
  · rw [List.append_nil, show s.grp.length / 4 = 0 by omega]
    exact ⟨Appended.refl s, rfl⟩

theorem Delivered.trans {xs ys : List Byte} {s t u : State} (hop : t.op = s.op) (h : Delivered xs s t)
    (k : Delivered ys t u) : Delivered (xs ++ ys) s u := by
  unfold Delivered at h k ⊢
  rw [hop] at k
  by_cases hb : s.op = 2#2
  · rw [if_pos hb] at h k ⊢
    exact ⟨h.1.trans k.1, k.2.trans h.2⟩
  · rw [if_neg hb] at h k ⊢
    obtain ⟨h1, h2⟩ := h
    obtain ⟨k1, k2⟩ := k
    rw [h2] at k1 k2
    generalize hp : s.grp ++ xs = p at h1 h2 k1 k2
    rw [← List.append_assoc, hp]
    have hq : 4 * (p.length / 4) ≤ p.length := Nat.mul_div_le _ _
    have hdrop : p.drop (4 * (p.length / 4)) ++ ys = (p ++ ys).drop (4 * (p.length / 4)) := by
      rw [List.drop_append_of_le_length hq]
    rw [hdrop] at k1 k2
    have hlen : 4 * (p.length / 4) + 4 * (((p ++ ys).drop (4 * (p.length / 4))).length / 4) =
        4 * ((p ++ ys).length / 4) := by
      simp only [List.length_drop, List.length_append]; omega
    constructor
    · have htake : p.take (4 * (p.length / 4)) = (p ++ ys).take (4 * (p.length / 4)) := by
        rw [List.take_append_of_le_length hq]
      rw [htake] at h1
      have := h1.trans k1
      rwa [← List.take_add, hlen] at this
    · rw [k2, List.drop_drop, hlen]

/-- Produce delivers its byte. -/
theorem Delivered.produce (b : Byte) {s : State} (h : s.grp.length < 4) : Delivered [b] s (s.produce b) := by
  unfold Delivered State.produce State.output
  change if s.op = 2#2 then Appended [b] s (if s.nobuf then _ else _) ∧ State.grp (if s.nobuf then _ else _) = _ else _
  by_cases hb : s.op = 2#2
  · have hn : s.nobuf = true := by simp [State.nobuf, hb]
    rw [if_pos hb, if_pos hn]
    exact ⟨(Appended.outAppend b (s.push b)).congr rfl rfl rfl rfl, rfl⟩
  · have hn : (s.push b).nobuf = false := by simp [State.nobuf, hb]
    rw [if_neg hb, hn]
    change Appended _ s (if (s.grp ++ [b]).length = 4 then _ else _) ∧
      State.grp (if (s.grp ++ [b]).length = 4 then _ else _) = _
    by_cases hf : (s.grp ++ [b]).length = 4
    · rw [if_pos hf, hf, List.take_of_length_le (by omega), List.drop_of_length_le (by omega)]
      exact ⟨(Appended.outAppendAll (s.grp ++ [b]) ((s.push b).holdInGroup b)).congr rfl rfl rfl rfl, rfl⟩
    · have : (s.grp ++ [b]).length / 4 = 0 := by simp only [List.length_append, List.length_singleton] at hf ⊢; omega
      rw [if_neg hf, this]
      exact ⟨(Appended.refl s).congr rfl rfl rfl rfl, rfl⟩

theorem Delivered.group_lt {bs : List Byte} {s t : State} (h : Delivered bs s t) (hs : s.grp.length < 4) :
    t.grp.length < 4 := by
  unfold Delivered at h
  split at h
  · rw [h.2]; exact hs
  · rw [h.2, List.length_drop]; omega

/-- Delivery is about the output only: registers may differ on either side. -/
theorem Delivered.congr {bs : List Byte} {s s' t t' : State} (h : Delivered bs s t) (hop : s'.op = s.op)
    (hg : s'.grp = s.grp) (hs : s'.outMem = s.outMem) (hs' : s'.outLen = s.outLen) (hg' : t'.grp = t.grp)
    (ht : t'.outMem = t.outMem) (ht' : t'.outLen = t.outLen) : Delivered bs s' t' := by
  unfold Delivered at h ⊢
  rw [hop, hg, hg']
  split at h
  · rename_i hb; rw [if_pos hb]; exact ⟨h.1.congr hs hs' ht ht', h.2⟩
  · rename_i hb; rw [if_neg hb]; exact ⟨h.1.congr hs hs' ht ht', h.2⟩

/-- Produce of several bytes, the first first. -/
def State.produceAll (bs : List Byte) (s : State) : State := bs.foldl (fun t b => t.produce b) s

@[simp] theorem State.produceAll_nil (s : State) : s.produceAll [] = s := rfl
@[simp] theorem State.produceAll_cons (b : Byte) (bs : List Byte) (s : State) :
    s.produceAll (b :: bs) = (s.produce b).produceAll bs := rfl

/-- Produce of several bytes writes the dictionary, `OUT`, `OUT_LEN` and the group only, and pushes them. -/
theorem State.produceAll_frame (bs : List Byte) (s : State) :
    s.produceAll bs = s.outPart (s.dict.pushAll bs) (s.produceAll bs).outMem (s.produceAll bs).outLen
      (s.produceAll bs).grp := by
  induction bs generalizing s with
  | nil => rfl
  | cons b bs ih =>
    have h : ∀ w m n g, (s.produce b).outPart w m n g = s.outPart w m n g := fun w m n g => by
      rw [State.produce_frame]; rfl
    rw [State.produceAll_cons, ih, h, State.produce_dict]
    rfl

/-- Produce of several bytes delivers them. -/
theorem Delivered.produceAll (bs : List Byte) {s : State} (h : s.grp.length < 4) :
    Delivered bs s (s.produceAll bs) := by
  induction bs generalizing s with
  | nil => exact Delivered.refl h
  | cons b bs ih =>
    have hb := Delivered.produce b h
    exact hb.trans (State.produce_op b s) (ih (hb.group_lt h))

theorem State.produceAll_loopRegs (bs : List Byte) (s : State) (i : Nat) (c r : Byte) :
    (s.loopRegs i c r).produceAll bs = (s.produceAll bs).loopRegs i c r := by
  induction bs generalizing s with
  | nil => rfl
  | cons b bs ih => rw [State.produceAll_cons, State.produce_loopRegs, ih, State.produceAll_cons]

@[simp] theorem State.produceAll_ip (bs : List Byte) (s : State) : (s.produceAll bs).ip = s.ip := by
  rw [State.produceAll_frame]; rfl
@[simp] theorem State.produceAll_cnt (bs : List Byte) (s : State) : (s.produceAll bs).cnt = s.cnt := by
  rw [State.produceAll_frame]; rfl
@[simp] theorem State.produceAll_src (bs : List Byte) (s : State) : (s.produceAll bs).src = s.src := by
  rw [State.produceAll_frame]; rfl
@[simp] theorem State.produceAll_dict (bs : List Byte) (s : State) :
    (s.produceAll bs).dict = s.dict.pushAll bs := by
  rw [State.produceAll_frame]; rfl

/-! The loops -/

theorem sub_ofNat_succ (c : Byte) (n : Nat) : c - 1#8 - BitVec.ofNat 8 n = c - BitVec.ofNat 8 (n + 1) := by
  rw [BitVec.ofNat_add]; bv_omega

theorem add_ofNat_succ (c : Byte) (n : Nat) : c + 1#8 + BitVec.ofNat 8 n = c + BitVec.ofNat 8 (n + 1) := by
  rw [BitVec.ofNat_add]; bv_omega

/-- The loop of RUN with every literal present: all are produced, `IP` passes them, `CNT` counts them off. -/
theorem State.runLits_present {lits : List Byte} {s : State} (h : s.ip + lits.length ≤ s.inLen) :
    s.runLits lits =
      (s.produceAll lits).loopRegs (s.ip + lits.length) (s.cnt - BitVec.ofNat 8 lits.length) s.src := by
  induction lits generalizing s with
  | nil => simp [State.runLits]
  | cons b bs ih =>
    simp only [List.length_cons] at h
    have hin : s.inputRemains = true := by simp [State.inputRemains]; omega
    rw [State.runLits, State.fetch, hin, if_pos rfl, State.advance_eq, State.produce_loopRegs, State.countDown_eq,
      State.loopRegs_loopRegs, ih (by simp; omega), State.produceAll_loopRegs, State.loopRegs_loopRegs]
    simp only [State.loopRegs_ip, State.loopRegs_cnt, State.loopRegs_src, sub_ofNat_succ, State.produceAll_cons,
      List.length_cons, Nat.add_assoc, Nat.add_comm 1]

/-- The loop of RUN with a literal missing: the ones that are present are produced, then TruncatedStream. -/
theorem State.runLits_missing {lits : List Byte} {s : State} (hip : s.ip ≤ s.inLen)
    (h : s.inLen < s.ip + lits.length) :
    s.runLits lits = (s.runLits (lits.take (s.inLen - s.ip))).raise .truncatedStream s.cmd := by
  induction lits generalizing s with
  | nil => simp at h; omega
  | cons b bs ih =>
    simp only [List.length_cons] at h
    by_cases hin : s.ip < s.inLen
    · obtain ⟨m, hm⟩ : ∃ m, s.inLen - s.ip = m + 1 := ⟨s.inLen - s.ip - 1, by omega⟩
      have hr : s.inputRemains = true := by simp [State.inputRemains, hin]
      rw [hm, List.take_succ_cons, State.runLits, State.runLits, State.fetch, State.fetch, hr, if_pos rfl, if_pos rfl,
        State.advance_eq, State.produce_loopRegs, State.countDown_eq, State.loopRegs_loopRegs,
        ih (by simp; omega) (by simp; omega)]
      simp only [State.loopRegs_inLen, State.loopRegs_ip, State.loopRegs_cmd, State.produce_inLen, State.produce_cmd]
      rw [show s.inLen - (s.ip + 1) = m by omega]
    · have hr : s.inputRemains = false := by simp [State.inputRemains, hin]
      rw [show s.inLen - s.ip = 0 by omega]
      simp [State.runLits, State.fetch, hr]

/-- The copy loop of CACHE where the whole copy plays back: the bytes are produced, `SRC` passes them, `CNT` counts them
off. -/
theorem State.copyLoop_playback {n : Nat} {s : State} {bs : List Byte} (h : s.dict.playback s.src n = some bs) :
    s.copyLoop n = (s.produceAll bs).loopRegs s.ip (s.cnt - BitVec.ofNat 8 n) (s.src + BitVec.ofNat 8 n) := by
  induction n generalizing s bs with
  | zero =>
    obtain rfl : bs = [] := by simpa [Dict.playback, eq_comm] using h
    simp [State.copyLoop]
  | succ n ih =>
    simp only [Dict.playback] at h
    cases hr : s.dict.read s.src with
    | none => simp [hr] at h
    | some b =>
      simp only [hr, Option.map_eq_some_iff] at h
      obtain ⟨a, ha, rfl⟩ := h
      simp only [State.copyLoop, hr]
      rw [State.nextSource_eq, ih (bs := a) (by simpa using ha), State.produceAll_loopRegs, State.loopRegs_loopRegs]
      simp only [State.loopRegs_ip, State.loopRegs_cnt, State.loopRegs_src, State.produce_cnt, State.produce_src,
        State.produce_ip, sub_ofNat_succ, add_ofNat_succ, State.produceAll_cons]

/-- The copy loop of CACHE that meets an `Empty` slot: the bytes before it are produced, then UndefinedDictionaryRead. -/
theorem State.copyLoop_undefined {n : Nat} {s : State} {bs : List Byte} (hb : s.dict.playable s.src n = bs)
    (h : s.dict.playback s.src n = none) :
    bs.length < n ∧
    s.copyLoop n = ((s.produceAll bs).loopRegs s.ip (s.cnt - BitVec.ofNat 8 bs.length)
      (s.src + BitVec.ofNat 8 bs.length)).raise .undefinedDictionaryRead (s.src + BitVec.ofNat 8 bs.length) := by
  induction n generalizing s bs with
  | zero => simp [Dict.playback] at h
  | succ n ih =>
    simp only [Dict.playback] at h
    cases hr : s.dict.read s.src with
    | none =>
      obtain rfl : bs = [] := by simpa [Dict.playable, hr, eq_comm] using hb
      simp [State.copyLoop, hr]
    | some b =>
      simp only [hr, Option.map_eq_none_iff] at h
      simp only [Dict.playable, hr] at hb
      subst hb
      have := ih (s := (s.produce b).nextSource) (bs := (s.dict.push b).playable (s.src + 1#8) n)
        (by rw [State.nextSource_eq]; simp)
        (by rw [State.nextSource_eq]; simpa using h)
      refine ⟨by simpa using this.1, ?_⟩
      simp only [State.copyLoop, hr]
      rw [this.2, State.nextSource_eq, State.produceAll_loopRegs, State.loopRegs_loopRegs]
      simp only [State.loopRegs_ip, State.loopRegs_cnt, State.loopRegs_src, State.produce_cnt, State.produce_src,
        State.produce_ip, sub_ofNat_succ, add_ofNat_succ, State.produceAll_cons, List.length_cons]

end Sys2Proof.Machine
end

