-- ==== Sys2Proof/Laws/Commands.lean ====
section
/-! SUPPORT. What END, RUN and CACHE do, once for each way they can go. -/

namespace Sys2Proof.Machine

/-! The fields of a command byte -/

theorem cacheLength_cacheByte : ∀ k : BitVec 7, cacheLength (cacheByte k) = BitVec.ofNat 8 (k.toNat + 3) := by decide

theorem cacheByte_toNat : ∀ k : BitVec 7, (cacheByte k).toNat = 128 + k.toNat := by decide

theorem cacheByte_setWidth : ∀ k : BitVec 7, (cacheByte k).setWidth 7 = k := by decide

theorem toNat_cacheLength (k : BitVec 7) : (cacheLength (cacheByte k)).toNat = k.toNat + 3 := by
  rw [cacheLength_cacheByte, BitVec.toNat_ofNat]
  have := k.isLt
  omega

theorem cacheCommandByte_eq {L : Nat} (h3 : 3 ≤ L) (h130 : L ≤ 130) :
    cacheCommandByte L = cacheByte (BitVec.ofNat 7 (L - 3)) := by
  unfold cacheCommandByte cacheByte
  congr 1
  apply BitVec.eq_of_toNat_eq
  simp only [Config.cacheBias, BitVec.toNat_ofNat, BitVec.toNat_setWidth]
  omega

/-! The head of a command -/

/-- The registers the head of the decoding loop writes (R180), `IP` apart. -/
def State.began (c : Byte) (s : State) : State := { s with fpc := s.ip, cmd := c }

@[simp] theorem State.began_dict (c : Byte) (s : State) : (s.began c).dict = s.dict := rfl
@[simp] theorem State.began_inLen (c : Byte) (s : State) : (s.began c).inLen = s.inLen := rfl
@[simp] theorem State.began_ip (c : Byte) (s : State) : (s.began c).ip = s.ip := rfl
@[simp] theorem State.began_cmd (c : Byte) (s : State) : (s.began c).cmd = c := rfl
@[simp] theorem State.began_grp (c : Byte) (s : State) : (s.began c).grp = s.grp := rfl
@[simp] theorem State.began_op (c : Byte) (s : State) : (s.began c).op = s.op := rfl
theorem State.setCount_loopRegs (i : Nat) (c c' r : Byte) (s : State) :
    (s.loopRegs i c r).setCount c' = s.loopRegs i c' r := rfl

theorem State.beginCommand_present {c : Byte} {s : State} (body : State → State) (h : s.ip < s.inLen) :
    s.beginCommand c body = body ((s.began c).loopRegs (s.ip + 1) s.cnt s.src) := by
  have hr : s.markStart.inputRemains = true := by simp [State.inputRemains, h]
  unfold State.beginCommand State.fetch
  rw [hr]
  rfl

theorem State.beginCommand_missing {c : Byte} {s : State} (body : State → State) (h : s.inLen ≤ s.ip) :
    s.beginCommand c body = s.markStart.raise .truncatedStream 0x00#8 := by
  have hr : s.markStart.inputRemains = false := decide_eq_false (show ¬ s.ip < s.inLen by omega)
  unfold State.beginCommand State.fetch
  rw [hr]
  rfl

/-! RUN -/

theorem execRun_present {lits : List Byte} {s : State} (h : s.ip + 1 + lits.length ≤ s.inLen) :
    execRun lits s = .next (((s.began (runByte lits.length)).produceAll lits).loopRegs
      (s.ip + 1 + lits.length) 0#8 s.src) := by
  unfold execRun
  rw [State.beginCommand_present _ (by omega)]
  simp only [State.setCount_loopRegs, State.loopRegs_cmd, State.began_cmd]
  rw [State.runLits_present (by simpa using h), State.produceAll_loopRegs]
  simp [runByte]

theorem execRun_truncated {lits : List Byte} {s : State} (h0 : s.ip < s.inLen)
    (h : s.inLen < s.ip + 1 + lits.length) :
    execRun lits s = .next ((((s.began (runByte lits.length)).produceAll (lits.take (s.inLen - s.ip - 1))).loopRegs
      s.inLen (BitVec.ofNat 8 (s.ip + 1 + lits.length - s.inLen)) s.src).raise .truncatedStream
        (runByte lits.length)) := by
  unfold execRun
  rw [State.beginCommand_present _ h0]
  simp only [State.setCount_loopRegs, State.loopRegs_cmd, State.began_cmd]
  rw [State.runLits_missing (by simpa using h0) (by simpa using h)]
  simp only [State.loopRegs_ip, State.loopRegs_cmd, State.loopRegs_inLen, State.began_inLen, State.began_cmd,
    show s.inLen - (s.ip + 1) = s.inLen - s.ip - 1 by omega]
  rw [State.runLits_present (by simp; omega), State.produceAll_loopRegs, State.loopRegs_loopRegs]
  simp only [State.loopRegs_ip, State.loopRegs_cnt, State.loopRegs_src, List.length_take]
  have h1 : min (s.inLen - s.ip - 1) lits.length = s.inLen - s.ip - 1 := by omega
  have h2 : s.ip + 1 + (s.inLen - s.ip - 1) = s.inLen := by omega
  have h3 : runByte lits.length - BitVec.ofNat 8 (s.inLen - s.ip - 1) =
      BitVec.ofNat 8 (s.ip + 1 + lits.length - s.inLen) := by
    have : lits.length = (s.ip + 1 + lits.length - s.inLen) + (s.inLen - s.ip - 1) := by omega
    conv_lhs => rw [this]
    rw [runByte, BitVec.ofNat_add, BitVec.add_sub_cancel]
  rw [h1, h2, h3]

theorem execRun_missing {lits : List Byte} {s : State} (h : s.inLen ≤ s.ip) :
    execRun lits s = .next (s.markStart.raise .truncatedStream 0x00#8) := by
  unfold execRun; rw [State.beginCommand_missing _ h]

/-! CACHE -/

/-- A CACHE whose command byte and offset byte are present is its copy loop. -/
theorem execCache_present {k : BitVec 7} {o : Byte} {s : State} (h : s.ip + 1 < s.inLen) :
    execCache k o s = .next (((s.began (cacheByte k)).loopRegs (s.ip + 2) (cacheLength (cacheByte k))
      (cacheSource s.dict.wc o)).copyLoop (k.toNat + 3)) := by
  unfold execCache
  rw [State.beginCommand_present _ (by omega)]
  simp only [State.setCount_loopRegs, State.loopRegs_cmd, State.began_cmd]
  have hr : ((s.began (cacheByte k)).loopRegs (s.ip + 1) (cacheLength (cacheByte k)) s.src).inputRemains = true := by
    simp [State.inputRemains, h]
  unfold State.fetch
  rw [hr, ← toNat_cacheLength k]
  rfl

/-- A CACHE whose copy plays back: the bytes are produced. -/
theorem execCache_playback {k : BitVec 7} {o : Byte} {s : State} {bs : List Byte} (h : s.ip + 1 < s.inLen)
    (hp : s.dict.playback (cacheSource s.dict.wc o) (k.toNat + 3) = some bs) :
    execCache k o s = .next (((s.began (cacheByte k)).produceAll bs).loopRegs (s.ip + 2) 0#8
      (cacheSource s.dict.wc o + BitVec.ofNat 8 (k.toNat + 3))) := by
  rw [execCache_present h, State.copyLoop_playback (bs := bs) (by exact hp), State.produceAll_loopRegs,
    State.loopRegs_loopRegs]
  simp [cacheLength_cacheByte]

/-- A CACHE whose copy meets an `Empty` slot: the bytes before it are produced, then UndefinedDictionaryRead. -/
theorem execCache_undefined {k : BitVec 7} {o : Byte} {s : State} {bs : List Byte} (h : s.ip + 1 < s.inLen)
    (hb : s.dict.playable (cacheSource s.dict.wc o) (k.toNat + 3) = bs)
    (hp : s.dict.playback (cacheSource s.dict.wc o) (k.toNat + 3) = none) :
    bs.length < k.toNat + 3 ∧
    execCache k o s = .next ((((s.began (cacheByte k)).produceAll bs).loopRegs (s.ip + 2)
      (BitVec.ofNat 8 (k.toNat + 3 - bs.length)) (cacheSource s.dict.wc o + BitVec.ofNat 8 bs.length)).raise
        .undefinedDictionaryRead (cacheSource s.dict.wc o + BitVec.ofNat 8 bs.length)) := by
  rw [execCache_present h]
  have := State.copyLoop_undefined (n := k.toNat + 3) (bs := bs)
    (s := (s.began (cacheByte k)).loopRegs (s.ip + 2) (cacheLength (cacheByte k)) (cacheSource s.dict.wc o)) hb hp
  refine ⟨this.1, ?_⟩
  rw [this.2, State.produceAll_loopRegs, State.loopRegs_loopRegs]
  simp only [State.loopRegs_ip, State.loopRegs_cnt, State.loopRegs_src, cacheLength_cacheByte]
  have e : BitVec.ofNat 8 (k.toNat + 3) - BitVec.ofNat 8 bs.length = BitVec.ofNat 8 (k.toNat + 3 - bs.length) := by
    have : k.toNat + 3 = (k.toNat + 3 - bs.length) + bs.length := by omega
    conv_lhs => rw [this]
    rw [BitVec.ofNat_add, BitVec.add_sub_cancel]
  rw [e]

/-- A CACHE whose offset byte is missing. -/
theorem execCache_truncated {k : BitVec 7} {o : Byte} {s : State} (h0 : s.ip < s.inLen) (h : s.inLen ≤ s.ip + 1) :
    execCache k o s = .next (((s.began (cacheByte k)).loopRegs (s.ip + 1) (BitVec.ofNat 8 (k.toNat + 3)) s.src).raise
      .truncatedStream (cacheByte k)) := by
  unfold execCache
  rw [State.beginCommand_present _ h0]
  simp only [State.setCount_loopRegs, State.loopRegs_cmd, State.began_cmd]
  have hr : ((s.began (cacheByte k)).loopRegs (s.ip + 1) (cacheLength (cacheByte k)) s.src).inputRemains = false := by
    exact decide_eq_false (show ¬ s.ip + 1 < s.inLen by omega)
  unfold State.fetch
  rw [hr, ← cacheLength_cacheByte]
  rfl

theorem execCache_missing {k : BitVec 7} {o : Byte} {s : State} (h : s.inLen ≤ s.ip) :
    execCache k o s = .next (s.markStart.raise .truncatedStream 0x00#8) := by
  unfold execCache; rw [State.beginCommand_missing _ h]

/-! END -/

theorem execEnd_present {s : State} (h : s.ip < s.inLen) :
    execEnd s = .next ((s.began 0x00#8).loopRegs (s.ip + 1) s.cnt s.src).discardPending.finish := by
  unfold execEnd; rw [State.beginCommand_present _ h]

theorem execEnd_missing {s : State} (h : s.inLen ≤ s.ip) :
    execEnd s = .next (s.markStart.raise .truncatedStream 0x00#8) := by
  unfold execEnd; rw [State.beginCommand_missing _ h]

/-- What END writes. -/
theorem State.discardPending_eq (s : State) :
    s.discardPending = if s.op ≠ 2#2 ∧ s.grp ≠ [] then
      { s with warn := true, dropped := BitVec.ofNat 2 s.grp.length, grp := [] } else s := by
  unfold State.discardPending State.nobuf
  by_cases h : s.op = 2#2 <;> simp [h]

end Sys2Proof.Machine
end

