-- ==== Sys2Proof/Laws/Encoder.lean ====
section
/-! SUPPORT. What a pass of COMPRESS does: DECIDE writes the search result only, a chunk covers the next input bytes with one
command that plays them back. -/

namespace Sys2Proof.Machine

/-- What no step of the encoder but the raising of its fault and the end of the operation writes. -/
structure EncoderKeeps (s t : State) : Prop where
  inMem : t.inMem = s.inMem
  inLen : t.inLen = s.inLen
  op : t.op = s.op
  phase : t.phase = s.phase
  status : t.status = s.status
  warn : t.warn = s.warn
  dropped : t.dropped = s.dropped
  finfo : t.finfo = s.finfo
  cmd : t.cmd = s.cmd
  cnt : t.cnt = s.cnt
  src : t.src = s.src
  grp : t.grp = s.grp
  readOut : t.readOut = s.readOut
  port : t.port = s.port
  host : t.host = s.host

theorem EncoderKeeps.refl (s : State) : EncoderKeeps s s :=
  ⟨rfl, rfl, rfl, rfl, rfl, rfl, rfl, rfl, rfl, rfl, rfl, rfl, rfl, rfl, rfl⟩

theorem EncoderKeeps.trans {s t u : State} (h : EncoderKeeps s t) (k : EncoderKeeps t u) : EncoderKeeps s u :=
  ⟨k.1.trans h.1, k.2.trans h.2, k.3.trans h.3, k.4.trans h.4, k.5.trans h.5, k.6.trans h.6, k.7.trans h.7,
    k.8.trans h.8, k.9.trans h.9, k.10.trans h.10, k.11.trans h.11, k.12.trans h.12, k.13.trans h.13,
    k.14.trans h.14, k.15.trans h.15⟩

theorem EncoderKeeps.find (seq : List Byte) (s : State) : EncoderKeeps s (s.find seq) := by
  constructor <;> rfl
theorem EncoderKeeps.push (b : Byte) (s : State) : EncoderKeeps s (s.push b) := by
  constructor <;> rfl
theorem EncoderKeeps.restoreFrom (w : Dict) (s : State) : EncoderKeeps s (s.restoreFrom w) := by
  constructor <;> rfl
theorem EncoderKeeps.outAppend (b : Byte) (s : State) : EncoderKeeps s (s.outAppend b) := by
  constructor <;> rfl
theorem EncoderKeeps.backOff (s : State) : EncoderKeeps s s.backOff := by
  constructor <;> rfl

theorem EncoderKeeps.outAppendAll (bs : List Byte) (s : State) : EncoderKeeps s (s.outAppendAll bs) := by
  rw [State.outAppendAll_outPart]; constructor <;> rfl

theorem EncoderKeeps.takeLiteral (b : Byte) (s : State) : EncoderKeeps s (s.takeLiteral b) := by
  constructor <;> rfl
theorem EncoderKeeps.growCandidate (b : Byte) (s : State) : EncoderKeeps s (s.growCandidate b) := by
  constructor <;> rfl
theorem EncoderKeeps.clearLiterals (s : State) : EncoderKeeps s s.clearLiterals := by constructor <;> rfl
theorem EncoderKeeps.clearCandidate (s : State) : EncoderKeeps s s.clearCandidate := by constructor <;> rfl
theorem EncoderKeeps.setMode (m : EncMode) (s : State) : EncoderKeeps s (s.setMode m) := by constructor <;> rfl
theorem EncoderKeeps.markStart (s : State) : EncoderKeeps s s.markStart := by constructor <;> rfl

theorem EncoderKeeps.inputIs {s t : State} (h : EncoderKeeps s t) (a : Nat) : t.inByte a = s.inByte a := by
  unfold State.inByte; rw [h.inLen, h.inMem]

/-! Slices of the input -/

/-- The input as a list: what every lemma below is stated over. -/
abbrev State.inputBytes (s : State) (S : List Byte) : Prop := s.inMem.holds s.inLen S

theorem EncoderKeeps.inputBytes {s t : State} {S : List Byte} (h : EncoderKeeps s t) (hS : s.inputBytes S) :
    t.inputBytes S := by
  unfold State.inputBytes; rw [h.inMem, h.inLen]; exact hS

/-- Bytes `a` to `a + n - 1` of a list. -/
def slice (S : List Byte) (a n : Nat) : List Byte := (S.drop a).take n

theorem length_slice {S : List Byte} {a n : Nat} (h : a + n ≤ S.length) : (slice S a n).length = n := by
  simp [slice]; omega

@[simp] theorem slice_zero (S : List Byte) (a : Nat) : slice S a 0 = [] := by simp [slice]

theorem slice_succ {S : List Byte} {a n : Nat} {b : Byte} (h : S[a + n]? = some b) :
    slice S a (n + 1) = slice S a n ++ [b] := by
  unfold slice
  rw [List.take_add_one, List.getElem?_drop, h]
  rfl

theorem slice_cons {S : List Byte} {a n : Nat} {b : Byte} (h : S[a]? = some b) :
    slice S a (n + 1) = b :: slice S (a + 1) n := by
  unfold slice
  obtain ⟨ha, rfl⟩ := List.getElem?_eq_some_iff.1 h
  rw [List.drop_eq_getElem_cons ha, List.take_succ_cons]

theorem slice_add (S : List Byte) (a m n : Nat) : slice S a (m + n) = slice S a m ++ slice S (a + m) n := by
  unfold slice; rw [List.take_add, List.drop_drop]

theorem take_add_slice (S : List Byte) (a n : Nat) : S.take a ++ slice S a n = S.take (a + n) := by
  unfold slice; rw [List.take_add]

theorem slice_dropLast {S : List Byte} {a n : Nat} (h : a + (n + 1) ≤ S.length) :
    (slice S a (n + 1)).dropLast = slice S a n := by
  obtain ⟨b, hb⟩ : ∃ b, S[a + n]? = some b := ⟨_, List.getElem?_eq_getElem (by omega)⟩
  rw [slice_succ hb, List.dropLast_concat]

/-! DECIDE -/

/-- DECIDE writes the search result and the shadow; nothing else. -/
theorem State.decideMode_frame (s : State) : ∃ f h, s.decideMode.2 = { s with fres := f, shadow := h } := by
  unfold State.decideMode
  split
  · exact ⟨_, _, rfl⟩
  · dsimp only
    split
    · exact ⟨_, _, rfl⟩
    · split
      · split
        · split <;> exact ⟨_, _, rfl⟩
        · exact ⟨_, _, rfl⟩
      · exact ⟨_, _, rfl⟩

/-- The same, field by field. -/
theorem State.decideMode_writes (s : State) :
    EncoderKeeps s s.decideMode.2 ∧ s.decideMode.2.dict = s.dict ∧ s.decideMode.2.ip = s.ip ∧
      s.decideMode.2.outMem = s.outMem ∧ s.decideMode.2.outLen = s.outLen ∧ s.decideMode.2.fpc = s.fpc ∧
      s.decideMode.2.mode = s.mode ∧ s.decideMode.2.lit = s.lit ∧ s.decideMode.2.cand = s.cand := by
  obtain ⟨f, h, e⟩ := s.decideMode_frame
  rw [e]
  exact ⟨by constructor <;> rfl, rfl, rfl, rfl, rfl, rfl, rfl, rfl, rfl⟩

/-- DECIDE is CACHE only where three bytes remain and the long probe is found. -/
theorem State.long_probe_of_cache {s : State} {S : List Byte} (hS : s.inputBytes S)
    (h : s.decideMode.1 = .cache) : s.ip + 3 ≤ S.length ∧ (s.dict.search (slice S s.ip 3)).isSome = true := by
  have hin := State.inByte_of_holds hS
  unfold State.decideMode at h
  split at h
  · simp at h
  · rename_i b0 h0
    simp only at h
    split at h
    · simp at h
    · split at h
      · split at h
        · rename_i b1 b2 h1 h2
          simp only [State.inByte_of_holds ((EncoderKeeps.find [b0] s).inputBytes hS), State.find_ip] at h1 h2
          rw [hin] at h0
          split at h
          · rename_i hf
            obtain ⟨hlt, -⟩ := List.getElem?_eq_some_iff.1 h2
            refine ⟨by omega, ?_⟩
            rw [slice_cons h0, slice_cons h1, slice_cons h2, slice_zero]
            simpa [State.found] using hf
          · simp at h
        · simp at h
      · simp at h

/-- With three bytes left, DECIDE is CACHE as soon as the long probe is found: the short probe never decides (R151). -/
theorem State.cache_of_long_probe {s : State} {S : List Byte} (hS : s.inputBytes S) (hlen : s.ip + 3 ≤ S.length)
    (h : (s.dict.search (slice S s.ip 3)).isSome = true) : s.decideMode.1 = .cache := by
  have hin := State.inByte_of_holds hS
  obtain ⟨b0, h0⟩ : ∃ b, S[s.ip]? = some b := ⟨_, List.getElem?_eq_getElem (by omega)⟩
  obtain ⟨b1, h1⟩ : ∃ b, S[s.ip + 1]? = some b := ⟨_, List.getElem?_eq_getElem (by omega)⟩
  obtain ⟨b2, h2⟩ : ∃ b, S[s.ip + 2]? = some b := ⟨_, List.getElem?_eq_getElem (by omega)⟩
  rw [slice_cons h0, slice_cons h1, slice_cons h2, slice_zero] at h
  have hshort : (s.dict.search [b0]).isSome = true := Dict.search_isSome_of_append (q := [b1, b2]) h
  have hfit : (s.find [b0]).probeFits = true := by
    simp only [State.probeFits, State.find_inLen, State.find_ip, hS.2, decide_eq_true_eq, Config.probeLen]; omega
  have hin' := State.inByte_of_holds ((EncoderKeeps.find [b0] s).inputBytes hS)
  unfold State.decideMode
  simp only [hin, h0, hin', State.find_ip, h1, h2, hfit]
  simp [State.found, hshort, h]

/-- DECIDE is CACHE exactly when three bytes remain and the long probe is found (R151). -/
theorem State.decideMode_cache_iff {s : State} {S : List Byte} (hS : s.inputBytes S) :
    s.decideMode.1 = .cache ↔ s.ip + 3 ≤ S.length ∧ (s.dict.search (slice S s.ip 3)).isSome = true :=
  ⟨State.long_probe_of_cache hS, fun h => State.cache_of_long_probe hS h.1 h.2⟩

/-- Where no byte remains DECIDE makes no probe. -/
theorem State.decideMode_at_end {s : State} {S : List Byte} (hS : s.inputBytes S) (hip : S.length ≤ s.ip) :
    s.decideMode = (.run, s) := by
  unfold State.decideMode
  rw [State.inByte_of_holds hS, List.getElem?_eq_none hip]

/-- Where a byte remains DECIDE leaves the result of its last probe, and no snapshot (R124, R151). -/
theorem State.decideMode_probed {s : State} {S : List Byte} (hS : s.inputBytes S) (hip : s.ip < S.length) :
    s.decideMode.2 = { s with
      fres :=
        if s.ip + 3 ≤ S.length ∧ (s.dict.search (slice S s.ip 1)).isSome = true then s.dict.search (slice S s.ip 3)
        else s.dict.search (slice S s.ip 1)
      shadow := none } := by
  obtain ⟨b0, h0⟩ : ∃ b, S[s.ip]? = some b := ⟨_, List.getElem?_eq_getElem hip⟩
  have hone : slice S s.ip 1 = [b0] := by rw [slice_cons h0, slice_zero]
  have hin' := State.inByte_of_holds ((EncoderKeeps.find [b0] s).inputBytes hS)
  have hfits : (s.find [b0]).probeFits = decide (s.ip + 3 ≤ S.length) := by
    simp only [State.probeFits, State.find_inLen, State.find_ip, hS.2, Config.probeLen, decide_eq_decide]; omega
  have hfound : (s.find [b0]).found = (s.dict.search [b0]).isSome := rfl
  unfold State.decideMode
  simp only [State.inByte_of_holds hS, h0, hone, hfits, hfound, hin', State.find_ip]
  by_cases hshort : (s.dict.search [b0]).isSome = true
  · by_cases hlen : s.ip + 3 ≤ S.length
    · obtain ⟨b1, h1⟩ : ∃ b, S[s.ip + 1]? = some b := ⟨_, List.getElem?_eq_getElem (by omega)⟩
      obtain ⟨b2, h2⟩ : ∃ b, S[s.ip + 2]? = some b := ⟨_, List.getElem?_eq_getElem (by omega)⟩
      have hthree : slice S s.ip 3 = [b0, b1, b2] := by
        rw [slice_cons h0, slice_cons h1, slice_cons h2, slice_zero]
      rw [hthree, if_neg (by simp [hshort]), if_pos (by simp [hlen]), h1, h2, if_pos ⟨hlen, hshort⟩]
      dsimp only
      split <;> rfl
    · rw [if_neg (by simp [hshort]), if_neg (by simp [hlen]), if_neg (fun h => hlen h.1)]; rfl
  · rw [if_pos (by simp [hshort]), if_neg (fun h => hshort h.2)]; rfl

/-! The RUN chunk -/

/-- The reading loop takes at least one byte and at most `n`: it consumes them, pushes them and collects them. -/
theorem State.runLoop_reads {n : Nat} {s : State} {S : List Byte} (hS : s.inputBytes S) (hip : s.ip < S.length)
    (hn : 0 < n) : ∃ m, 0 < m ∧ m ≤ n ∧ s.ip + m ≤ S.length ∧ EncoderKeeps s (s.runLoop n) ∧
      (s.runLoop n).ip = s.ip + m ∧ (s.runLoop n).dict = s.dict.pushAll (slice S s.ip m) ∧
      (s.runLoop n).lit = s.lit ++ slice S s.ip m ∧ (s.runLoop n).outMem = s.outMem ∧
      (s.runLoop n).outLen = s.outLen ∧ (s.runLoop n).fpc = s.fpc ∧ (s.runLoop n).mode = s.mode ∧
      (s.runLoop n).cand = s.cand := by
  induction n generalizing s with
  | zero => omega
  | succ n ih =>
    have hin := State.inByte_of_holds hS
    obtain ⟨b, hb⟩ : ∃ b, S[s.ip]? = some b := ⟨_, List.getElem?_eq_getElem hip⟩
    have hone : slice S s.ip 1 = [b] := by rw [slice_cons hb, slice_zero]
    have base : 0 < 1 ∧ 1 ≤ n + 1 ∧ s.ip + 1 ≤ S.length := ⟨by omega, by omega, by omega⟩
    rw [State.runLoop, hin, hb]
    simp only
    generalize hs2 : s.takeLiteral b = s2
    have k2 : EncoderKeeps s s2 := by subst hs2; exact EncoderKeeps.takeLiteral b s
    have hip2 : s2.ip = s.ip + 1 := by subst hs2; rfl
    have hdict2 : s2.dict = s.dict.pushAll (slice S s.ip 1) := by rw [hone]; subst hs2; rfl
    have hlit2 : s2.lit = s.lit ++ slice S s.ip 1 := by rw [hone]; subst hs2; rfl
    have hrest : s2.outMem = s.outMem ∧ s2.outLen = s.outLen ∧ s2.fpc = s.fpc ∧ s2.mode = s.mode ∧ s2.cand = s.cand := by
      subst hs2; exact ⟨rfl, rfl, rfl, rfl, rfl⟩
    obtain ⟨kd, hd1, hd2, hd3, hd4, hd5, hd6, hd7, hd8⟩ := s2.decideMode_writes
    split
    · exact ⟨1, base.1, base.2.1, base.2.2, k2, hip2, hdict2, hlit2, hrest⟩
    · split
      · exact ⟨1, base.1, base.2.1, base.2.2, k2, hip2, hdict2, hlit2, hrest⟩
      · rename_i _ hrem
        have hlt : s.ip + 1 < S.length := by
          have hr : s2.inputRemains = true := by simpa using hrem
          rw [State.inputRemains, decide_eq_true_eq, hip2, k2.inLen, hS.2] at hr
          exact hr
        split
        · exact ⟨1, base.1, base.2.1, base.2.2, k2.trans kd, hd2.trans hip2, hd1.trans hdict2, hd7.trans hlit2,
            hd3.trans hrest.1, hd4.trans hrest.2.1, hd5.trans hrest.2.2.1, hd6.trans hrest.2.2.2.1,
            hd8.trans hrest.2.2.2.2⟩
        · by_cases hn0 : n = 0
          · subst hn0
            exact ⟨1, base.1, base.2.1, base.2.2, k2.trans kd, hd2.trans hip2, hd1.trans hdict2, hd7.trans hlit2,
              hd3.trans hrest.1, hd4.trans hrest.2.1, hd5.trans hrest.2.2.1, hd6.trans hrest.2.2.2.1,
              hd8.trans hrest.2.2.2.2⟩
          · obtain ⟨m, hm0, hmn, hlen, km, hi, hdd, hl, r1, r2, r3, r4, r5⟩ :=
              ih (s := s2.decideMode.2) ((k2.trans kd).inputBytes hS) (by rw [hd2, hip2]; exact hlt) (by omega)
            rw [hd2, hip2] at hlen hi hdd hl
            refine ⟨1 + m, by omega, by omega, by omega, (k2.trans kd).trans km, by rw [hi]; omega, ?_, ?_,
              r1.trans (hd3.trans hrest.1), r2.trans (hd4.trans hrest.2.1), r3.trans (hd5.trans hrest.2.2.1),
              r4.trans (hd6.trans hrest.2.2.2.1), r5.trans (hd8.trans hrest.2.2.2.2)⟩
            · rw [hdd, hd1, hdict2, slice_add, Dict.pushAll_append]
            · rw [hl, hd7, hlit2, slice_add, List.append_assoc]

/-- What the reading loop writes. -/
theorem State.runLoop_frame (n : Nat) (s : State) : ∃ i w l f h,
    s.runLoop n = { s with ip := i, dict := w, lit := l, fres := f, shadow := h } := by
  induction n generalizing s with
  | zero => exact ⟨_, _, _, _, _, rfl⟩
  | succ n ih =>
    rw [State.runLoop]
    split
    · exact ⟨_, _, _, _, _, rfl⟩
    · rename_i b _
      obtain ⟨f, h, hd⟩ := (s.takeLiteral b).decideMode_frame
      dsimp only
      split
      · exact ⟨_, _, _, _, _, rfl⟩
      · split
        · exact ⟨_, _, _, _, _, rfl⟩
        · rw [hd]
          split
          · exact ⟨_, _, _, _, _, rfl⟩
          · obtain ⟨i, w, l, f', h', e⟩ := ih { s.takeLiteral b with fres := f, shadow := h }
            exact ⟨i, w, l, f', h', e⟩

/-- DECIDE is CACHE where `n` more literals of a RUN chunk that began at `s` have been consumed and pushed. -/
abbrev State.CacheAfter (S : List Byte) (s : State) (n : Nat) : Prop :=
  s.ip + n + 3 ≤ S.length ∧
    ((s.dict.pushAll (slice S s.ip n)).search (slice S (s.ip + n) 3)).isSome = true

/-- Where the reading loop stops: at the first byte at which the buffer is full, the input is exhausted or DECIDE is
CACHE (R152). -/
theorem State.runLoop_stops {n : Nat} {s : State} {S : List Byte} (hS : s.inputBytes S) (hip : s.ip < S.length)
    (hlit : s.lit.length + (n + 1) = 127) : ∃ m, (s.runLoop (n + 1)).ip = s.ip + m ∧ 0 < m ∧
      (m = n + 1 ∨ s.ip + m = S.length ∨ s.CacheAfter S m) ∧
      ∀ j, 0 < j → j < m → j ≠ n + 1 ∧ s.ip + j ≠ S.length ∧ ¬ s.CacheAfter S j := by
  induction n generalizing s with
  | zero =>
    obtain ⟨m, h0, h1, -, -, hi, -⟩ := State.runLoop_reads hS hip (n := 1) (by omega)
    exact ⟨m, hi, h0, .inl (by omega), fun j _ _ => by omega⟩
  | succ n ih =>
    obtain ⟨b, hb⟩ : ∃ b, S[s.ip]? = some b := ⟨_, List.getElem?_eq_getElem hip⟩
    have hone : slice S s.ip 1 = [b] := by rw [slice_cons hb, slice_zero]
    rw [State.runLoop, State.inByte_of_holds hS, hb]
    simp only
    have hS2 : (s.takeLiteral b).inputBytes S := (EncoderKeeps.takeLiteral b s).inputBytes hS
    have hfull : (s.takeLiteral b).litFull = false := by
      simp only [State.litFull, State.takeLiteral, List.length_append, List.length_singleton, Config.runMax,
        decide_eq_false_iff_not]
      omega
    have hrem : (s.takeLiteral b).inputRemains = decide (s.ip + 1 < S.length) := by
      simp only [State.inputRemains, State.takeLiteral]; rw [← hS.2]; rfl
    have hdec : (s.takeLiteral b).decideMode.1 = .cache ↔ s.CacheAfter S 1 := by
      rw [State.decideMode_cache_iff hS2, State.CacheAfter, hone]; rfl
    rw [hfull, hrem, if_neg (by simp)]
    by_cases hmore : s.ip + 1 < S.length
    · rw [if_neg (by simp [hmore])]
      by_cases hc : (s.takeLiteral b).decideMode.1 = .cache
      · rw [if_pos hc]
        exact ⟨1, (State.decideMode_writes _).2.2.1, Nat.one_pos, .inr (.inr (hdec.1 hc)), fun j _ _ => by omega⟩
      · rw [if_neg hc]
        obtain ⟨kd, hd1, hd2, -, -, -, -, hd7, -⟩ := (s.takeLiteral b).decideMode_writes
        have hip2 : (s.takeLiteral b).decideMode.2.ip = s.ip + 1 := hd2
        have hafter : ∀ j, (s.takeLiteral b).decideMode.2.CacheAfter S j ↔ s.CacheAfter S (1 + j) := fun j => by
          unfold State.CacheAfter
          rw [hip2, hd1, slice_add, hone, Dict.pushAll_append, ← Nat.add_assoc s.ip 1 j]; rfl
        obtain ⟨m, hi, hm0, hend, hfirst⟩ := ih (s := (s.takeLiteral b).decideMode.2) (kd.inputBytes hS2)
          (by rw [hip2]; exact hmore)
          (by rw [hd7]; simp only [State.takeLiteral, List.length_append, List.length_singleton]; omega)
        rw [hip2] at hi hend
        refine ⟨1 + m, by rw [hi]; omega, by omega, ?_, fun j hj hjm => ?_⟩
        · rcases hend with h | h | h
          · exact .inl (by omega)
          · exact .inr (.inl (by omega))
          · exact .inr (.inr ((hafter m).1 h))
        · obtain rfl | hj1 : j = 1 ∨ 1 < j := by omega
          · exact ⟨by omega, by omega, fun h => hc (hdec.2 h)⟩
          · obtain ⟨h1, h2, h3⟩ := hfirst (j - 1) (by omega) (by omega)
            rw [hip2] at h2
            refine ⟨by omega, by omega, fun h => h3 ((hafter (j - 1)).2 ?_)⟩
            rw [show 1 + (j - 1) = j by omega]; exact h
    · rw [if_pos (by simp [hmore])]
      exact ⟨1, rfl, Nat.one_pos, .inr (.inl (by omega)), fun j _ _ => by omega⟩

/-- A chunk of the encoder, between `s` and `t`: the next input bytes `xs` are consumed and pushed, and `OUT` receives the
one command `c`, which plays them back from the dictionary the chunk began with. -/
structure Chunk (S : List Byte) (s t : State) (c : Command) (xs : List Byte) : Prop where
  keeps : EncoderKeeps s t
  covers : xs = slice S s.ip xs.length
  nonempty : 0 < xs.length
  fits : s.ip + xs.length ≤ S.length
  isChunk : c.isChunk = true
  plays : s.dict.plays c = some xs
  ip : t.ip = s.ip + xs.length
  dict : t.dict = s.dict.pushAll xs
  outMem : t.outMem = (s.outAppendAll c.bytes).outMem
  outLen : t.outLen = s.outLen + c.bytes.length
  fpc : t.fpc = s.fpc
  mode : t.mode = s.mode
  lit : t.lit.length ≤ 127 ∨ t.lit = s.lit
  cand : t.cand.length ≤ 130 ∨ t.cand = s.cand

/-- RunChunk covers 1 to 127 bytes with one RUN (R152). -/
theorem State.runChunk_chunk {s : State} {S : List Byte} (hS : s.inputBytes S) (hip : s.ip < S.length) :
    ∃ xs, Chunk S s s.runChunk (.run xs) xs ∧ xs.length ≤ 127 := by
  obtain ⟨m, hm0, hm, hlen, km, hi, hd, hl, ho, hol, hf, hmo, hc⟩ :=
    State.runLoop_reads (s := s.clearLiterals) (n := 127) (S := S) hS hip (by omega)
  have k0 := EncoderKeeps.clearLiterals s
  unfold State.runChunk
  generalize ht : State.runLoop Config.runMax s.clearLiterals = t at *
  simp only [State.clearLiterals_lit, State.clearLiterals_ip, State.clearLiterals_dict, List.nil_append] at hl hd hi hlen
  have hxl : (slice S s.ip m).length = m := length_slice hlen
  have hout : (t.outAppend (runByte t.lit.length)).outAppendAll t.lit =
      t.outAppendAll (Command.bytes (.run (slice S s.ip m))) := by
    rw [hl]; rfl
  simp only [hout]
  have hfr := State.outAppendAll_outPart (Command.bytes (.run (slice S s.ip m))) t
  refine ⟨slice S s.ip m, ⟨(k0.trans km).trans (EncoderKeeps.outAppendAll _ _), by rw [hxl], by omega, by omega, ?_, rfl,
    ?_, ?_, State.outAppendAll_outMem_congr _ ho hol, ?_, ?_, ?_, ?_, ?_⟩, by omega⟩
  · simp [Command.isChunk, hxl]; omega
  · rw [hfr, hxl]; exact hi
  · rw [hfr]; exact hd
  · rw [hfr]; show t.outLen + _ = _; rw [hol]; rfl
  · rw [hfr]; exact hf
  · rw [hfr]; exact hmo
  · rw [hfr]; left; show t.lit.length ≤ 127; rw [hl, hxl]; exact hm
  · rw [hfr]; right; exact hc

/-- What RunChunk writes. -/
theorem State.runChunk_frame (s : State) : ∃ i w l f h m n,
    s.runChunk = { s with ip := i, dict := w, lit := l, fres := f, shadow := h, outMem := m, outLen := n } := by
  obtain ⟨i, w, l, f, h, e⟩ := State.runLoop_frame Config.runMax s.clearLiterals
  unfold State.runChunk
  rw [e, State.outAppendAll_outPart]
  exact ⟨_, _, _, _, _, _, _, rfl⟩

/-- RunChunk collects the next input bytes up to the first at which an end test is met (R152). -/
theorem State.runChunk_ends {s : State} {S : List Byte} (hS : s.inputBytes S) (hip : s.ip < S.length) :
    ∃ xs, Chunk S s s.runChunk (.run xs) xs ∧ s.runChunk.lit = xs ∧
      (xs.length = 127 ∨ s.ip + xs.length = S.length ∨ s.CacheAfter S xs.length) ∧
      ∀ j, 0 < j → j < xs.length → j ≠ 127 ∧ s.ip + j ≠ S.length ∧ ¬ s.CacheAfter S j := by
  obtain ⟨xs, hc, -⟩ := State.runChunk_chunk hS hip
  obtain ⟨m, hi, -, hend, hfirst⟩ := State.runLoop_stops (n := 126) (s := s.clearLiterals) hS hip rfl
  obtain ⟨m', -, -, hfit, -, hi', -, hl, -⟩ :=
    State.runLoop_reads (n := 127) (s := s.clearLiterals) hS hip (by omega)
  have hout : s.runChunk.ip = (State.runLoop 127 s.clearLiterals).ip ∧
      s.runChunk.lit = (State.runLoop 127 s.clearLiterals).lit := by
    unfold State.runChunk; rw [State.outAppendAll_outPart]; exact ⟨rfl, rfl⟩
  have hm : m = xs.length := by
    have := hc.ip
    rw [hout.1, hi, State.clearLiterals_ip] at this; omega
  have hm' : m' = m := by rw [hi] at hi'; omega
  subst hm' hm
  refine ⟨xs, hc, ?_, hend, hfirst⟩
  rw [hout.2, hl, State.clearLiterals_lit, State.clearLiterals_ip, List.nil_append]
  exact hc.covers.symm

/-! The CACHE chunk -/

/-- What the growth loop writes. -/
theorem State.growLoop_frame (n : Nat) (s : State) : ∃ i c f h,
    (s.growLoop n).2 = { s with ip := i, cand := c, fres := f, shadow := h } := by
  induction n generalizing s with
  | zero => exact ⟨_, _, _, _, rfl⟩
  | succ n ih =>
    rw [State.growLoop]
    split
    · split
      · exact ⟨_, _, _, _, rfl⟩
      · rename_i b _
        dsimp only
        split
        · obtain ⟨i, c, f, h, e⟩ := ih ((s.growCandidate b).find (s.growCandidate b).cand)
          exact ⟨i, c, f, h, e⟩
        · exact ⟨_, _, _, _, rfl⟩
    · exact ⟨_, _, _, _, rfl⟩

/-- The growth loop: the candidate stays the input from where it began, and only the last search can have failed. -/
theorem State.growLoop_grows {n : Nat} {s : State} {S : List Byte} {a m : Nat} (hS : s.inputBytes S)
    (hip : s.ip = a + m) (hle : a + m ≤ S.length) (hc : s.cand = slice S a m) (hm : m ≤ 130)
    (hf : (s.dict.search (slice S a m)).isSome = true) (hn : 130 < m + n) :
    ∃ m', m ≤ m' ∧ m' ≤ 130 ∧ a + m' ≤ S.length ∧ EncoderKeeps s (s.growLoop n).2 ∧ (s.growLoop n).2.ip = a + m' ∧
      (s.growLoop n).2.cand = slice S a m' ∧ (s.growLoop n).2.dict = s.dict ∧
      (s.growLoop n).2.outMem = s.outMem ∧ (s.growLoop n).2.outLen = s.outLen ∧ (s.growLoop n).2.fpc = s.fpc ∧
      (s.growLoop n).2.mode = s.mode ∧ (s.growLoop n).2.lit = s.lit ∧
      (((s.growLoop n).1 = true ∧ (s.dict.search (slice S a m')).isSome = true ∧ (m' = 130 ∨ a + m' = S.length)) ∨
        ((s.growLoop n).1 = false ∧ m < m' ∧ (s.dict.search (slice S a (m' - 1))).isSome = true ∧
          s.dict.search (slice S a m') = none)) := by
  induction n generalizing s m with
  | zero => omega
  | succ n ih =>
    have hin := State.inByte_of_holds hS
    have hcl : s.cand.length = m := by rw [hc, length_slice hle]
    rw [State.growLoop]
    by_cases hgo : m < 130 ∧ a + m < S.length
    · have hroom : (s.candRoom && s.inputRemains) = true := by
        simp [State.candRoom, State.inputRemains, hcl, hip, hS.2, hgo]
      obtain ⟨b, hb⟩ : ∃ b, S[a + m]? = some b := ⟨_, List.getElem?_eq_getElem hgo.2⟩
      rw [hroom, if_pos rfl, hin, hip, hb]
      simp only
      generalize hs1 : s.growCandidate b = s1
      have k1 : EncoderKeeps s s1 := by subst hs1; exact EncoderKeeps.growCandidate b s
      have hc1 : s1.cand = slice S a (m + 1) := by rw [slice_succ hb, ← hc]; subst hs1; rfl
      have hrest : s1.dict = s.dict ∧ s1.ip = a + (m + 1) ∧ s1.outMem = s.outMem ∧ s1.outLen = s.outLen ∧
          s1.fpc = s.fpc ∧ s1.mode = s.mode ∧ s1.lit = s.lit := by
        subst hs1; exact ⟨rfl, by simp [hip, Nat.add_assoc], rfl, rfl, rfl, rfl, rfl⟩
      obtain ⟨hd1, hi1, ho1, hol1, hf1, hm1, hl1⟩ := hrest
      rw [hc1]
      have kf := k1.trans (EncoderKeeps.find (slice S a (m + 1)) s1)
      by_cases hfound : (s1.dict.search (slice S a (m + 1))).isSome = true
      · have : (s1.find (slice S a (m + 1))).found = true := by simpa [State.found] using hfound
        rw [this, if_pos rfl]
        obtain ⟨m', h1, h2, h3, h4, h5, h6, h7, h8, h9, h10, h11, h12, h13⟩ :=
          ih (s := s1.find (slice S a (m + 1))) (m := m + 1) (kf.inputBytes hS) hi1 (by omega) hc1 (by omega)
            (by simpa using hfound) (by omega)
        simp only [State.find_dict, State.find_outMem, State.find_outLen, State.find_fpc, State.find_mode,
          State.find_lit, hd1] at h7 h8 h9 h10 h11 h12 h13
        refine ⟨m', by omega, h2, h3, kf.trans h4, h5, h6, h7, h8.trans ho1, h9.trans hol1, h10.trans hf1,
          h11.trans hm1, h12.trans hl1, ?_⟩
        rcases h13 with h | ⟨h, hlt, h'⟩
        · exact .inl h
        · exact .inr ⟨h, by omega, h'⟩
      · have : (s1.find (slice S a (m + 1))).found = false := by simpa [State.found] using hfound
        rw [this]
        refine ⟨m + 1, by omega, by omega, by omega, kf, hi1, hc1, hd1, ho1, hol1, hf1, hm1, hl1, .inr ⟨rfl, by omega, ?_, ?_⟩⟩
        · simpa using hf
        · rw [hd1] at hfound; simpa using hfound
    · have hroom : (s.candRoom && s.inputRemains) = false := by
        simp only [State.candRoom, State.inputRemains, hcl, hip, hS.2, Bool.and_eq_false_iff, decide_eq_false_iff_not]
        simp only [Config.cacheMax]
        omega
      rw [hroom]
      exact ⟨m, le_rfl, hm, hle, EncoderKeeps.refl s, hip, hc, rfl, rfl, rfl, rfl, rfl, rfl, .inl ⟨rfl, hf, by omega⟩⟩

theorem State.pushAll_frame (bs : List Byte) (s : State) : s.pushAll bs = s.restoreFrom (s.dict.pushAll bs) := by
  induction bs generalizing s with
  | nil => rfl
  | cons b bs ih => exact ih (s.push b)

/-- The offset byte of a match is the one whose source is the match (R95). -/
theorem cacheSource_offsetByte (wc idx : Byte) : cacheSource wc (offsetByte wc idx) = idx := by
  unfold cacheSource offsetByte; bv_omega

/-- The end of the CACHE chunk with the candidate found: one CACHE command that plays the candidate back. -/
theorem State.emitCache_found {s : State} {xs : List Byte} (hc : s.cand = xs) (h3 : 3 ≤ xs.length)
    (h130 : xs.length ≤ 130) {idx : Byte} (hf : s.dict.search xs = some idx) :
    ∃ k o, s.dict.plays (.cache k o) = some xs ∧ k.toNat + 3 = xs.length ∧ cacheSource s.dict.wc o = idx ∧
      s.emitCache = ((s.find xs).outAppendAll (Command.bytes (.cache k o))).restoreFrom (s.dict.pushAll xs) := by
  have hk : (BitVec.ofNat 7 (xs.length - 3)).toNat + 3 = xs.length := by
    rw [BitVec.toNat_ofNat]; omega
  refine ⟨BitVec.ofNat 7 (xs.length - 3), offsetByte s.dict.wc idx, ?_, hk, cacheSource_offsetByte _ _, ?_⟩
  · rw [Dict.plays, cacheSource_offsetByte, hk]
    exact Dict.playback_of_search hf
  · unfold State.emitCache
    rw [hc]
    simp only [State.find_fres, hf]
    rw [State.pushAll_frame]
    simp only [State.outAppend_cand, State.outAppend_dict, State.find_cand, State.find_dict, hc,
      cacheCommandByte_eq h3 h130]
    rfl

/-- CacheChunk covers 3 to 130 bytes with one CACHE, the longest match there is (R153, R156). -/
theorem State.cacheChunk_chunk {s : State} {S : List Byte} (hS : s.inputBytes S) (hlen : s.ip + 3 ≤ S.length)
    (hf : (s.dict.search (slice S s.ip 3)).isSome = true) :
    ∃ k o xs, Chunk S s s.cacheChunk (.cache k o) xs ∧ 3 ≤ xs.length ∧ xs.length ≤ 130 ∧ k.toNat + 3 = xs.length ∧
      s.dict.search xs = some (cacheSource s.dict.wc o) ∧
      (xs.length = 130 ∨ s.ip + xs.length = S.length ∨ s.dict.search (slice S s.ip (xs.length + 1)) = none) ∧
      s.cacheChunk.cand = xs ∧ s.cacheChunk.fres = s.dict.search xs ∧ s.cacheChunk.shadow = none ∧
      ∃ i w c f h p q, s.cacheChunk =
        { s with ip := i, dict := w, cand := c, fres := f, shadow := h, outMem := p, outLen := q } := by
  have hin := State.inByte_of_holds hS
  obtain ⟨b, hb⟩ : ∃ b, S[s.ip]? = some b := ⟨_, List.getElem?_eq_getElem (by omega)⟩
  have hone : slice S s.ip 1 = [b] := by rw [slice_cons hb, slice_zero]
  have hpre : ∀ m, m ≤ 3 → (s.dict.search (slice S s.ip m)).isSome = true := fun m hm => by
    have h3 : slice S s.ip 3 = slice S s.ip m ++ slice S (s.ip + m) (3 - m) := by
      rw [← slice_add, Nat.add_sub_cancel' hm]
    rw [h3] at hf
    exact Dict.search_isSome_of_append hf
  unfold State.cacheChunk
  rw [hin, hb]
  simp only
  obtain ⟨m', h1, h2, h3, hk, hi, hc, hd, ho, hol, hfp, hmo, hl, hend⟩ :=
    State.growLoop_grows (s := s.clearCandidate.growCandidate b) (n := 130) (S := S) (a := s.ip) (m := 1) hS rfl
      (by omega) hone.symm (by omega) (hpre 1 (by omega)) (by omega)
  have k0 := (EncoderKeeps.clearCandidate s).trans (EncoderKeeps.growCandidate b _)
  have hgf := State.growLoop_frame Config.cacheMax (s.clearCandidate.growCandidate b)
  generalize hg : State.growLoop Config.cacheMax (s.clearCandidate.growCandidate b) = g at *
  simp only [State.growCandidate_dict, State.clearCandidate_dict] at hd hend
  -- the state the command is emitted from: the candidate is the longest one found
  obtain ⟨u, m, hu, ku, hui, huc, hud, huo, huol, huf, hum, hul, hmlen, hm3, hm130, hms, hmax⟩ :
      ∃ u m, (if g.1 then g.2 else g.2.backOff) = u ∧ EncoderKeeps s u ∧ u.ip = s.ip + m ∧ u.cand = slice S s.ip m ∧
        u.dict = s.dict ∧ u.outMem = s.outMem ∧ u.outLen = s.outLen ∧ u.fpc = s.fpc ∧ u.mode = s.mode ∧
        u.lit = s.lit ∧ s.ip + m ≤ S.length ∧ 3 ≤ m ∧ m ≤ 130 ∧ (s.dict.search (slice S s.ip m)).isSome = true ∧
        (m = 130 ∨ s.ip + m = S.length ∨ s.dict.search (slice S s.ip (m + 1)) = none) := by
    rcases hend with ⟨hg1, hs, hm⟩ | ⟨hg1, hlt, hs, hnone⟩
    · refine ⟨g.2, m', by rw [hg1]; rfl, k0.trans hk, hi, hc, hd, ho, hol, hfp, hmo, hl, h3, by omega, h2, hs, ?_⟩
      omega
    · have hm4 : 4 ≤ m' := by
        by_contra hcon
        have := hpre m' (by omega)
        rw [hnone] at this
        simp at this
      refine ⟨g.2.backOff, m' - 1, by rw [hg1]; rfl, (k0.trans hk).trans (EncoderKeeps.backOff _), ?_, ?_, hd, ho, hol, hfp, hmo, hl,
        by omega, by omega, by omega, hs, .inr (.inr ?_)⟩
      · rw [State.backOff_ip, hi]; omega
      · rw [State.backOff_cand, hc, show m' = m' - 1 + 1 by omega, slice_dropLast (by omega)]; rfl
      · rw [show m' - 1 + 1 = m' by omega]; exact hnone
  have huf' : ∃ i c f h, u = { s with ip := i, cand := c, fres := f, shadow := h } := by
    obtain ⟨i, c, f, h, e⟩ := hgf
    rw [← hu, State.backOff, e]
    split <;> exact ⟨_, _, _, _, rfl⟩
  rw [hu]
  have hxl : (slice S s.ip m).length = m := length_slice hmlen
  obtain ⟨idx, hidx⟩ := Option.isSome_iff_exists.1 hms
  obtain ⟨k, o, hplays, hkl, hsrc, hemit⟩ :=
    State.emitCache_found huc (by omega) (by omega) (by rw [hud]; exact hidx)
  rw [hud] at hplays hsrc
  rw [hemit]
  refine ⟨k, o, slice S s.ip m, ⟨?_, by rw [hxl], by omega, by omega, rfl, hplays, ?_, ?_, ?_, ?_, ?_, ?_, ?_, ?_⟩,
    by omega, by omega, hkl, by rw [hsrc]; exact hidx, ?_⟩
  · exact (ku.trans (EncoderKeeps.find _ _)).trans
      ((EncoderKeeps.outAppendAll (Command.bytes (.cache k o)) (u.find (slice S s.ip m))).trans (EncoderKeeps.restoreFrom _ _))
  · rw [hxl]; show (State.outAppendAll _ _).ip = _; rw [State.outAppendAll_outPart]; exact hui
  · rw [← hud]; rfl
  · exact State.outAppendAll_outMem_congr _ huo huol
  · show (State.outAppendAll _ _).outLen = _; rw [State.outAppendAll_outPart]; show u.outLen + _ = _; rw [huol]
  · show (State.outAppendAll _ _).fpc = _; rw [State.outAppendAll_outPart]; exact huf
  · show (State.outAppendAll _ _).mode = _; rw [State.outAppendAll_outPart]; exact hum
  · right; show (State.outAppendAll _ _).lit = _; rw [State.outAppendAll_outPart]; exact hul
  · left; show (State.outAppendAll _ _).cand.length ≤ _; rw [State.outAppendAll_outPart]
    show u.cand.length ≤ _; rw [huc, hxl]; exact hm130
  · rw [State.outAppendAll_outPart]
    obtain ⟨i, c, f, h, e⟩ := huf'
    refine ⟨by rw [hxl]; exact hmax, huc, by rw [← hud]; rfl, rfl, ?_⟩
    rw [e]
    exact ⟨_, _, _, _, _, _, _, rfl⟩

/-- A chunk may be seen from any state that agrees with the one it began at. -/
theorem Chunk.of_start {S : List Byte} {s s' t : State} {c : Command} {xs : List Byte} (h : Chunk S s t c xs)
    (k : EncoderKeeps s' s) (hip : s.ip = s'.ip) (hd : s.dict = s'.dict) (ho : s.outMem = s'.outMem)
    (hol : s.outLen = s'.outLen) (hf : s.fpc = s'.fpc) (hm : s.mode = s'.mode) (hl : s.lit = s'.lit)
    (hc : s.cand = s'.cand) : Chunk S s' t c xs :=
  ⟨k.trans h.keeps, hip ▸ h.covers, h.nonempty, hip ▸ h.fits, h.isChunk, hd ▸ h.plays, hip ▸ h.ip, hd ▸ h.dict,
    h.outMem.trans (State.outAppendAll_outMem_congr _ ho hol), hol ▸ h.outLen, hf ▸ h.fpc, hm ▸ h.mode, hl ▸ h.lit,
    hc ▸ h.cand⟩

/-- A pass of COMPRESS with input left covers the next bytes with one command, CACHE exactly where DECIDE says so
(R150). -/
theorem State.compressPass_chunk {s : State} {S : List Byte} (hS : s.inputBytes S) (hip : s.ip < S.length) :
    ∃ c xs, Chunk S (s.markStart.setMode s.markStart.decideMode.1) s.compressPass c xs := by
  have hrem : s.inputRemains = true := by simp [State.inputRemains, hS.2, hip]
  have hS0 : s.markStart.inputBytes S := hS
  obtain ⟨kd, hd1, hd2, hd3, hd4, hd5, hd6, hd7, hd8⟩ := s.markStart.decideMode_writes
  have hp : s.compressPass = (match s.markStart.decideMode.1 with
      | .cache => (s.markStart.decideMode.2.setMode .cache).cacheChunk
      | .run => (s.markStart.decideMode.2.setMode .run).runChunk) := by
    unfold State.compressPass; rw [hrem]; rfl
  have keeps : ∀ m, EncoderKeeps (s.markStart.setMode m) (s.markStart.decideMode.2.setMode m) := fun m =>
    ⟨kd.1, kd.2, kd.3, kd.4, kd.5, kd.6, kd.7, kd.8, kd.9, kd.10, kd.11, kd.12, kd.13, kd.14, kd.15⟩
  have hS1 : ∀ m, (s.markStart.decideMode.2.setMode m).inputBytes S := fun m => kd.inputBytes hS0
  rw [hp]
  cases hm : s.markStart.decideMode.1 with
  | cache =>
    obtain ⟨hl, hl'⟩ := State.long_probe_of_cache hS0 hm
    obtain ⟨k, o, xs, hc, -⟩ := State.cacheChunk_chunk (s := s.markStart.decideMode.2.setMode .cache) (hS1 _)
      (by simpa [hd2] using hl) (by simpa [hd1, hd2] using hl')
    exact ⟨_, _, hc.of_start (keeps _) hd2 hd1 hd3 hd4 hd5 rfl hd7 hd8⟩
  | run =>
    obtain ⟨xs, hc, -⟩ := State.runChunk_chunk (s := s.markStart.decideMode.2.setMode .run) (hS1 _)
      (by simpa [hd2] using hip)
    exact ⟨_, _, hc.of_start (keeps _) hd2 hd1 hd3 hd4 hd5 rfl hd7 hd8⟩

/-- A pass of COMPRESS at the end of the input emits the terminator and is done (R154). -/
theorem State.compressPass_end {s : State} (h : s.inLen ≤ s.ip) :
    s.compressPass = (s.outAppend 0x00#8).finish := by
  have : s.inputRemains = false := by simpa [State.inputRemains] using h
  unfold State.compressPass
  rw [this]
  rfl

end Sys2Proof.Machine
end

