-- ==== Sys2Proof/Laws/Decode.lean ====
section
/-! SUPPORT. The laws of the stream decoder: what it reads from the bytes of a command, and what the bytes were, given what
it read. -/

namespace Sys2Proof

theorem runByte_toNat {n : Nat} (h : n ≤ 127) : (runByte n).toNat = n := by
  rw [runByte, BitVec.toNat_ofNat]; omega

theorem cacheByte_ne_zero : ∀ k : BitVec 7, cacheByte k ≠ 0#8 := by decide

theorem cacheByte_bit7 : ∀ k : BitVec 7, cacheByte k &&& 0x80#8 ≠ 0#8 := by decide

theorem runByte_bit7 {n : Nat} (h : n ≤ 127) : runByte n &&& 0x80#8 = 0#8 := by
  have : ∀ n : Fin 128, BitVec.ofNat 8 n.val &&& 0x80#8 = 0#8 := by decide
  exact this ⟨n, by omega⟩

theorem runByte_ne_zero {n : Nat} (h0 : 1 ≤ n) (h : n ≤ 127) : runByte n ≠ 0#8 := fun e => by
  have := congrArg BitVec.toNat e
  rw [runByte_toNat h] at this
  simp at this
  omega

/-- A command byte of neither END nor RUN is the CACHE byte of its own length field. -/
theorem cacheByte_of_bit7 : ∀ c : Byte, c &&& 0x80#8 ≠ 0#8 → cacheByte (c.setWidth 7) = c := by decide

theorem toNat_of_bit7_clear : ∀ c : Byte, c &&& 0x80#8 = 0#8 → c.toNat ≤ 127 := by decide

/-- The decoder reads a command back from its bytes, whatever follows. -/
theorem decodeStream_bytes {c : Command} (h : c.toInstr.wellFormed = true) (rest : List Byte) :
    decodeStream (c.bytes ++ rest) = .command c rest := by
  cases c with
  | endStream => rfl
  | run lits =>
    simp only [Command.toInstr, Instr.wellFormed, Bool.and_eq_true, decide_eq_true_eq, Config.runMax] at h
    simp only [Command.bytes, List.cons_append, decodeStream]
    rw [if_neg (runByte_ne_zero h.1 h.2), if_pos (runByte_bit7 h.2), runByte_toNat h.2, if_pos (by simp)]
    simp
  | cache k o =>
    simp only [Command.bytes, List.cons_append, List.nil_append, decodeStream]
    rw [if_neg (cacheByte_ne_zero k), if_neg (cacheByte_bit7 k), Machine.cacheByte_setWidth]

/-- What the decoder read is what the bytes begin with. -/
theorem bytes_of_decodeStream {bs rest : List Byte} {c : Command} (h : decodeStream bs = .command c rest) :
    bs = c.bytes ++ rest ∧ c.toInstr.wellFormed = true := by
  cases bs with
  | nil => simp [decodeStream] at h
  | cons b bs =>
    simp only [decodeStream] at h
    split at h
    · subst_vars; cases h; exact ⟨rfl, rfl⟩
    · rename_i h0
      split at h
      · rename_i h7
        split at h
        · rename_i hl
          cases h
          have h127 := toNat_of_bit7_clear b h7
          have hlen : (bs.take b.toNat).length = b.toNat := by simp [hl]
          refine ⟨?_, ?_⟩
          · simp [Command.bytes, runByte, hl]
          · have : b.toNat ≠ 0 := fun e => h0 (BitVec.eq_of_toNat_eq (by simpa using e))
            simp only [Command.toInstr, Instr.wellFormed, hlen, Config.runMax, Bool.and_eq_true, decide_eq_true_eq]
            omega
        · cases h
      · rename_i h7
        split at h
        · cases h
          exact ⟨by simp [Command.bytes, cacheByte_of_bit7 b h7], rfl⟩
        · cases h

/-- A truncated command's bytes are a proper, non-empty beginning of it, with zeros standing in for the rest. -/
theorem bytes_of_truncated {bs : List Byte} {c : Command} (h : decodeStream bs = .truncated c) :
    c.toInstr.wellFormed = true ∧ bs ≠ [] ∧ bs.length < c.bytes.length ∧
      c.bytes = bs ++ List.replicate (c.bytes.length - bs.length) 0#8 := by
  cases bs with
  | nil => simp [decodeStream] at h
  | cons b bs =>
    simp only [decodeStream] at h
    split at h
    · cases h
    · rename_i h0
      split at h
      · rename_i h7
        split at h
        · cases h
        · rename_i hl
          cases h
          have h127 := toNat_of_bit7_clear b h7
          have hlen : (bs ++ List.replicate (b.toNat - bs.length) 0#8).length = b.toNat := by simp; omega
          have hb : runByte b.toNat = b := by simp [runByte]
          refine ⟨?_, by simp, ?_, ?_⟩
          · simp only [Command.toInstr, Instr.wellFormed, hlen, Config.runMax, Bool.and_eq_true, decide_eq_true_eq]
            omega
          · simp only [Command.bytes, List.length_cons, hlen]; omega
          · simp only [Command.bytes, hlen, hb, List.length_cons, List.cons_append]
            rw [show b.toNat + 1 - (bs.length + 1) = b.toNat - bs.length by omega]
      · rename_i h7
        split at h
        · cases h
        · cases h
          exact ⟨rfl, by simp, by simp [Command.bytes], by simp [Command.bytes, cacheByte_of_bit7 b h7]⟩

theorem decodeStream_missing_iff {bs : List Byte} : decodeStream bs = .missing ↔ bs = [] := by
  constructor
  · intro h
    cases bs with
    | nil => rfl
    | cons b bs =>
      simp only [decodeStream] at h
      split at h
      · cases h
      · split at h
        · split at h <;> cases h
        · split at h <;> cases h
  · rintro rfl; rfl

/-- No command is longer than the longest. -/
theorem Command.length_bytes_le {c : Command} (h : c.toInstr.wellFormed = true) :
    0 < c.bytes.length ∧ c.bytes.length ≤ 128 := by
  cases c with
  | endStream => exact ⟨by decide, by decide⟩
  | run lits =>
    simp only [Command.toInstr, Instr.wellFormed, Bool.and_eq_true, decide_eq_true_eq, Config.runMax] at h
    simp only [Command.bytes, List.length_cons]; omega
  | cache k o => exact ⟨by simp [Command.bytes], by simp [Command.bytes]⟩

theorem Command.wellFormed_of_isChunk {c : Command} (h : c.isChunk = true) : c.toInstr.wellFormed = true := by
  cases c with
  | endStream => rfl
  | run lits => exact h
  | cache k o => rfl

end Sys2Proof

namespace Sys2Proof.Machine

/-- A decoding pass executes the command that stands at `IP`. -/
theorem State.decodePass_command {s : State} {S rest : List Byte} {c : Command} (hS : s.inMem.holds s.inLen S)
    (hc : c.toInstr.wellFormed = true) (h : S.drop s.ip = c.bytes ++ rest) : s.decodePass = execCommand c s := by
  unfold State.decodePass
  rw [State.window_of_holds hS, h, List.take_append, List.take_of_length_le (Command.length_bytes_le hc).2,
    decodeStream_bytes hc]

end Sys2Proof.Machine
end

