-- ==== Sys2Proof/Laws/Block.lean ====
section
/-! SUPPORT. What one pass of an operation can do: every way a command of the stream can go, every way a pass of COMPRESS can
go. Later proofs cite these and unfold no step. -/

namespace Sys2Proof.Machine

/-! The output space -/

theorem State.outAppendAll_outLen (bs : List Byte) (s : State) : (s.outAppendAll bs).outLen = s.outLen + bs.length := by
  rw [State.outAppendAll_outPart]; rfl

/-- What Produce leaves in `OUT` is what appending some bytes leaves there. -/
theorem State.produceAll_appends (bs : List Byte) (s : State) : ∃ ys,
    (s.produceAll bs).outMem = (s.outAppendAll ys).outMem ∧ (s.produceAll bs).outLen = (s.outAppendAll ys).outLen := by
  induction bs generalizing s with
  | nil => exact ⟨[], rfl, rfl⟩
  | cons b bs ih =>
    obtain ⟨ys, h1, h2⟩ := ih (s.produce b)
    obtain ⟨xs, k1, k2⟩ : ∃ xs, (s.produce b).outMem = (s.outAppendAll xs).outMem ∧
        (s.produce b).outLen = (s.outAppendAll xs).outLen := by
      unfold State.produce State.output
      split
      · exact ⟨[b], rfl, rfl⟩
      · split
        · refine ⟨s.grp ++ [b], ?_, ?_⟩
          · rw [State.flushGroup_outPart]; exact State.outAppendAll_outMem_congr _ rfl rfl
          · rw [State.flushGroup_outPart, State.outAppendAll_outLen]; rfl
        · exact ⟨[], rfl, rfl⟩
    have happ : ∀ t : State, (t.outAppendAll xs).outAppendAll ys = t.outAppendAll (xs ++ ys) := fun t => by
      unfold State.outAppendAll; rw [List.foldl_append]
    refine ⟨xs ++ ys, ?_, ?_⟩
    · rw [State.produceAll_cons, h1, ← happ]; exact State.outAppendAll_outMem_congr _ k1 k2
    · rw [State.produceAll_cons, h2, ← happ, State.outAppendAll_outLen, State.outAppendAll_outLen, k2]

theorem State.outAppendAll_spans (bs : List Byte) {s : State} (h : s.outMem.spans s.outLen = true) :
    (s.outAppendAll bs).outMem.spans (s.outAppendAll bs).outLen = true := by
  obtain ⟨xs, hx⟩ := Memory.spans_iff.1 h
  exact Memory.spans_iff.2 ⟨_, State.outAppendAll_holds bs hx⟩

theorem State.produceAll_spans (bs : List Byte) {s : State} (h : s.outMem.spans s.outLen = true) :
    (s.produceAll bs).outMem.spans (s.produceAll bs).outLen = true := by
  obtain ⟨ys, h1, h2⟩ := State.produceAll_appends bs s
  rw [h1, h2]
  exact State.outAppendAll_spans ys h

/-- Bytes appended to a space that holds a sequence extend the sequence. -/
theorem Appended.holds {bs ws : List Byte} {s t : State} (h : Appended bs s t) (hs : s.outMem.holds s.outLen ws)
    (ht : t.outMem.spans t.outLen = true) : t.outMem.holds t.outLen (ws ++ bs) := by
  obtain ⟨zs, hz⟩ := Memory.spans_iff.1 ht
  have hr : ∀ a, t.outMem.read a = zs[a]? := fun a => by rw [hz.1, Memory.read_ofBytes]
  have hw : ∀ a, s.outMem.read a = ws[a]? := fun a => by rw [hs.1, Memory.read_ofBytes]
  have : zs = ws ++ bs := by
    apply List.ext_getElem?
    intro j
    rw [← hr]
    by_cases hj : j < ws.length
    · rw [h.2.2 j (.inl (by rw [hs.2]; exact hj)), hw, List.getElem?_append_left hj]
    · rw [List.getElem?_append_right (by omega)]
      by_cases hj' : j - ws.length < bs.length
      · rw [← h.2.1 _ hj', hs.2]; congr 1; omega
      · rw [h.2.2 j (.inr (by rw [h.1, hs.2]; omega)), hw, List.getElem?_eq_none (by omega),
          List.getElem?_eq_none (by omega)]
  exact this ▸ hz

/-! Commands of the stream -/

/-- What no command of the stream writes. -/
structure DecoderKeeps (s t : State) : Prop where
  inMem : t.inMem = s.inMem
  inLen : t.inLen = s.inLen
  op : t.op = s.op
  shadow : t.shadow = s.shadow
  fres : t.fres = s.fres
  mode : t.mode = s.mode
  lit : t.lit = s.lit
  cand : t.cand = s.cand
  readOut : t.readOut = s.readOut
  port : t.port = s.port
  host : t.host = s.host

/-- The three ways a command of the stream ends. -/
inductive CommandEnds (c : Command) (s t : State) : Prop where
  | completes (notEnd : c ≠ .endStream) (phase : t.phase = s.phase) (status : t.status = s.status)
      (ip : t.ip = s.ip + c.bytes.length) (fits : t.ip ≤ s.inLen) (warn : t.warn = s.warn)
      (dropped : t.dropped = s.dropped)
  | ends (isEnd : c = .endStream) (phase : t.phase = .done) (status : t.status = s.status) (ip : t.ip = s.ip + 1)
      (fits : t.ip ≤ s.inLen)
      (flags : (t.warn = s.warn ∧ t.dropped = s.dropped) ∨
        (s.op ≠ 2#2 ∧ s.grp ≠ [] ∧ t.warn = true ∧ t.dropped = BitVec.ofNat 2 s.grp.length))
  | faults (phase : t.phase = .faulted) (status : t.status = 1#3 ∨ t.status = 3#3)
      (ip : s.ip < s.inLen → s.ip < t.ip ∧ t.ip ≤ s.inLen) (stays : s.inLen ≤ s.ip → t.ip = s.ip)
      (notEnd : s.ip < s.inLen → c ≠ .endStream) (warn : t.warn = s.warn) (dropped : t.dropped = s.dropped)

/-- Everything a command of the stream can do. -/
structure CommandRan (c : Command) (s t : State) : Prop where
  keeps : DecoderKeeps s t
  fpc : t.fpc = s.ip
  produced : ∃ bs, t.dict = s.dict.pushAll bs ∧ t.outMem = (s.produceAll bs).outMem ∧
    t.outLen = (s.produceAll bs).outLen ∧ (t.grp = (s.produceAll bs).grp ∨ t.grp = [])
  ending : CommandEnds c s t

theorem DecoderKeeps.produced (c : Byte) (bs : List Byte) (s : State) (i : Nat) (n r : Byte) :
    DecoderKeeps s (((s.began c).produceAll bs).loopRegs i n r) := by
  rw [State.produceAll_frame]; constructor <;> rfl

/-- Produce neither reads nor writes what the head of a command sets. -/
theorem State.produce_began (b c : Byte) (s : State) : (s.began c).produce b = (s.produce b).began c := by
  unfold State.produce State.output
  change (if s.nobuf then _ else _) = State.began c (if s.nobuf then _ else _)
  split
  · rfl
  · change (if (s.grp ++ [b]).length = Config.group then _ else _) =
      State.began c (if (s.grp ++ [b]).length = Config.group then _ else _)
    split
    · rw [State.flushGroup_outPart, State.flushGroup_outPart,
        State.outAppendAll_outMem_congr (s := ((s.began c).push b).holdInGroup b)
          (t := (s.push b).holdInGroup b) _ rfl rfl]
      rfl
    · rfl

theorem State.produceAll_began (bs : List Byte) (c : Byte) (s : State) :
    (s.began c).produceAll bs = (s.produceAll bs).began c := by
  induction bs generalizing s with
  | nil => rfl
  | cons b bs ih => rw [State.produceAll_cons, State.produce_began, ih, State.produceAll_cons]

theorem State.produceAll_keeps (bs : List Byte) (s : State) : (s.produceAll bs).phase = s.phase ∧
    (s.produceAll bs).status = s.status ∧ (s.produceAll bs).warn = s.warn ∧ (s.produceAll bs).dropped = s.dropped ∧
    (s.produceAll bs).fpc = s.fpc := by
  rw [State.produceAll_frame]; exact ⟨rfl, rfl, rfl, rfl, rfl⟩

/-- A command that produces some bytes and stands, by its loop registers, where it says. -/
theorem CommandRan.of_produced {c : Command} {cb : Byte} {bs : List Byte} {s t u : State} {i : Nat} {n r : Byte}
    (hu : u = ((s.began cb).produceAll bs).loopRegs i n r) (ht : t = u ∨ ∃ f info, t = u.raise f info)
    (he : CommandEnds c s t) : CommandRan c s t := by
  have hp := State.produceAll_began bs cb s
  have hk : DecoderKeeps s u := hu ▸ DecoderKeeps.produced cb bs s i n r
  have hf : u.fpc = s.ip := by rw [hu, hp]; exact State.produceAll_ip bs s
  have hd : u.dict = s.dict.pushAll bs := by rw [hu, hp]; exact State.produceAll_dict bs s
  have hm : u.outMem = (s.produceAll bs).outMem := by rw [hu, hp]; rfl
  have hl : u.outLen = (s.produceAll bs).outLen := by rw [hu, hp]; rfl
  have hg : u.grp = (s.produceAll bs).grp := by rw [hu, hp]; rfl
  rcases ht with rfl | ⟨f, info, rfl⟩
  · exact ⟨hk, hf, ⟨bs, hd, hm, hl, .inl hg⟩, he⟩
  · exact ⟨⟨hk.1, hk.2, hk.3, hk.4, hk.5, hk.6, hk.7, hk.8, hk.9, hk.10, hk.11⟩, hf, ⟨bs, hd, hm, hl, .inl hg⟩, he⟩

theorem CommandRan.of_missing (c : Command) {s : State} (h : s.inLen ≤ s.ip) :
    CommandRan c s (s.markStart.raise .truncatedStream 0x00#8) :=
  ⟨⟨rfl, rfl, rfl, rfl, rfl, rfl, rfl, rfl, rfl, rfl, rfl⟩, rfl, ⟨[], rfl, rfl, rfl, .inl rfl⟩,
    .faults rfl (.inl rfl) (fun h' => absurd h' (by omega)) (fun _ => rfl)
      (fun h' => absurd h' (by omega)) rfl rfl⟩

/-- A command of the stream always gives a next state, and this is everything it can do. -/
theorem execCommand_ran (c : Command) (s : State) : ∃ t, execCommand c s = .next t ∧ CommandRan c s t := by
  by_cases hin : s.ip < s.inLen
  case neg =>
    have hle : s.inLen ≤ s.ip := by omega
    refine ⟨_, ?_, CommandRan.of_missing c hle⟩
    cases c with
    | endStream => exact execEnd_missing hle
    | run lits => exact execRun_missing hle
    | cache k o => exact execCache_missing hle
  cases c with
  | endStream =>
    refine ⟨_, execEnd_present hin, ?_⟩
    have hk : DecoderKeeps s ((s.began 0#8).loopRegs (s.ip + 1) s.cnt s.src) := DecoderKeeps.produced 0#8 [] s _ _ _
    rw [State.discardPending_eq]
    split
    · rename_i hg
      exact ⟨⟨rfl, rfl, rfl, rfl, rfl, rfl, rfl, rfl, rfl, rfl, rfl⟩, rfl, ⟨[], rfl, rfl, rfl, .inr rfl⟩,
        .ends rfl rfl rfl rfl hin (.inr ⟨hg.1, hg.2, rfl, rfl⟩)⟩
    · exact ⟨⟨rfl, rfl, rfl, rfl, rfl, rfl, rfl, rfl, rfl, rfl, rfl⟩, rfl, ⟨[], rfl, rfl, rfl, .inl rfl⟩,
        .ends rfl rfl rfl rfl hin (.inl ⟨rfl, rfl⟩)⟩
  | run lits =>
    by_cases hp : s.ip + 1 + lits.length ≤ s.inLen
    · obtain ⟨h1, h2, h3, h4, -⟩ := State.produceAll_keeps lits (s.began (runByte lits.length))
      exact ⟨_, execRun_present hp, .of_produced rfl (.inl rfl) (.completes (by simp) h1 h2
        (by simp [Command.bytes]; omega) hp h3 h4)⟩
    · refine ⟨_, execRun_truncated hin (by omega), .of_produced rfl (.inr ⟨_, _, rfl⟩) ?_⟩
      generalize lits.take (s.inLen - s.ip - 1) = ys
      obtain ⟨h1, h2, h3, h4, -⟩ := State.produceAll_keeps ys (s.began (runByte lits.length))
      exact .faults rfl (.inl rfl) (fun _ => ⟨hin, Nat.le_refl _⟩) (fun h => absurd hin (by omega))
          (by simp) h3 h4
  | cache k o =>
    by_cases ho : s.ip + 1 < s.inLen
    · cases hp : s.dict.playback (cacheSource s.dict.wc o) (k.toNat + 3) with
      | some bs =>
        obtain ⟨h1, h2, h3, h4, -⟩ := State.produceAll_keeps bs (s.began (cacheByte k))
        exact ⟨_, execCache_playback ho hp, .of_produced rfl (.inl rfl) (.completes (by simp) h1 h2 rfl ho h3 h4)⟩
      | none =>
        obtain ⟨-, he⟩ := execCache_undefined ho rfl hp
        refine ⟨_, he, .of_produced rfl (.inr ⟨_, _, rfl⟩) ?_⟩
        generalize s.dict.playable (cacheSource s.dict.wc o) (k.toNat + 3) = ys
        obtain ⟨h1, h2, h3, h4, -⟩ := State.produceAll_keeps ys (s.began (cacheByte k))
        exact .faults rfl (.inr rfl) (fun _ => ⟨by simp, ho⟩) (fun h => absurd hin (by omega))
          (by simp) h3 h4
    · refine ⟨_, execCache_truncated hin (by omega), .of_produced (bs := []) rfl (.inr ⟨_, _, rfl⟩) ?_⟩
      exact .faults rfl (.inl rfl) (fun _ => ⟨by simp, hin⟩) (fun h => absurd hin (by omega))
          (by simp) rfl rfl

/-- A pass of a decompression is a command of the stream, whose first byte stands at `IP` where a byte stands there. -/
theorem State.decodePass_ran {s : State} {S : List Byte} (hS : s.inMem.holds s.inLen S) :
    ∃ c t, s.decodePass = .next t ∧ CommandRan c s t ∧
      (s.ip < s.inLen → s.inByte s.ip = c.bytes.head? ∧ s.decodePass = execCommand c s ∧
        c.toInstr.wellFormed = true) := by
  have hw := State.window_of_holds hS
  have hb := State.inByte_of_holds hS s.ip
  have hhead : ∀ b l, (S.drop s.ip).take 128 = b :: l → S[s.ip]? = some b := fun b l h => by
    cases hd : S.drop s.ip with
    | nil => simp [hd] at h
    | cons x xs =>
      rw [hd, List.take_succ_cons, List.cons.injEq] at h
      have := List.getElem?_drop (xs := S) (i := s.ip) (j := 0)
      rw [hd] at this
      simpa [h.1] using this.symm
  unfold State.decodePass
  rw [hw]
  cases hd : decodeStream ((S.drop s.ip).take 128) with
  | missing =>
    have hnil := decodeStream_missing_iff.1 hd
    have hle : s.inLen ≤ s.ip := by
      rw [hS.2]
      by_contra hlt
      have := congrArg List.length hnil
      simp at this; omega
    exact ⟨.endStream, _, rfl, CommandRan.of_missing _ hle, fun h => absurd h (by omega)⟩
  | truncated c =>
    obtain ⟨t, ht, hr⟩ := execCommand_ran c s
    obtain ⟨hwf, hne, -, he⟩ := bytes_of_truncated hd
    refine ⟨c, t, ht, hr, fun _ => ⟨?_, rfl, hwf⟩⟩
    cases hl : (S.drop s.ip).take 128 with
    | nil => exact absurd hl hne
    | cons b l => rw [hb, hhead b l hl, he, hl]; rfl
  | command c rest =>
    obtain ⟨t, ht, hr⟩ := execCommand_ran c s
    obtain ⟨he, hwf⟩ := bytes_of_decodeStream hd
    refine ⟨c, t, ht, hr, fun _ => ⟨?_, rfl, hwf⟩⟩
    obtain ⟨b, l, hl⟩ : ∃ b l, c.bytes = b :: l := by cases c <;> exact ⟨_, _, rfl⟩
    rw [hb, hhead b (l ++ rest) (by rw [he, hl]; rfl), hl]; rfl

end Sys2Proof.Machine
end

