-- ==== Sys2Proof/Laws/Pass.lean ====
section
/-! SUPPORT. One pass of the operation in progress, whichever it is, and what a whole operation is in terms of its passes. -/

namespace Sys2Proof.Machine

/-! The shadow in the encoder -/

/-- No snapshot that was not held before is held after. -/
def ShadowDropped (s t : State) : Prop := t.shadow = none ∨ t.shadow = s.shadow

theorem ShadowDropped.refl (s : State) : ShadowDropped s s := .inr rfl

theorem ShadowDropped.trans {s t u : State} (h : ShadowDropped s t) (k : ShadowDropped t u) : ShadowDropped s u :=
  k.elim .inl fun k => h.elim (fun h => .inl (k.trans h)) fun h => .inr (k.trans h)

theorem ShadowDropped.find (seq : List Byte) (s : State) : ShadowDropped s (s.find seq) := .inl rfl

theorem ShadowDropped.outAppendAll (bs : List Byte) (s : State) : ShadowDropped s (s.outAppendAll bs) := by
  rw [State.outAppendAll_outPart]; exact .inr rfl

theorem State.decideMode_shadow (s : State) : ShadowDropped s s.decideMode.2 := by
  unfold State.decideMode
  split
  · exact .refl s
  · dsimp only
    split
    · exact .find _ s
    · split
      · split
        · split <;> exact .inl rfl
        · exact .find _ s
      · exact .find _ s

theorem State.runLoop_shadow (n : Nat) (s : State) : ShadowDropped s (s.runLoop n) := by
  induction n generalizing s with
  | zero => exact .refl s
  | succ n ih =>
    unfold State.runLoop
    split
    · exact .refl s
    · rename_i b _
      have h0 : ShadowDropped s (s.takeLiteral b) := .inr rfl
      dsimp only
      split
      · exact h0
      · split
        · exact h0
        · have h1 := h0.trans (State.decideMode_shadow _)
          split
          · exact h1
          · exact h1.trans (ih _)

theorem State.growLoop_shadow (n : Nat) (s : State) : ShadowDropped s (s.growLoop n).2 := by
  induction n generalizing s with
  | zero => exact .refl s
  | succ n ih =>
    unfold State.growLoop
    split
    · split
      · exact .refl s
      · have h0 : ∀ b q, ShadowDropped s ((s.growCandidate b).find q) := fun b q => .inl rfl
        dsimp only
        split
        · exact (h0 _ _).trans (ih _)
        · exact h0 _ _
    · exact .refl s

theorem State.emitCache_shadow (s : State) : ShadowDropped s s.emitCache := by
  unfold State.emitCache
  dsimp only
  split
  · exact .inl rfl
  · rw [State.pushAll_frame]; exact .inl rfl

theorem State.compressPass_shadow (s : State) : ShadowDropped s s.compressPass := by
  unfold State.compressPass
  split
  · have h0 : ShadowDropped s s.markStart.decideMode.2 := State.decideMode_shadow s.markStart
    dsimp only
    split
    · unfold State.cacheChunk
      split
      · exact h0
      · rename_i b _
        have h1 : ShadowDropped s ((s.markStart.decideMode.2.setMode .cache).clearCandidate.growCandidate b) := h0
        have h2 := h1.trans (State.growLoop_shadow Config.cacheMax _)
        dsimp only
        split
        · exact h2.trans (State.emitCache_shadow _)
        · exact (show ShadowDropped s (State.backOff _) from h2).trans (State.emitCache_shadow _)
    · unfold State.runChunk
      have h1 : ShadowDropped s ((s.markStart.decideMode.2.setMode .run).clearLiterals) := h0
      have h2 := h1.trans (State.runLoop_shadow Config.runMax _)
      exact (show ShadowDropped s (State.outAppend _ _) from h2).trans (.outAppendAll _ _)
  · exact .inr rfl

/-! A pass -/

/-- Everything a pass of an operation can do, the input being `S`. -/
inductive Passed (S : List Byte) (s t : State) : Prop where
  /-- A chunk of COMPRESS. -/
  | chunk (isCompress : s.op = 0#2) (more : s.ip < s.inLen) (c : Command) (xs : List Byte) (m : EncMode)
      (covers : Chunk S (s.markStart.setMode m) t c xs) (shadow : ShadowDropped s t)
  /-- The terminator of COMPRESS. -/
  | terminator (isCompress : s.op = 0#2) (spent : s.inLen ≤ s.ip) (finishes : t = (s.outAppend 0x00#8).finish)
  /-- A command of a decompression. -/
  | command (isDecompress : s.op = 1#2 ∨ s.op = 2#2) (c : Command) (ran : CommandRan c s t)
      (first : s.ip < s.inLen → s.inByte s.ip = c.bytes.head?) (wf : s.ip < s.inLen → c.toInstr.wellFormed = true)

theorem op_cases : ∀ o : BitVec 2, o = 0#2 ∨ o = 1#2 ∨ o = 2#2 ∨ o = 3#2 := by decide

theorem State.inputOk_iff {s : State} : s.inputOk = true ↔ ∃ S, s.inMem.holds s.inLen S := Memory.spans_iff

/-- A pass of an operation that has been selected gives a next state, and this is everything it can do. -/
theorem State.enginePass_passed {s : State} {S : List Byte} (hS : s.inMem.holds s.inLen S) (h3 : s.op ≠ 3#2) :
    ∃ t, s.enginePass = .next t ∧ Passed S s t := by
  have hok : s.inputOk = true := State.inputOk_iff.2 ⟨S, hS⟩
  unfold State.enginePass
  rw [hok]
  rcases op_cases s.op with ho | ho | ho | ho
  · rw [if_neg (by simp), if_pos ho]
    refine ⟨_, rfl, ?_⟩
    by_cases hip : s.ip < s.inLen
    · obtain ⟨c, xs, hc⟩ := State.compressPass_chunk hS (by rw [← hS.2]; exact hip)
      exact .chunk ho hip c xs _ hc s.compressPass_shadow
    · exact .terminator ho (by omega) (State.compressPass_end (by omega))
  · obtain ⟨c, t, ht, hr, hf⟩ := State.decodePass_ran hS
    rw [if_neg (by simp), if_neg (by simp [ho]), if_pos (.inl ho)]
    exact ⟨t, ht, .command (.inl ho) c hr (fun h => (hf h).1) fun h => (hf h).2.2⟩
  · obtain ⟨c, t, ht, hr, hf⟩ := State.decodePass_ran hS
    rw [if_neg (by simp), if_neg (by simp [ho]), if_pos (.inr ho)]
    exact ⟨t, ht, .command (.inr ho) c hr (fun h => (hf h).1) fun h => (hf h).2.2⟩
  · exact absurd ho h3

/-- What no pass writes. -/
structure PassKeeps (s t : State) : Prop where
  inMem : t.inMem = s.inMem
  inLen : t.inLen = s.inLen
  op : t.op = s.op
  readOut : t.readOut = s.readOut
  port : t.port = s.port
  host : t.host = s.host

theorem Passed.keeps {S : List Byte} {s t : State} (h : Passed S s t) : PassKeeps s t := by
  cases h with
  | chunk _ _ c xs m hc => exact ⟨hc.keeps.1, hc.keeps.2, hc.keeps.3, hc.keeps.13, hc.keeps.14, hc.keeps.15⟩
  | terminator _ _ e => subst e; exact ⟨rfl, rfl, rfl, rfl, rfl, rfl⟩
  | command _ c hr => exact ⟨hr.keeps.1, hr.keeps.2, hr.keeps.3, hr.keeps.9, hr.keeps.10, hr.keeps.11⟩

/-- The pass of any state that answers a next state keeps these. -/
theorem State.enginePass_keeps {s t : State} (h : s.enginePass = .next t) : PassKeeps s t := by
  have h' := h
  unfold State.enginePass at h'
  by_cases hok : s.inputOk = true
  · obtain ⟨S, hS⟩ := State.inputOk_iff.1 hok
    by_cases h3 : s.op = 3#2
    · rw [hok, if_neg (by simp), if_neg (by simp [h3]), if_neg (by simp [h3])] at h'
      cases h'
      exact ⟨rfl, rfl, rfl, rfl, rfl, rfl⟩
    · obtain ⟨u, hu, hp⟩ := State.enginePass_passed hS h3
      rw [h] at hu; cases hu
      exact hp.keeps
  · rw [Bool.not_eq_true] at hok
    rw [hok, if_pos (by simp)] at h'
    cases h'

/-- A pass either ends the operation or consumes input. -/
theorem Passed.progress {S : List Byte} {s t : State} (hb : s.phase = .busy)
    (hS : s.inMem.holds s.inLen S) (h : Passed S s t) : t.phase ≠ .busy ∨ (t.phase = .busy ∧ s.ip < t.ip ∧ t.ip ≤ s.inLen) := by
  cases h with
  | chunk _ _ c xs m hc =>
    have := hc.fits; have := hc.nonempty; have := hS.2
    refine .inr ⟨hc.keeps.phase.trans hb, ?_, ?_⟩ <;> rw [hc.ip] <;> simp at * <;> omega
  | terminator _ _ e => subst e; exact .inl (by simp)
  | command _ c hr =>
    cases hr.ending with
    | completes _ hp _ hip hfits =>
      have : 0 < c.bytes.length := by cases c <;> simp [Command.bytes]
      exact .inr ⟨hp.trans hb, by omega, hfits⟩
    | ends _ hp => exact .inl (by simp [hp])
    | faults hp => exact .inl (by simp [hp])

/-! Several steps -/

theorem run_zero (s : State) : Host.Core.run Sys2Proof.core 0 s = .next s := rfl

theorem run_succ (n : Nat) (s : State) : Host.Core.run Sys2Proof.core (n + 1) s =
    match step s with
    | .next t => Host.Core.run Sys2Proof.core n t
    | .fault r => .fault r
    | .refused r => .refused r := by
  have h : ∀ (M : Host.Core) (u : M.State), Host.Core.run M (n + 1) u =
      match M.step u with
      | .next t => Host.Core.run M n t
      | .fault r => .fault r
      | .refused r => .refused r := fun _ _ => rfl
  rw [h Sys2Proof.core s, show Sys2Proof.core.step s = step s from rfl]
  cases step s <;> rfl

/-- With the host quiet and the port empty, steps are the passes of the operation, and then nothing. -/
theorem run_eq_operationLoop {n : Nat} {s : State} (hp : s.port = []) (hh : s.host = []) :
    Host.Core.run Sys2Proof.core n s = operationLoop n s := by
  induction n generalizing s with
  | zero => rfl
  | succ n ih =>
    have hst : step s = if s.phase = .busy then s.enginePass else .next s := by
      simp only [step, hostOrBlock, hh, blockStep, hp]
    rw [run_succ, hst]
    unfold operationLoop
    by_cases hb : s.phase = .busy
    · rw [if_pos hb, if_pos hb]
      cases he : s.enginePass with
      | next t =>
        have k := State.enginePass_keeps he
        exact ih (k.port.trans hp) (k.host.trans hh)
      | fault r => rfl
      | refused r => rfl
    · rw [if_neg hb, if_neg hb]
      have : ∀ m, operationLoop m s = .next s := fun m => by cases m <;> simp [operationLoop, hb]
      exact (ih hp hh).trans (this n)

/-- The step of a running operation whose state meets the invariant, the host quiet and the port empty, is a pass. -/
theorem passed_of_step {s t : State} (hi : Inv s) (hb : s.phase = .busy) (hh : s.host = []) (hp : s.port = [])
    (h : step s = .next t) : ∃ S, s.inMem.holds s.inLen S ∧ Passed S s t := by
  obtain ⟨S, hS⟩ := State.inputOk_iff.1 hi.input
  have h3 : s.op ≠ 3#2 := fun e => by
    have := hi.select e
    rw [hb] at this
    cases this
  obtain ⟨u, hu, hpass⟩ := State.enginePass_passed hS h3
  simp only [step, hostOrBlock, hh, blockStep, hp, hb, if_true] at h
  rw [h] at hu
  cases hu
  exact ⟨S, hS, hpass⟩

end Sys2Proof.Machine
end

