-- ==== Sys2Proof/Laws/Operation.lean ====
section
/-! SUPPORT. Whole operations: what a decompression has done after some commands, what COMPRESS has done after some
chunks, and the loop that takes them from one to the next. -/

namespace Sys2Proof.Machine

/-! Commands as playback -/

/-- Over a history the dictionary remembers, a command adds to it what it plays from the dictionary. -/
theorem Command.extend_eq_plays {w : Dict} {hist : List Byte} (h : w.remembers hist) {c : Command}
    (hc : c.isChunk = true) : c.extend hist = (w.plays c).map (hist ++ ·) := by
  cases c with
  | endStream => cases hc
  | run lits => rfl
  | cache k o => exact (Dict.playback_remembers (k.toNat + 3) o h).symm

theorem logicalFrom_append (hist : List Byte) (cs ds : List Command) :
    logicalFrom hist (cs ++ ds) = (logicalFrom hist cs).bind fun h => logicalFrom h ds := by
  induction cs generalizing hist with
  | nil => rfl
  | cons c cs ih =>
    simp only [List.cons_append, logicalFrom]
    cases c.extend hist with
    | none => rfl
    | some h => exact ih h

theorem streamBytes_append (cs ds : List Command) : streamBytes (cs ++ ds) = streamBytes cs ++ streamBytes ds :=
  List.flatMap_append

theorem streamBytes_cons (c : Command) (cs : List Command) : streamBytes (c :: cs) = c.bytes ++ streamBytes cs := rfl

/-- A chunk's command whose bytes are all present and which plays `xs` completes and produces `xs`. -/
theorem execCommand_plays {c : Command} {s : State} {xs : List Byte} (hc : c.isChunk = true)
    (hfit : s.ip + c.bytes.length ≤ s.inLen) (hp : s.dict.plays c = some xs) :
    ∃ t, execCommand c s = .next t ∧ CommandRan c s t ∧ t.phase = s.phase ∧ t.status = s.status ∧ t.warn = s.warn ∧
      t.dropped = s.dropped ∧ t.ip = s.ip + c.bytes.length ∧ t.dict = s.dict.pushAll xs ∧
      t.outMem = (s.produceAll xs).outMem ∧ t.outLen = (s.produceAll xs).outLen ∧ t.grp = (s.produceAll xs).grp := by
  have key : ∀ (cb : Byte) (i : Nat) (n r : Byte) (t : State), t = ((s.began cb).produceAll xs).loopRegs i n r →
      i = s.ip + c.bytes.length → execCommand c s = .next t →
      ∃ t, execCommand c s = .next t ∧ CommandRan c s t ∧ t.phase = s.phase ∧ t.status = s.status ∧
        t.warn = s.warn ∧ t.dropped = s.dropped ∧ t.ip = s.ip + c.bytes.length ∧ t.dict = s.dict.pushAll xs ∧
        t.outMem = (s.produceAll xs).outMem ∧ t.outLen = (s.produceAll xs).outLen ∧
        t.grp = (s.produceAll xs).grp := by
    intro cb i n r t ht hi he
    obtain ⟨u, hu, hr⟩ := execCommand_ran c s
    rw [he] at hu
    cases hu
    obtain ⟨h1, h2, h3, h4, -⟩ := State.produceAll_keeps xs (s.began cb)
    have hb := State.produceAll_began xs cb s
    refine ⟨t, he, hr, ?_⟩
    subst ht
    refine ⟨h1, h2, h3, h4, hi, ?_, ?_, ?_, ?_⟩
    · rw [State.loopRegs_dict, State.produceAll_dict]; rfl
    · rw [hb]; rfl
    · rw [hb]; rfl
    · rw [hb]; rfl
  cases c with
  | endStream => cases hc
  | run lits =>
    cases hp
    have hl : s.ip + 1 + xs.length = s.ip + (Command.run xs).bytes.length := by simp [Command.bytes]; omega
    exact key _ _ _ _ _ rfl hl (execRun_present (by rw [hl]; exact hfit))
  | cache k o => exact key _ _ _ _ _ rfl rfl (execCache_playback hfit hp)

/-! Decompression -/

/-- How far the bytes produced have reached `OUT`: all of them, or the whole groups of four. -/
def released (op : BitVec 2) (hist : List Byte) : List Byte :=
  if op = 2#2 then hist else hist.take (4 * (hist.length / 4))

/-- The bytes still pending in the group. -/
def pending (op : BitVec 2) (hist : List Byte) : List Byte :=
  if op = 2#2 then [] else hist.drop (4 * (hist.length / 4))

/-- A decompression of the input `S` that has produced `hist` and goes on. -/
structure Decoding (S hist : List Byte) (s : State) : Prop where
  input : s.inMem.holds s.inLen S
  busy : s.phase = .busy
  select : s.op = 1#2 ∨ s.op = 2#2
  dict : s.dict.remembers hist
  output : s.outMem.holds s.outLen (released s.op hist)
  group : s.grp = pending s.op hist
  status : s.status = 0#3
  warn : s.warn = false
  dropped : s.dropped = 0#2

theorem Decoding.group_lt {S hist : List Byte} {s : State} (h : Decoding S hist s) : s.grp.length < 4 := by
  rw [h.group]
  unfold pending
  split
  · simp
  · rw [List.length_drop]; omega

theorem Decoding.pass_eq {S hist : List Byte} {s : State} (h : Decoding S hist s) : s.enginePass = s.decodePass := by
  have hok := State.inputOk_iff.2 ⟨S, h.input⟩
  have h0 : s.op ≠ 0#2 := by rcases h.select with h | h <;> simp [h]
  unfold State.enginePass
  rw [hok, if_neg (by simp), if_neg h0, if_pos h.select]

/-- Bytes delivered to the output of a decompression that has produced `hist`. -/
theorem Decoding.delivered {S hist xs : List Byte} {s t : State} (h : Decoding S hist s) (hop : t.op = s.op)
    (ho : t.outMem = (s.produceAll xs).outMem) (hl : t.outLen = (s.produceAll xs).outLen)
    (hg : t.grp = (s.produceAll xs).grp) :
    t.outMem.holds t.outLen (released t.op (hist ++ xs)) ∧ t.grp = pending t.op (hist ++ xs) := by
  have hd := (Delivered.produceAll xs h.group_lt).congr (s' := s) (t' := t) rfl rfl rfl rfl hg ho hl
  have hsp : t.outMem.spans t.outLen = true := by
    rw [ho, hl]; exact State.produceAll_spans xs (Memory.spans_iff.2 ⟨_, h.output⟩)
  have hout := h.output
  have hgrp := h.group
  unfold Delivered at hd
  unfold released pending at *
  rw [hop]
  by_cases h2 : s.op = 2#2
  · rw [if_pos h2] at hd hout hgrp ⊢
    rw [if_pos h2]
    exact ⟨hd.1.holds hout hsp, hd.2.trans hgrp⟩
  · rw [if_neg h2] at hd hout hgrp ⊢
    rw [if_neg h2]
    have hq : 4 * (hist.length / 4) ≤ hist.length := Nat.mul_div_le _ _
    have hrest : s.grp ++ xs = (hist ++ xs).drop (4 * (hist.length / 4)) := by
      rw [hgrp, List.drop_append_of_le_length hq]
    have htake : hist.take (4 * (hist.length / 4)) = (hist ++ xs).take (4 * (hist.length / 4)) := by
      rw [List.take_append_of_le_length hq]
    have hlen : 4 * (hist.length / 4) + 4 * ((s.grp ++ xs).length / 4) = 4 * ((hist ++ xs).length / 4) := by
      rw [hrest, List.length_drop, List.length_append]; omega
    refine ⟨?_, ?_⟩
    · have := hd.1.holds hout hsp
      rw [htake, hrest, ← List.take_add, ← hrest, hlen] at this
      exact this
    · rw [hd.2, hrest, List.drop_drop, ← hrest, hlen]

/-- One command of a decompression. -/
theorem Decoding.command {S hist hist' rest : List Byte} {s : State} {c : Command} (h : Decoding S hist s)
    (hc : c.isChunk = true) (hb : S.drop s.ip = c.bytes ++ rest) (he : c.extend hist = some hist') :
    ∃ t, s.enginePass = .next t ∧ Decoding S hist' t ∧ t.ip = s.ip + c.bytes.length ∧ t.host = s.host ∧
      t.op = s.op ∧ t.inLen = s.inLen ∧ t.inMem = s.inMem := by
  rw [Command.extend_eq_plays h.dict hc, Option.map_eq_some_iff] at he
  obtain ⟨xs, hp, rfl⟩ := he
  have hfit : s.ip + c.bytes.length ≤ s.inLen := by
    have hl := congrArg List.length hb
    have := (Command.length_bytes_le (Command.wellFormed_of_isChunk hc)).1
    rw [h.input.2]
    simp only [List.length_drop, List.length_append] at hl
    omega
  obtain ⟨t, ht, hr, h1, h2, h3, h4, h5, h6, h7, h8, h9⟩ := execCommand_plays hc hfit hp
  have k := hr.keeps
  obtain ⟨ho, hg⟩ := h.delivered k.op h7 h8 h9
  refine ⟨t, ?_, ⟨by rw [k.inMem, k.inLen]; exact h.input, h1.trans h.busy, k.op ▸ h.select, ?_, ho, hg,
    h2.trans h.status, h3.trans h.warn, h4.trans h.dropped⟩, h5, k.host, k.op, k.inLen, k.inMem⟩
  · rw [h.pass_eq, State.decodePass_command h.input (Command.wellFormed_of_isChunk hc) hb, ht]
  · rw [h6]; exact Dict.remembers_pushAll xs h.dict

/-- The loop takes a decompression through its commands. -/
theorem Decoding.commands {S hist hist' rest : List Byte} {s : State} {cs : List Command} (n : Nat)
    (h : Decoding S hist s) (hc : ∀ c ∈ cs, c.isChunk = true) (hb : S.drop s.ip = streamBytes cs ++ rest)
    (he : logicalFrom hist cs = some hist') :
    ∃ t, operationLoop (n + cs.length) s = operationLoop n t ∧ Decoding S hist' t ∧
      t.ip = s.ip + (streamBytes cs).length ∧ t.host = s.host ∧ t.op = s.op ∧ t.inLen = s.inLen ∧
      t.inMem = s.inMem ∧ S.drop t.ip = rest := by
  induction cs generalizing hist s with
  | nil => cases he; exact ⟨s, rfl, h, rfl, rfl, rfl, rfl, rfl, by simpa [streamBytes] using hb⟩
  | cons c cs ih =>
    obtain ⟨h1, hh1, hcs⟩ := Option.bind_eq_some_iff.1 he
    rw [streamBytes_cons, List.append_assoc] at hb
    obtain ⟨t, ht, hd, hip, k1, k2, k3, k4⟩ := h.command (hc c List.mem_cons_self) hb hh1
    have hdrop : S.drop t.ip = streamBytes cs ++ rest := by
      rw [hip, ← List.drop_drop, hb, List.drop_left]
    obtain ⟨u, hu, hdu, hipu, m1, m2, m3, m4, m5⟩ := ih hd (fun d hd => hc d (List.mem_cons_of_mem c hd)) hdrop hcs
    refine ⟨u, ?_, hdu, ?_, m1.trans k1, m2.trans k2, m3.trans k3, m4.trans k4, m5⟩
    · rw [List.length_cons, ← Nat.add_assoc, ← hu, operationLoop, if_pos h.busy, ht]
    · rw [hipu, hip, streamBytes_cons, List.length_append, Nat.add_assoc]

/-- A decompression as it begins. -/
theorem Decoding.begin {s : State} {S : List Byte} {op : BitVec 2} (hS : s.inMem.holds s.inLen S)
    (hop : op = 1#2 ∨ op = 2#2) : Decoding S [] (s.begin op) := by
  refine ⟨hS, rfl, hop, Dict.remembers_empty 0#8, ?_, ?_, rfl, rfl, rfl⟩
  · have : released (s.begin op).op [] = [] := by unfold released; split <;> rfl
    rw [this]; exact ⟨rfl, rfl⟩
  · unfold pending; split <;> rfl

/-- An operation that has ended stays as it is. -/
theorem operationLoop_ended {s : State} (n : Nat) (h : s.phase ≠ .busy) : operationLoop n s = .next s := by
  cases n with
  | zero => rfl
  | succ n => exact if_neg h

/-- A pass that ends the operation is the last. -/
theorem operationLoop_last {s t : State} (n : Nat) (hb : s.phase = .busy) (h : s.enginePass = .next t)
    (he : t.phase ≠ .busy) : operationLoop (n + 1) s = .next t := by
  rw [operationLoop, if_pos hb, h]
  exact operationLoop_ended n he

theorem streamBytes_length_ge {cs : List Command} : cs.length ≤ (streamBytes cs).length := by
  induction cs with
  | nil => exact Nat.le_refl 0
  | cons c cs ih =>
    have : 0 < c.bytes.length := by cases c <;> simp [Command.bytes]
    rw [streamBytes_cons, List.length_append, List.length_cons]; omega

/-! COMPRESS -/

/-- A COMPRESS of the input `S` that has emitted `cs` and goes on. -/
structure Encoding (S : List Byte) (cs : List Command) (s : State) : Prop where
  input : s.inMem.holds s.inLen S
  busy : s.phase = .busy
  select : s.op = 0#2
  cursor : s.ip ≤ S.length
  dict : s.dict.remembers (S.take s.ip)
  output : s.outMem.holds s.outLen (streamBytes cs)
  chunks : ∀ c ∈ cs, c.isChunk = true
  logical : logicalOutput cs = some (S.take s.ip)
  status : s.status = 0#3
  warn : s.warn = false
  dropped : s.dropped = 0#2

theorem Encoding.pass_eq {S : List Byte} {cs : List Command} {s : State} (h : Encoding S cs s) :
    s.enginePass = .next s.compressPass := by
  have hok := State.inputOk_iff.2 ⟨S, h.input⟩
  unfold State.enginePass
  rw [hok, if_neg (by simp), if_pos h.select]

/-- One chunk of COMPRESS. -/
theorem Encoding.chunk {S : List Byte} {cs : List Command} {s : State} (h : Encoding S cs s) (hip : s.ip < S.length) :
    ∃ t c, s.enginePass = .next t ∧ Encoding S (cs ++ [c]) t ∧ s.ip < t.ip ∧ t.host = s.host ∧ t.inMem = s.inMem ∧
      t.inLen = s.inLen := by
  obtain ⟨c, xs, hc⟩ := State.compressPass_chunk h.input hip
  have k := hc.keeps
  have hip' : s.compressPass.ip = s.ip + xs.length := hc.ip
  have hfit : s.ip + xs.length ≤ S.length := hc.fits
  have hcov : S.take s.ip ++ xs = S.take (s.ip + xs.length) := by
    have : xs = slice S s.ip xs.length := hc.covers
    rw [← take_add_slice, ← this]
  refine ⟨_, c, h.pass_eq, ⟨?_, k.phase.trans h.busy, k.op.trans h.select, hip' ▸ hfit, ?_, ?_, ?_, ?_,
    k.status.trans h.status, k.warn.trans h.warn, k.dropped.trans h.dropped⟩, ?_, k.host, k.inMem, k.inLen⟩
  · rw [k.inMem, k.inLen]; exact h.input
  · rw [hip', hc.dict, ← hcov]; exact Dict.remembers_pushAll xs h.dict
  · have hm : s.compressPass.outMem = (s.outAppendAll c.bytes).outMem :=
      hc.outMem.trans (State.outAppendAll_outMem_congr _ rfl rfl)
    have hl : s.compressPass.outLen = (s.outAppendAll c.bytes).outLen := by
      rw [State.outAppendAll_outLen]; exact hc.outLen
    rw [hm, hl, streamBytes_append, show streamBytes [c] = c.bytes from List.append_nil _]
    exact State.outAppendAll_holds _ h.output
  · intro d hd
    rcases List.mem_append.1 hd with hd | hd
    · exact h.chunks d hd
    · rw [List.mem_singleton.1 hd]; exact hc.isChunk
  · have hpl : s.dict.plays c = some xs := hc.plays
    have := Command.extend_eq_plays h.dict hc.isChunk
    rw [hpl] at this
    unfold logicalOutput
    rw [logicalFrom_append, show logicalFrom [] cs = _ from h.logical, hip', ← hcov]
    simp [logicalFrom, this]
  · have := hc.nonempty; omega

/-- The loop takes COMPRESS through the whole input. -/
theorem Encoding.chunks_all {S : List Byte} {cs : List Command} {s : State} (n : Nat) (h : Encoding S cs s)
    (hn : S.length < s.ip + n) :
    ∃ t ds, operationLoop n s = .next (t.outAppend 0x00#8).finish ∧ Encoding S ds t ∧ t.ip = S.length ∧
      t.host = s.host ∧ t.inMem = s.inMem ∧ t.inLen = s.inLen := by
  induction n generalizing cs s with
  | zero => have := h.cursor; omega
  | succ n ih =>
    by_cases hip : s.ip < S.length
    · obtain ⟨t, c, ht, he, hlt, k1, k2, k3⟩ := h.chunk hip
      obtain ⟨u, ds, hu, heu, hiu, m1, m2, m3⟩ := ih he (by omega)
      exact ⟨u, ds, by rw [operationLoop, if_pos h.busy, ht]; exact hu, heu, hiu, m1.trans k1, m2.trans k2,
        m3.trans k3⟩
    · refine ⟨s, cs, ?_, h, by have := h.cursor; omega, rfl, rfl, rfl⟩
      exact operationLoop_last n h.busy (h.pass_eq.trans (by rw [State.compressPass_end (by rw [h.input.2]; omega)]))
        (by simp)

/-- COMPRESS as it begins. -/
theorem Encoding.begin {s : State} {S : List Byte} (hS : s.inMem.holds s.inLen S) : Encoding S [] (s.begin 0#2) :=
  ⟨hS, rfl, rfl, Nat.zero_le _, Dict.remembers_empty 0#8, ⟨rfl, rfl⟩, fun _ h => (by cases h), rfl, rfl, rfl, rfl⟩

end Sys2Proof.Machine
end

