-- ==== Sys2Proof/Laws/PerInstr.lean ====
section
/-! SUPPORT. Statements made per instruction: the encoding of every well-formed instruction matches its row of
spec/opcode_table.json. -/

namespace Sys2Proof.Laws.MatchesItsRow

/-- The bits of an encoding a row of the table is matched against: the first byte of a command, or the select. -/
def matched : Encoded → Nat
  | .stream (c :: _) => c.toNat
  | .stream [] => 0x100
  | .op sel => sel.toNat
  | .dop q => q.dop.toNat

/-- The row's `mask`. -/
def rowMask : Instr → Nat
  | .endStream => 0xFF
  | .run _ => 0x80
  | .cache _ _ => 0x80
  | .compress => 0x3
  | .decompress => 0x3
  | .decompressNobuf => 0x3
  | .push _ => 0x7
  | .read _ => 0x7
  | .snapshot => 0x7
  | .restore => 0x7
  | .find _ => 0x7

/-- The row's `match`. -/
def rowMatch : Instr → Nat
  | .endStream => 0x00
  | .run _ => 0x00
  | .cache _ _ => 0x80
  | .compress => 0x0
  | .decompress => 0x1
  | .decompressNobuf => 0x2
  | .push _ => 0x0
  | .read _ => 0x1
  | .snapshot => 0x2
  | .restore => 0x3
  | .find _ => 0x4

/-- The row's `excludes`: a RUN is not the byte 0x00. -/
def rowExcludes : Instr → Option Nat
  | .endStream => none
  | .run _ => some 0x00
  | .cache _ _ => none
  | .compress => none
  | .decompress => none
  | .decompressNobuf => none
  | .push _ => none
  | .read _ => none
  | .snapshot => none
  | .restore => none
  | .find _ => none

/-- A well-formed instruction's encoding has the row's fixed bits and is not the value the row excludes. -/
def Statement (i : Instr) : Prop :=
  i.wellFormed = true → matched (encode i) &&& rowMask i = rowMatch i ∧ rowExcludes i ≠ some (matched (encode i))

theorem endStream : Statement .endStream := fun _ => by decide

theorem run (lits : List Byte) : Statement (.run lits) := fun h => by
  simp only [Instr.wellFormed, Bool.and_eq_true, decide_eq_true_eq, Config.runMax] at h
  have hm : ∀ n : Fin 128, n.val &&& 0x80 = 0 := by decide
  have hr : matched (encode (.run lits)) = lits.length := runByte_toNat h.2
  rw [hr]
  refine ⟨hm ⟨lits.length, by omega⟩, fun e => ?_⟩
  simp only [rowExcludes, Option.some.injEq] at e
  omega

theorem cache (k : BitVec 7) (o : Byte) : Statement (.cache k o) := fun _ => by
  have hm : ∀ k : BitVec 7, (cacheByte k).toNat &&& 0x80 = 0x80 := by decide
  exact ⟨hm k, by simp [rowExcludes]⟩

theorem compress : Statement .compress := fun _ => by decide

theorem decompress : Statement .decompress := fun _ => by decide

theorem decompressNobuf : Statement .decompressNobuf := fun _ => by decide

theorem push (b : Byte) : Statement (.push b) := fun _ => ⟨by simp [matched, encode, rowMask, rowMatch], by simp [rowExcludes]⟩

theorem read (i : Nat) : Statement (.read i) := fun _ => ⟨by simp [matched, encode, rowMask, rowMatch], by simp [rowExcludes]⟩

theorem snapshot : Statement .snapshot := fun _ => by decide

theorem restore : Statement .restore := fun _ => by decide

theorem find (seq : List Byte) : Statement (.find seq) := fun _ => ⟨by simp [matched, encode, rowMask, rowMatch], by simp [rowExcludes]⟩

end Sys2Proof.Laws.MatchesItsRow
end

