-- ==== Sys2Proof/Laws/Step.lean ====
section
/-! SUPPORT. What a step is, case by case, the loader, and the canonical form of every memory. -/

namespace Sys2Proof.Machine

/-- A command's meaning as an instruction is its meaning as a command. -/
theorem exec_toInstr (c : Command) (s : State) : exec c.toInstr s = execCommand c s := by cases c <;> rfl

/-- A select that is not reserved names the operation it runs. -/
theorem exec_of_decodeOp {op : BitVec 2} {i : Instr} (h : decodeOp op = some i) (s : State) :
    exec i s = runOperation op s ∧ op ≠ 3#2 := by
  rcases op_cases op with rfl | rfl | rfl | rfl <;> cases h <;> exact ⟨rfl, by decide⟩

theorem step_quiet {s : State} (h : s.host = []) : step s = blockStep s := by
  simp only [step, hostOrBlock, h]

theorem step_host {s : State} {a : HostAction} {rest : List HostAction} (h : s.host = a :: rest) :
    step s = hostStep a { s with host := rest } := by
  simp only [step, hostOrBlock, h]

/-- An operation started while another runs is ignored (R241). -/
theorem runOperation_ignored {s : State} (op : BitVec 2) (hb : s.phase = .busy) : runOperation op s = .next s := if_pos hb

/-- So is `start`, in both forms and with every select. -/
theorem startWhole_ignored {s : State} (op : BitVec 2) (hb : s.phase = .busy) : startWhole op s = .next s := by
  unfold startWhole
  cases hd : decodeOp op with
  | none => exact if_pos hb
  | some i => exact (exec_of_decodeOp hd s).1.trans (runOperation_ignored op hb)

theorem startStepped_ignored {s : State} (op : BitVec 2) (hb : s.phase = .busy) : startStepped op s = s := if_pos hb

theorem blockStep_pass {s : State} (hp : s.port = []) (hb : s.phase = .busy) : blockStep s = s.enginePass := by
  simp only [blockStep, hp, hb, if_true]

theorem blockStep_waits {s : State} (hp : s.port = []) (hb : s.phase ≠ .busy) : blockStep s = .next s := by
  simp only [blockStep, hp, hb, if_false]

theorem blockStep_serves {s : State} {q : PortRequest} {qs : List PortRequest} (hp : s.port = q :: qs) :
    blockStep s = servePort q { s with port := qs } := by
  simp only [blockStep, hp]

/-! The loader -/

theorem Memory.le_of_mem_ofBytesAt {a : Nat} {bs : List Byte} {c : Host.Cell} (h : c ∈ Memory.ofBytesAt a bs) :
    a ≤ c.1 := by
  induction bs generalizing a with
  | nil => simp [Memory.ofBytesAt] at h
  | cons b bs ih =>
    simp only [Memory.ofBytesAt, List.mem_cons] at h
    rcases h with rfl | h
    · exact Nat.le_refl a
    · exact Nat.le_of_succ_le (ih h)

/-- Keeping the cells below an address keeps the bytes below it. -/
theorem Memory.filter_ofBytesAt (a n : Nat) (bs : List Byte) :
    (Memory.ofBytesAt a bs).filter (fun c => c.1 < a + n) = Memory.ofBytesAt a (bs.take n) := by
  induction bs generalizing a n with
  | nil => simp [Memory.ofBytesAt]
  | cons b bs ih =>
    cases n with
    | zero =>
      rw [List.take_zero]
      refine List.filter_eq_nil_iff.2 fun c hc => ?_
      have := Memory.le_of_mem_ofBytesAt hc
      simp; omega
    | succ n =>
      simp only [Memory.ofBytesAt, List.take_succ_cons]
      rw [List.filter_cons_of_pos (by simp), ← ih]
      congr 2
      funext c
      congr 1
      apply propext
      constructor <;> intro <;> omega

/-- The loader keeps the input bytes below `IP` and lays its own from there. -/
theorem State.withStreamAt_holds {s : State} {S bs : List Byte} (hS : s.inMem.holds s.inLen S) (hip : s.ip ≤ s.inLen) :
    (s.withStreamAt bs).inMem.holds (s.withStreamAt bs).inLen (S.take s.ip ++ bs) := by
  have hl := hS.2
  have hf := Memory.filter_ofBytesAt 0 s.ip S
  refine ⟨?_, ?_⟩
  · change (s.inMem.filter fun c => c.1 < s.ip) ++ Memory.ofBytesAt s.ip bs = _
    rw [hS.1, Memory.ofBytes, Memory.ofBytes, Memory.ofBytesAt_append]
    simp only [Nat.zero_add] at hf
    rw [hf]
    congr 2
    simp; omega
  · change s.ip + bs.length = _
    simp; omega

/-! The canonical form -/

/-- The three memories after reset are in canonical form. -/
theorem reset_wf : State.reset.dict.d.wf = true ∧ State.reset.inMem.wf = true ∧ State.reset.outMem.wf = true :=
  ⟨rfl, rfl, rfl⟩

/-- PUSH keeps the dictionary's. -/
theorem Dict.push_wf {w : Dict} (b : Byte) (h : w.d.wf = true) : (w.push b).d.wf = true := Memory.write_wf _ _ h

/-- `OutAppend` keeps the output space's. -/
theorem State.outAppend_wf {s : State} (b : Byte) (h : s.outMem.wf = true) : (s.outAppend b).outMem.wf = true :=
  Memory.write_wf _ _ h

/-- What the host writes to the input space has it. -/
theorem Memory.ofBytes_wf (bs : List Byte) : (Memory.ofBytes bs).wf = true := Memory.wf_ofBytesAt 0 bs

/-- So has what the loader lays there, where the input was in order. -/
theorem State.withStreamAt_wf {s : State} {bs : List Byte} (hok : s.inputOk = true) (hip : s.ip ≤ s.inLen) :
    (s.withStreamAt bs).inMem.wf = true := by
  obtain ⟨S, hS⟩ := State.inputOk_iff.1 hok
  rw [(State.withStreamAt_holds hS hip).1]
  exact Memory.ofBytes_wf _

/-- Every memory of a state that meets the invariant is in canonical form. -/
theorem Inv.wf {s : State} (h : Inv s) : s.dict.d.wf = true ∧ s.inMem.wf = true ∧ s.outMem.wf = true :=
  ⟨h.dict.1, Memory.wf_of_spans h.input, Memory.wf_of_spans h.output⟩

end Sys2Proof.Machine
end

