-- ==== Sys2Proof/Machine/Assembler.lean ====
section
/-! DEFINITION. The textual syntax of commands and operations (30_encoding.md R102): one a line, a comment from `;` to the
end of the line. A notation for writing streams; no step of the machine uses it (notes 26). Text is a list of
characters. -/

namespace Sys2Proof.Machine

/-- A character between words: a space, a comma, or a bracket of a FIND sequence. -/
def isSeparator (c : Char) : Bool := c = ' ' || c = ',' || c = '[' || c = ']'

/-- The words of a line up to its comment; `word` is the word being read, in reverse. -/
def wordsFrom (word : List Char) : List Char → List (List Char)
  | [] => if word.isEmpty then [] else [word.reverse]
  | c :: cs =>
    if c = ';' then (if word.isEmpty then [] else [word.reverse])
    else if isSeparator c then
      if word.isEmpty then wordsFrom [] cs else word.reverse :: wordsFrom [] cs
    else wordsFrom (c :: word) cs

/-- The digits, each at the place that is its value; letters in either case (notes 26). -/
def digits : List Char := "0123456789abcdef".toList

/-- The value of a digit of a base, none where the character is no digit of it. -/
def digitIn (base : Nat) (c : Char) : Option Nat := (digits.take base).idxOf? c.toLower

/-- The number some digits write in a base, most significant first. -/
def digitsIn (base : Nat) (w : List Char) : Option Nat :=
  w.foldlM (fun n c => (digitIn base c).map (base * n + ·)) 0

/-- A word as digits of a base: at least one. -/
def wordIn (base : Nat) (w : List Char) : Option Nat := if w.isEmpty then none else digitsIn base w

/-- A number: hexadecimal after `0x`, else decimal. -/
def wordNumber : List Char → Option Nat
  | '0' :: 'x' :: w => wordIn 16 w
  | w => wordIn 10 w

/-- A byte, hexadecimal, with or without `0x`. -/
def wordByte (w : List Char) : Option Byte :=
  let n := match w with
    | '0' :: 'x' :: v => wordIn 16 v
    | v => wordIn 16 v
  match n with
  | some b => if b < 256 then some (BitVec.ofNat 8 b) else none
  | none => none

/-- Every word a byte. -/
def wordBytes : List (List Char) → Option (List Byte)
  | [] => some []
  | w :: ws =>
    match wordByte w, wordBytes ws with
    | some b, some bs => some (b :: bs)
    | _, _ => none

/-- The two operands of CACHE: the decoded length 3 to 130 and the offset byte. -/
def cacheOperands : List (List Char) → Option Instr
  | [l, o] =>
    match wordNumber l, wordNumber o with
    | some L, some d =>
      if 3 ≤ L ∧ L ≤ 130 ∧ d < 256 then some (.cache (BitVec.ofNat 7 (L - 3)) (BitVec.ofNat 8 d)) else none
    | _, _ => none
  | _ => none

/-- An instruction from the words of a line. -/
def instrOfWords : List (List Char) → Option Instr
  | [] => none
  | w :: ws =>
    if w = ['E', 'N', 'D'] then (if ws.isEmpty then some .endStream else none)
    else if w = ['R', 'U', 'N'] then
      match wordBytes ws with
      | some lits => if (Instr.run lits).wellFormed then some (.run lits) else none
      | none => none
    else if w = ['C', 'A', 'C', 'H', 'E'] then cacheOperands ws
    else if w = ['C', 'O', 'M', 'P', 'R', 'E', 'S', 'S'] then (if ws.isEmpty then some .compress else none)
    else if w = ['D', 'E', 'C', 'O', 'M', 'P', 'R', 'E', 'S', 'S'] then
      (if ws.isEmpty then some .decompress else none)
    else if w = ['D', 'E', 'C', 'O', 'M', 'P', 'R', 'E', 'S', 'S', 'N', 'O', 'B', 'U', 'F'] then
      (if ws.isEmpty then some .decompressNobuf else none)
    else if w = ['P', 'U', 'S', 'H'] then
      match wordBytes ws with
      | some [b] => some (.push b)
      | _ => none
    else if w = ['R', 'E', 'A', 'D'] then
      match ws with
      | [i] => (wordNumber i).map .read
      | _ => none
    else if w = ['S', 'N', 'A', 'P', 'S', 'H', 'O', 'T'] then (if ws.isEmpty then some .snapshot else none)
    else if w = ['R', 'E', 'S', 'T', 'O', 'R', 'E'] then (if ws.isEmpty then some .restore else none)
    else if w = ['F', 'I', 'N', 'D'] then
      match wordBytes ws with
      | some seq => if (Instr.find seq).wellFormed then some (.find seq) else none
      | none => none
    else none

/-- The lines of a text; `line` is the line being read, in reverse. -/
def linesFrom (line : List Char) : List Char → List (List Char)
  | [] => [line.reverse]
  | c :: cs => if c = '\n' then line.reverse :: linesFrom [] cs else linesFrom (c :: line) cs

/-- The instructions of some lines, empty lines and comment lines apart; none where a line is no instruction. -/
def assembleLines : List (List Char) → Option (List Instr)
  | [] => some []
  | l :: ls =>
    match wordsFrom [] l with
    | [] => assembleLines ls
    | w :: ws =>
      match instrOfWords (w :: ws), assembleLines ls with
      | some i, some is => some (i :: is)
      | _, _ => none

/-- The instructions of a text. -/
def assemble (text : List Char) : Option (List Instr) := assembleLines (linesFrom [] text)

/-- The stream bytes of a list of instructions, where all are commands of the stream. -/
def streamOf : List Instr → Option (List Byte)
  | [] => some []
  | i :: is =>
    match encode i, streamOf is with
    | .stream bytes, some rest => some (bytes ++ rest)
    | _, _ => none

/-- The stream bytes of a text of commands. -/
def assembleStream (text : List Char) : Option (List Byte) := (assemble text).bind streamOf

end Sys2Proof.Machine
end

