-- ==== Sys2Proof/Tests/Slice0.lean ====
section
/-! SUPPORT. Tests of the model, their expected results from spec/95_test_vectors.md and the encoding tables of
spec/30_encoding.md, and a witness for the hypotheses of each statement. -/

set_option Elab.async false

namespace Sys2Proof.Machine.Tests

open Sys2Proof Sys2Proof.Machine

/-! Small states -/

/-- The block idle, with an input. -/
def loaded (bytes : List Byte) : State :=
  { State.reset with inMem := Memory.ofBytes bytes, inLen := bytes.length }

/-- The block running an operation on an input. -/
def running (op : BitVec 2) (bytes : List Byte) : State := { loaded bytes with op := op, phase := .busy }

/-- A dictionary after some pushes from reset. -/
def dictOf (bs : List Byte) : Dict := State.reset.dict.pushAll bs

/-- The bytes `a` to `a + n - 1`. -/
def bytesFrom (a n : Nat) : List Byte := (List.range n).map fun j => BitVec.ofNat 8 (a + j)

/-- The next state, where there is one. -/
def next : Host.Outcome State Fault Refusal → Option State
  | .next t => some t
  | .fault _ => none
  | .refused _ => none

theorem eq_next {o : Host.Outcome State Fault Refusal} (h : (next o).isSome = true) :
    o = .next ((next o).getD State.reset) := by
  cases o with
  | next t => rfl
  | fault r => cases h
  | refused r => cases h

/-- The bytes in `OUT`. -/
def out (t : State) : List Byte := t.outMem.map Prod.snd

/-! Well-formedness: an ill-formed term for each check -/

theorem test_wf_run_of_none : (Instr.run []).wellFormed = false := by decide
theorem test_wf_run_of_128 : (Instr.run (List.replicate 128 0x55#8)).wellFormed = false := by decide +kernel
theorem test_wf_find_of_none : (Instr.find []).wellFormed = false := by decide
theorem test_wf_find_of_131 : (Instr.find (List.replicate 131 0x55#8)).wellFormed = false := by decide +kernel

/-! Decoding: words written out from R91 to R93, R100, R101 and the tables of section 3 of the vectors -/

theorem test_decode_end : decode (.stream [0b00000000#8, 0xFF#8]) = .instr .endStream [0xFF#8] := by decide
theorem test_decode_run : decode (.stream [0b00000010#8, 0xAB#8, 0xCD#8, 0x82#8]) =
    .instr (.run [0xAB#8, 0xCD#8]) [0x82#8] := by decide
theorem test_decode_cache : decode (.stream [0b10000001#8, 0x06#8, 0x00#8]) = .instr (.cache 1#7 0x06#8) [0x00#8] := by
  decide
theorem test_decode_cache_longest : decode (.stream [0b11111111#8, 0x37#8]) = .instr (.cache 127#7 0x37#8) [] := by
  decide
theorem test_decode_truncated : decode (.stream [0b01111111#8]) = .rejected .truncatedCommand ∧
    decode (.stream [0b10000000#8]) = .rejected .truncatedCommand ∧
    decode (.stream []) = .rejected .missingCommandByte := by decide
theorem test_decode_compress : decode (.op 0b00#2) = .instr .compress [] := by decide
theorem test_decode_decompress : decode (.op 0b01#2) = .instr .decompress [] := by decide
theorem test_decode_nobuf : decode (.op 0b10#2) = .instr .decompressNobuf [] := by decide
theorem test_decode_op_reserved : decode (.op 0b11#2) = .rejected .reservedOperation := by decide
theorem test_decode_push : decode (.dop ⟨0b000#3, 0x11#8, 9, [0x22#8]⟩) = .instr (.push 0x11#8) [] := by decide
theorem test_decode_read : decode (.dop ⟨0b001#3, 0x11#8, 9, [0x22#8]⟩) = .instr (.read 9) [] := by decide
theorem test_decode_snapshot : decode (.dop ⟨0b010#3, 0x11#8, 9, [0x22#8]⟩) = .instr .snapshot [] := by decide
theorem test_decode_restore : decode (.dop ⟨0b011#3, 0x11#8, 9, [0x22#8]⟩) = .instr .restore [] := by decide
theorem test_decode_find : decode (.dop ⟨0b100#3, 0x11#8, 9, [0x22#8]⟩) = .instr (.find [0x22#8]) [] := by decide
theorem test_decode_dop_reserved : decode (.dop ⟨0b111#3, 0x11#8, 9, [0x22#8]⟩) =
    .rejected .reservedDictOperation := by decide
theorem test_table_words : decodeTableWord 8 0x00 = some .endStream ∧
    decodeTableWord 16 0x0086 = some (.cache 6#7 0#8) ∧ decodeTableWord 2 2 = some .decompressNobuf ∧
    decodeTableWord 3 4 = some (.find [0#8]) ∧ decodeTableWord 2 3 = none ∧ decodeTableWord 3 5 = none := by
  decide +kernel

/-! The commands of the stream -/

/-- X4's END: two bytes pending in buffered output. -/
theorem test_end_warns :
    (next (exec .endStream { running 1 [0x00#8] with grp := [0xAB#8, 0xAB#8] })).map
      (fun t => (t.phase, t.warn, t.dropped, t.grp, t.ip)) = some (.done, true, 2#2, [], 1) := by decide
/-- R184: no warning in no-buffer output. -/
theorem test_end_nobuf : (next (exec .endStream (running 2 [0x00#8]))).map
    (fun t => (t.phase, t.warn, t.dropped, t.ip)) = some (.done, false, 0#2, 1) := by decide

/-- R182's example: from reset, `03 01 02 03` gives `D[0..2] = 01 02 03`, `WC = 3`, `IP = 4`. -/
theorem test_run : (next (exec (.run [1#8, 2#8, 3#8]) (running 2 [3#8, 1#8, 2#8, 3#8]))).map
    (fun t => (out t, t.dict, t.ip)) =
    some ([1#8, 2#8, 3#8], ⟨[(0, 1#8), (1, 2#8), (2, 3#8)], 3#8⟩, 4) := by decide
/-- T3: the third literal is missing. -/
theorem test_run_truncated : (next (exec (.run [1#8, 2#8, 0#8]) (running 1 [3#8, 1#8, 2#8]))).map
    (fun t => (t.phase, t.status, t.fpc, t.finfo, t.ip, t.dict)) =
    some (.faulted, 1#3, 0, 3#8, 3, ⟨[(0, 1#8), (1, 2#8)], 2#8⟩) := by decide

/-- R183's example: `D[0] = AB`, `WC = 1`, `86 00` produces nine bytes `AB`, `WC = 10`. -/
theorem test_cache_overlap :
    (next (exec (.cache 6#7 0#8) { running 2 [0x86#8, 0x00#8] with dict := dictOf [0xAB#8] })).map
      (fun t => (out t, t.dict.wc, t.ip)) = some (List.replicate 9 0xAB#8, 10#8, 2) := by decide +kernel
/-- T9 from its CACHE on: slot 3 is `Empty`. -/
theorem test_cache_undefined :
    (next (exec (.cache 1#7 0xFE#8) { running 2 [0x81#8, 0xFE#8, 0#8] with dict := dictOf [0x11#8, 0x22#8] })).map
      (fun t => (t.phase, t.status, t.finfo, t.ip, out t)) = some (.faulted, 3#3, 3#8, 2, []) := by decide +kernel

/-! The block-level operations -/

/-- S3. -/
theorem test_compress_self_overlap : (next (exec .compress (loaded (List.replicate 10 0xAB#8)))).map
    (fun t => (t.phase, out t, t.ip, t.dict.wc)) =
    some (.done, [0x01#8, 0xAB#8, 0x86#8, 0x00#8, 0x00#8], 10, 10#8) := by decide +kernel
/-- E17 (program G6): RUN, CACHE with back-off, RUN, CACHE to the end of the input. -/
theorem test_compress_back_off :
    (next (exec .compress (loaded [1#8, 2#8, 3#8, 4#8, 1#8, 2#8, 3#8, 9#8, 2#8, 3#8, 4#8, 1#8]))).map
      (fun t => (out t, t.mode)) =
    some ([4#8, 1#8, 2#8, 3#8, 4#8, 0x80#8, 3#8, 1#8, 9#8, 0x81#8, 6#8, 0#8], .cache) := by decide +kernel

/-- X5, buffered: six bytes, the last two discarded. -/
theorem test_decompress : (next (exec .decompress (loaded [3#8, 1#8, 2#8, 3#8, 0x80#8, 2#8, 0#8]))).map
    (fun t => (t.phase, out t, t.warn, t.dropped, t.ip, t.dict.wc)) =
    some (.done, [1#8, 2#8, 3#8, 1#8], true, 2#2, 7, 6#8) := by decide +kernel
/-- T4: the offset byte is missing. -/
theorem test_decompress_truncated : (next (exec .decompress (loaded [1#8, 0xAA#8, 0x80#8]))).map
    (fun t => (t.phase, t.status, t.fpc, t.finfo, t.ip)) = some (.faulted, 1#3, 2, 0x80#8, 3) := by decide +kernel

/-- X8. -/
theorem test_nobuf :
    (next (exec .decompressNobuf (loaded [3#8, 1#8, 2#8, 3#8, 0x80#8, 0#8, 0x80#8, 5#8, 0#8]))).map
      (fun t => (t.phase, out t, t.warn, t.ip, t.dict.wc)) =
    some (.done, [1#8, 2#8, 3#8, 3#8, 3#8, 3#8, 1#8, 2#8, 3#8], false, 9, 9#8) := by decide +kernel
/-- T8: the slot before the first push is `Empty`. -/
theorem test_nobuf_undefined : (next (exec .decompressNobuf (loaded [1#8, 0x11#8, 0x80#8, 1#8, 0#8]))).map
    (fun t => (t.phase, t.status, t.fpc, t.finfo)) = some (.faulted, 3#3, 2, 0xFF#8) := by decide +kernel

/-! The dictionary operations -/

/-- P1. -/
theorem test_push : (next (exec (.push 0xAB#8) State.reset)).map (·.dict) = some ⟨[(0, 0xAB#8)], 1#8⟩ := by decide
/-- P3: the cursor wraps. -/
theorem test_push_wraps : (next (exec (.push 0xFF#8) { State.reset with dict := dictOf (bytesFrom 0 255) })).map
    (fun t => (t.dict.wc, t.dict.read 255#8)) = some (0#8, some 0xFF#8) := by decide +kernel
/-- P2: the index is taken modulo 256. -/
theorem test_read : (next (exec (.read 256) { State.reset with dict := dictOf [0xAB#8] })).map (·.readOut) =
    some (some 0xAB#8) := by decide
/-- P2: a slot nothing has written is `Empty`. -/
theorem test_read_empty : (next (exec (.read 257) { State.reset with dict := dictOf [0xAB#8] })).map (·.readOut) =
    some none := by decide
/-- SN1. -/
theorem test_snapshot : (next (exec .snapshot { State.reset with dict := dictOf [0xAB#8] })).map
    (fun t => (t.shadow, t.dict)) = some (some (dictOf [0xAB#8]), dictOf [0xAB#8]) := by decide
/-- SN3. -/
theorem test_restore : (next (exec .restore { State.reset with
      dict := dictOf [0xAB#8, 0x11#8, 0x22#8], shadow := some (dictOf [0xAB#8]) })).map
    (fun t => (t.dict, t.shadow.isSome)) = some (dictOf [0xAB#8], true) := by decide
/-- SN5. -/
theorem test_restore_refused : exec .restore State.reset = .refused .restoreWithoutSnapshot := rfl
/-- F6: a match that only the provisional writes find. -/
theorem test_find_provisional : (next (exec (.find (bytesFrom 200 56 ++ bytesFrom 200 56 ++ bytesFrom 200 18))
      { State.reset with dict := dictOf (bytesFrom 0 256) })).map (fun t => (t.fres, t.dict.wc, t.shadow)) =
    some (some 200#8, 0#8, none) := by decide +kernel
/-- F7: the first match in scan order, not the lowest slot. -/
theorem test_find_scan_order : (next (exec (.find [0x64#8, 0x65#8, 0x66#8])
      { State.reset with dict := dictOf (bytesFrom 0 256 ++ [0x64#8, 0x65#8, 0x66#8, 0x10#8]) })).map (·.fres) =
    some (some 100#8) := by decide +kernel

/-! The step -/

/-- T10: `start` with the reserved select. -/
theorem test_step_reserved : (next (step { loaded [1#8] with host := [.start 3] })).map
    (fun t => (t.phase, t.status, t.finfo, t.fpc, t.outLen)) = some (.faulted, 4#3, 3#8, 0, 0) := by decide +kernel
/-- R249: the input stays as it is while an operation runs. -/
theorem test_step_load_refused : step { running 0 [1#8] with host := [.load []] } =
    .refused .inputChangedWhileBusy := rfl
/-- A table word runs as the first instruction after reset: RUN of one literal. -/
theorem test_step_table_word : (next (step (State.reset.withFetchWord 16 0xAB01))).map
    (fun t => (t.ip, t.grp, t.dict.wc)) = some (2, [0xAB#8], 1#8) := by decide +kernel

/-- R29, R41: `phase` after `reset`, in an operation, at its normal end and at a fault. -/
theorem test_phase_codes : State.reset.signals.phase = 0b00#2 ∧ (running 0 []).signals.phase = 0b01#2 ∧
    (next (step (running 0 []))).map (·.signals.phase) = some 0b10#2 ∧
    (next (step (running 1 []))).map (·.signals.phase) = some 0b11#2 := by decide +kernel

/-! The textual syntax (R102, section 3 and program G1 of the vectors) -/

theorem test_assemble_stream :
    assembleStream "RUN 01 02 03 ; 03 01 02 03\nCACHE 3, 2\n\nEND".toList =
      some [0x03#8, 0x01#8, 0x02#8, 0x03#8, 0x80#8, 0x02#8, 0x00#8] := by decide +kernel
theorem test_assemble_cache : assembleStream "CACHE 130, 0x37".toList = some [0xFF#8, 0x37#8] ∧
    assembleStream "CACHE 2, 0".toList = none ∧ assembleStream "RUN".toList = none := by decide +kernel
theorem test_assemble_operations : assemble "PUSH 0xAB\nREAD 256\nFIND [AB AB AB]\nDECOMPRESSNOBUF".toList =
    some [.push 0xAB#8, .read 256, .find [0xAB#8, 0xAB#8, 0xAB#8], .decompressNobuf] := by decide +kernel

/-! Witnesses: states and operands that meet the hypotheses of each statement -/

/-- A running state meets the invariant. -/
theorem running_inv {op : BitVec 2} (h : op ≠ 3#2) (bytes : List Byte) : Inv (running op bytes) :=
  ⟨Memory.spans_ofBytes bytes, rfl, ⟨rfl, rfl⟩, fun _ e => (by cases e), fun _ => Nat.zero_le _, Nat.zero_le _,
    Nat.zero_le _, Nat.zero_lt_succ _, (by simp [running, loaded, State.reset]), Nat.zero_le _,
    (by simp [running, loaded, State.reset]), fun _ => rfl, fun e => absurd e h⟩

theorem witness_ResetRestoresEveryElement : ∃ (s : State) (rest : List HostAction), s.host = .reset :: rest ∧
    s.phase = .busy ∧ s.ip = 1 := ⟨{ running 1 [1#8, 2#8] with host := [.reset], ip := 1 }, [], rfl, rfl, rfl⟩
theorem witness_StartInitialisesAndSelects : ∃ s u v w x : State,
    (s.phase = .busy ∧ s.host = [.start 3#2]) ∧ (u.phase = .busy ∧ u.host = [.startStepped 0#2]) ∧
    (v.phase = .busy ∧ Instr.compress ≠ .decompress) ∧ (w.phase ≠ .busy ∧ w.host = [.startStepped 2#2] ∧ 2#2 ≠ 3#2) ∧
    (x.phase ≠ .busy ∧ x.phase = .faulted ∧ x.host = [.startStepped 3#2]) :=
  ⟨{ running 2 [] with host := [.start 3] }, { running 1 [] with host := [.startStepped 0] }, running 0 [7#8],
    { loaded [] with host := [.startStepped 2] },
    { loaded [] with host := [.startStepped 3], phase := .faulted, status := 1 }, by decide⟩
theorem witness_ReservedSelectRaisesInvalidOperation : ∃ s u : State, (s.phase ≠ .busy ∧ s.host = [.start 3#2]) ∧
    (u.phase ≠ .busy ∧ u.host = [.startStepped 3#2]) :=
  ⟨{ loaded [] with host := [.start 3] }, { loaded [] with host := [.startStepped 3] }, by decide⟩
theorem witness_HostProtocolByPhase :
    (∃ s u : State, s.host = [.load [7#8]] ∧ s.phase = .busy ∧ u.host = [.load [7#8]] ∧ u.phase ≠ .busy) ∧
    (∃ s : State, s.host = [.readPhase]) ∧
    (∃ s u : State, s.host = [.readStatus] ∧ s.phase = .busy ∧ u.host = [.readStatus] ∧ u.phase ≠ .busy) ∧
    (∃ s u : State, s.host = [.readResult] ∧ s.phase = .done ∧ u.host = [.readResult] ∧ u.phase ≠ .done) ∧
    (∃ s u : State, s.host = [.readFault] ∧ s.phase = .faulted ∧ u.host = [.readFault] ∧ u.phase ≠ .faulted) :=
  ⟨⟨{ running 0 [] with host := [.load [7#8]] }, { loaded [] with host := [.load [7#8]] }, by decide⟩,
   ⟨{ loaded [] with host := [.readPhase] }, rfl⟩,
   ⟨{ running 0 [] with host := [.readStatus] }, { loaded [] with host := [.readStatus] }, by decide⟩,
   ⟨{ loaded [] with host := [.readResult], phase := .done }, { loaded [] with host := [.readResult] }, by decide⟩,
   ⟨{ loaded [] with host := [.readFault], phase := .faulted }, { loaded [] with host := [.readFault] }, by decide⟩⟩
theorem witness_BlockWaitsOutsideBusy : ∃ s u : State, (s.phase ≠ .busy ∧ s.port = [] ∧ s.host = []) ∧
    (u.phase = .done ∧ u.port = [] ∧ u.host = [.quiet]) :=
  ⟨loaded [], { loaded [] with phase := .done, host := [.quiet] }, by decide⟩
theorem witness_StepRunsTheDecodedInstruction :
    (∃ (s : State) (c : Command), c.toInstr.wellFormed = true ∧ s.phase = .busy ∧ (s.op = 1#2 ∨ s.op = 2#2) ∧
      s.inputOk = true ∧ s.port = [] ∧ s.holdsAt s.ip c.bytes ∧ s.host = []) ∧
    (∃ (s : State) (c : Command), c.toInstr.wellFormed = true ∧ s.phase = .busy ∧ (s.op = 1#2 ∨ s.op = 2#2) ∧
      s.inputOk = true ∧ s.port = [] ∧ s.holdsAt s.ip c.bytes ∧ s.host = [.quiet]) ∧
    (∃ s : State, decode (.op 0#2) = .instr .compress [] ∧ s.host = [.start 0#2]) ∧
    (∃ (s : State) (q : PortRequest), decode (.dop q) = .instr .snapshot [] ∧ s.host = [] ∧ s.port = [q]) :=
  ⟨⟨running 1 [0x81#8, 6#8, 0#8], .cache 1 6, by unfold State.holdsAt; decide⟩,
   ⟨{ running 2 [0#8] with host := [.quiet] }, .endStream, by unfold State.holdsAt; decide⟩,
   ⟨{ loaded [] with host := [.start 0] }, by decide⟩,
   ⟨{ loaded [] with port := [⟨2, 0, 0, []⟩] }, ⟨2, 0, 0, []⟩, by decide⟩⟩
theorem witness_TableWordIsRunByTheNextStep : decodeTableWord 2 0 = some .compress ∧
    decodeTableWord 3 1 = some (.read 0) ∧ decodeTableWord 16 0x0081 = some (.cache 1#7 0#8) ∧
    State.reset.inputOk = true ∧ State.reset.ip ≤ State.reset.inLen := by decide +kernel
theorem witness_DecodeOfEncodeIsTheInstruction : (Instr.run [0#8]).wellFormed = true ∧
    (Instr.run (bytesFrom 0 127)).wellFormed = true ∧ (Instr.find [0#8]).wellFormed = true ∧
    (Instr.find (bytesFrom 0 130)).wellFormed = true ∧ Instr.endStream.wellFormed = true ∧
    encode .endStream = .stream [0#8] := by decide +kernel
theorem witness_EncodeOfDecodeIsTheBytes :
    decodeStream [1#8, 7#8, 9#8] = .command (.run [7#8]) [9#8] ∧
    decodeStream [3#8, 1#8] = .truncated (.run [1#8, 0#8, 0#8]) ∧ decodeStream [] = .missing := by decide
theorem witness_FirstByteDecidesTheCommand :
    (1#8 ≠ 0#8 ∧ (1#8).toNat < 128 ∧ (1#8).toNat ≤ [5#8].length) ∧
    (127#8 ≠ 0#8 ∧ (127#8).toNat < 128 ∧ [5#8].length < (127#8).toNat) ∧
    128 ≤ (128#8).toNat ∧ 128 ≤ (255#8).toNat := by decide
theorem witness_OperandFieldsAssemble : (3 ≤ 3 ∧ 3 ≤ 130) ∧ (3 ≤ 130 ∧ 130 ≤ 130) ∧ 0 ≤ 127 ∧ 127 ≤ 127 := by decide
theorem witness_ReservedDictSelectIsRefused : ∃ (s u : State) (p q : PortRequest),
    (5 ≤ p.dop.toNat ∧ s.host = [] ∧ s.port = [p]) ∧ (q.dop = 7#3 ∧ 5 ≤ q.dop.toNat ∧ u.host = [] ∧ u.port = [q]) :=
  ⟨{ loaded [] with port := [⟨5, 0, 0, []⟩] }, { running 0 [] with port := [⟨7, 0, 0, []⟩] }, ⟨5, 0, 0, []⟩,
    ⟨7, 0, 0, []⟩, by decide⟩
theorem witness_RestoreCopiesTheShadowBack : ∃ s u v : State, (s.shadow = some (dictOf [1#8])) ∧ u.shadow = none ∧
    exec .snapshot u = .next v ∧ ∃ t, exec (.find [1#8]) s = .next t :=
  ⟨{ loaded [] with shadow := some (dictOf [1#8]) }, loaded [], (loaded []).takeSnapshot, rfl, rfl, rfl, _, rfl⟩
theorem witness_FindReportsTheFirstPlayback : (1 ≤ [0#8].length ∧ [0#8].length ≤ 130) ∧
    1 ≤ (bytesFrom 0 130).length ∧ (bytesFrom 0 130).length ≤ 130 := by decide +kernel
theorem witness_FindRefusesOtherLengths : ([] : List Byte).length = 0 ∧ 130 < (bytesFrom 0 131).length := by
  decide +kernel
theorem witness_FoundSequencesHaveFoundPrefixes : [0xAB#8] ≠ [] ∧
    (dictOf [0xAB#8]).search ([0xAB#8] ++ [0xAB#8]) = some 0#8 := by decide +kernel
theorem witness_FindIsTranslationInvariant : ∃ (w v : Dict) (r : Byte), v.wc = w.wc + r ∧
    (∀ i, v.read (i + r) = w.read i) ∧ w.search [0xAB#8] = some 0#8 :=
  ⟨dictOf [0xAB#8], ⟨[(5, 0xAB#8)], 6#8⟩, 5#8, by decide +kernel⟩
theorem witness_EndStopsAndWarns : ∃ s t u v : State,
    (s.ip < s.inLen ∧ s.op ≠ 2#2 ∧ s.grp.length = 1) ∧ (t.ip < t.inLen ∧ t.op ≠ 2#2 ∧ t.grp.length = 3) ∧
    (u.ip < u.inLen ∧ u.op = 2#2) ∧ (v.ip < v.inLen ∧ v.grp = []) :=
  ⟨{ running 1 [0#8] with grp := [1#8] }, { running 1 [0#8] with grp := [1#8, 2#8, 3#8] }, running 2 [0#8],
    running 1 [0#8], by decide⟩
theorem witness_RunProducesItsLiterals : ∃ (l m : List Byte) (s t : State),
    ((Instr.run l).wellFormed = true ∧ l.length = 1 ∧ s.grp.length < 4 ∧ s.ip + 1 + l.length ≤ s.inLen) ∧
    ((Instr.run m).wellFormed = true ∧ m.length = 127 ∧ t.grp.length = 3 ∧ t.grp.length < 4 ∧
      t.ip + 1 + m.length ≤ t.inLen) :=
  ⟨[5#8], bytesFrom 0 127, running 2 [1#8, 5#8],
    { running 1 (127#8 :: bytesFrom 0 127) with grp := [1#8, 2#8, 3#8] }, by decide +kernel⟩
theorem witness_RunWithAMissingLiteralIsTruncated : ∃ (l : List Byte) (s t : State),
    (Instr.run l).wellFormed = true ∧ (s.grp.length < 4 ∧ s.ip < s.inLen ∧ s.inLen = s.ip + 1 ∧
      s.inLen < s.ip + 1 + l.length) ∧
    (t.grp.length < 4 ∧ t.ip < t.inLen ∧ t.inLen + 1 = t.ip + 1 + l.length ∧ t.inLen < t.ip + 1 + l.length) :=
  ⟨[1#8, 2#8, 0#8], running 1 [3#8], running 1 [3#8, 1#8, 2#8], by decide⟩
theorem witness_CacheCopiesFromTheDictionary : ∃ (s t : State) (bs cs : List Byte),
    (s.grp.length < 4 ∧ s.ip + 1 < s.inLen ∧
      s.dict.playback (s.dict.wc - 0#8 - 1#8) ((0#7).toNat + 3) = some bs) ∧
    (t.grp.length < 4 ∧ t.ip + 1 < t.inLen ∧
      t.dict.playback (t.dict.wc - 255#8 - 1#8) ((127#7).toNat + 3) = some cs) :=
  ⟨{ running 1 [0x80#8, 0#8] with dict := dictOf [7#8] },
    { running 2 [0xFF#8, 0xFF#8] with dict := dictOf (bytesFrom 0 256) }, [7#8, 7#8, 7#8], bytesFrom 0 130,
    by decide +kernel⟩
theorem witness_CacheOfAnEmptySlotIsUndefined : ∃ s : State, s.grp.length < 4 ∧ s.ip + 1 < s.inLen ∧
    s.dict.playback (s.dict.wc - 1#8 - 1#8) ((0#7).toNat + 3) = none :=
  ⟨{ running 1 [0x80#8, 1#8] with dict := dictOf [7#8] }, by decide +kernel⟩
theorem witness_CacheWithoutItsOffsetIsTruncated : ∃ s : State, s.ip + 1 = s.inLen := ⟨running 1 [0x80#8], by decide⟩
theorem witness_MissingCommandByteIsTruncated : ∃ s u : State,
    (s.phase = .busy ∧ s.op = 1#2 ∧ s.inputOk = true ∧ s.port = [] ∧ s.host = [] ∧ s.ip = s.inLen) ∧
    (u.phase = .busy ∧ u.op = 2#2 ∧ u.inputOk = true ∧ u.port = [] ∧ u.host = [] ∧ u.ip = u.inLen) :=
  ⟨running 1 [], running 2 [], by decide⟩
theorem witness_MissingOperandsAreNeverUsed : ∃ (s : State) (l m : List Byte), l.length = m.length ∧ l ≠ m ∧
    s.inLen < s.ip + 1 + l.length ∧ l.take (s.inLen - s.ip - 1) = m.take (s.inLen - s.ip - 1) ∧
    ∃ u : State, u.inLen ≤ u.ip + 1 :=
  ⟨running 1 [2#8, 7#8], [7#8, 0#8], [7#8, 9#8], by decide, by decide, by decide, by decide, running 1 [0x80#8],
    by decide⟩
theorem witness_DecompressionOutputsTheLogicalOutput : ∃ (s : State) (cs : List Command) (rest P : List Byte),
    s.phase ≠ .busy ∧ (∀ c ∈ cs, c.isChunk = true) ∧ s.inMem.holds s.inLen (streamBytes cs ++ 0x00#8 :: rest) ∧
    logicalOutput cs = some P ∧ P.length % 4 ≠ 0 ∧ rest ≠ [] :=
  ⟨loaded [1#8, 0xAB#8, 0x81#8, 0#8, 0#8, 9#8, 8#8], [.run [0xAB#8], .cache 1 0], [9#8, 8#8],
    List.replicate 5 0xAB#8, by decide, by decide, ⟨rfl, rfl⟩, by decide, by decide, by decide⟩
theorem witness_DecompressionFaultsOnAnUndefinedCopy : ∃ (s : State) (cs : List Command) (c : Command)
    (rest hist : List Byte), s.phase ≠ .busy ∧ (∀ d ∈ cs, d.isChunk = true) ∧ c.isChunk = true ∧
    s.inMem.holds s.inLen (streamBytes cs ++ c.bytes ++ rest) ∧ logicalOutput cs = some hist ∧ c.extend hist = none :=
  ⟨loaded [1#8, 0x11#8, 0x80#8, 1#8, 0#8], [.run [0x11#8]], .cache 0 1, [0#8], [0x11#8], by decide, by decide, rfl,
    ⟨rfl, rfl⟩, rfl, by decide⟩
theorem witness_DecompressionFaultsOnATruncatedStream : ∃ (s u : State) (cs : List Command) (c : Command)
    (part hist : List Byte), (s.phase ≠ .busy ∧ (∀ d ∈ cs, d.isChunk = true) ∧ c.isChunk = true ∧
    part.length < c.bytes.length ∧ part = c.bytes.take part.length ∧
    s.inMem.holds s.inLen (streamBytes cs ++ part) ∧ logicalOutput cs = some hist) ∧
    (u.phase ≠ .busy ∧ ([] : List Byte).length < c.bytes.length ∧ u.inMem.holds u.inLen (streamBytes cs ++ [])) :=
  ⟨loaded [1#8, 0xAA#8, 3#8, 1#8], loaded [1#8, 0xAA#8], [.run [0xAA#8]], .run [1#8, 2#8, 3#8], [3#8, 1#8], [0xAA#8],
    ⟨by decide, by decide, rfl, by decide, by decide, ⟨rfl, rfl⟩, rfl⟩, by decide, by decide, ⟨rfl, rfl⟩⟩
theorem witness_DecompressionAlwaysEnds : ∃ s : State, s.phase ≠ .busy ∧ s.inputOk = true :=
  ⟨loaded [0x80#8], by decide⟩
theorem witness_CompressEncodesEveryInput : ∃ (s : State) (S : List Byte), s.phase ≠ .busy ∧
    s.inMem.holds s.inLen S ∧ S ≠ [] := ⟨loaded [1#8], [1#8], by decide, ⟨rfl, rfl⟩, by decide⟩
theorem witness_RoundTripForEveryInput : ∃ (s u t : State) (S : List Byte), s.phase ≠ .busy ∧
    s.inMem.holds s.inLen S ∧ exec .compress s = .next t ∧ u.phase ≠ .busy ∧ u.inMem = t.outMem ∧
    u.inLen = t.outLen := by
  refine ⟨loaded [7#8], loaded [1#8, 7#8, 0#8], (next (exec .compress (loaded [7#8]))).getD State.reset, [7#8],
    by decide, ⟨rfl, rfl⟩, eq_next (by decide +kernel), ?_⟩
  decide +kernel
theorem witness_ChunksKeepTheDictionariesInLockstep : ∃ (s u : State) (S : List Byte), s.phase = .busy ∧
    s.op = 0#2 ∧ s.port = [] ∧ s.host = [] ∧ s.inMem.holds s.inLen S ∧ s.ip < S.length ∧ u.dict = s.dict ∧
    u.grp.length < 4 ∧ u.ip + (Command.run S).bytes.length ≤ u.inLen :=
  ⟨running 0 [7#8], running 1 [1#8, 7#8, 0#8], [7#8], rfl, rfl, rfl, rfl, ⟨rfl, rfl⟩, by decide, rfl, by decide,
    by decide⟩
theorem witness_CacheChunkIsTheLongestMatch : ∃ (s : State) (S : List Byte), s.inMem.holds s.inLen S ∧
    s.decideMode.1 = .cache ∧ s.phase = .busy ∧ s.op = 0#2 ∧ s.port = [] ∧ s.host = [] :=
  ⟨{ running 0 [7#8, 7#8, 7#8, 7#8] with dict := dictOf [7#8], ip := 1 }, [7#8, 7#8, 7#8, 7#8], ⟨rfl, rfl⟩,
    by decide +kernel⟩
theorem witness_LongProbeAloneDecides : ∃ (s u : State) (S : List Byte),
    (s.inMem.holds s.inLen S ∧ s.ip + 3 = S.length ∧ s.ip < S.length) ∧
    (u.inMem.holds u.inLen S ∧ S.length ≤ u.ip ∧ u.shadow ≠ none) :=
  ⟨running 0 [7#8, 7#8, 7#8], { running 0 [7#8, 7#8, 7#8] with ip := 3, shadow := some (dictOf []) },
    [7#8, 7#8, 7#8], ⟨⟨rfl, rfl⟩, rfl, by decide⟩, ⟨rfl, rfl⟩, by decide, by decide⟩
/-- One state for each of the three ends of a RUN: 127 literals, the end of the input, DECIDE = CACHE. -/
theorem witness_RunChunkEndsAtTheFirstLimit : ∃ (s u v : State) (S U V : List Byte),
    (s.inMem.holds s.inLen S ∧ s.ip < S.length ∧ s.decideMode.1 = .run ∧ S.length = 128 ∧ RunEndsAt S s 127) ∧
    (u.inMem.holds u.inLen U ∧ u.ip < U.length ∧ u.decideMode.1 = .run ∧ RunEndsAt U u 2) ∧
    (v.inMem.holds v.inLen V ∧ v.ip < V.length ∧ v.decideMode.1 = .run ∧ RunEndsAt V v 1 ∧ V.length = 4 ∧
      v.phase = .busy ∧ v.op = 0#2 ∧ v.port = [] ∧ v.host = []) :=
  ⟨running 0 (bytesFrom 0 128), running 0 [1#8, 2#8], running 0 [7#8, 7#8, 7#8, 7#8], bytesFrom 0 128, [1#8, 2#8],
    [7#8, 7#8, 7#8, 7#8], ⟨⟨rfl, rfl⟩, by decide +kernel, by decide +kernel, by decide +kernel, .inl rfl⟩,
    ⟨⟨rfl, rfl⟩, by decide, by decide +kernel, .inr (.inl rfl)⟩, ⟨rfl, rfl⟩, by decide, by decide +kernel,
    .inr (.inr (by decide +kernel)), rfl, rfl, rfl, rfl, rfl⟩
theorem witness_OutputSignalsCarryTheRegisters : ∃ s t u v w x : State, s.outMem.holds s.outLen [5#8, 6#8] ∧
    t.host = [.reset] ∧ (u.phase ≠ .busy ∧ u.host = [.startStepped 0#2] ∧ 0#2 ≠ 3#2) ∧
    (v.phase ≠ .busy ∧ v.host = [.startStepped 3#2]) ∧
    (Inv w ∧ w.phase = .busy ∧ w.host = [] ∧ w.port = [] ∧ step w = .next x) :=
  ⟨{ loaded [] with outMem := Memory.ofBytes [5#8, 6#8], outLen := 2 }, { loaded [] with host := [.reset] },
    { loaded [] with host := [.startStepped 0] }, { loaded [] with host := [.startStepped 3] }, running 1 [0#8],
    (next (step (running 1 [0#8]))).getD State.reset, ⟨rfl, rfl⟩, rfl, by decide, by decide,
    running_inv (by decide) _, rfl, rfl, rfl, eq_next (by decide +kernel)⟩
theorem witness_OperationsLeaveTheOtherEngineAtReset : ∃ s t u v : State, s.phase ≠ .busy ∧
    exec .compress s = .next t ∧ exec .decompress s = .next u ∧ exec .decompressNobuf s = .next v := by
  refine ⟨loaded [0#8], (next (exec .compress (loaded [0#8]))).getD State.reset,
    (next (exec .decompress (loaded [0#8]))).getD State.reset,
    (next (exec .decompressNobuf (loaded [0#8]))).getD State.reset, ?_⟩
  exact ⟨by decide, eq_next (by decide +kernel), eq_next (by decide +kernel), eq_next (by decide +kernel)⟩
theorem witness_OperationDependsOnTheInputOnly : ∃ s t : State, s.phase ≠ .busy ∧ t.phase ≠ .busy ∧
    s.inMem = t.inMem ∧ s.inLen = t.inLen ∧ s.dict ≠ t.dict :=
  ⟨loaded [1#8], { loaded [1#8] with dict := dictOf [7#8], phase := .done }, by decide⟩
theorem witness_StepwiseRunEqualsWholeOperation : ∃ s : State, s.phase ≠ .busy := ⟨State.reset, by decide⟩
theorem witness_EveryStepKeepsTheInvariant : ∃ s t : State, Inv s ∧ step s = .next t ∧ t ≠ s :=
  ⟨running 1 [0#8], (next (step (running 1 [0#8]))).getD State.reset, running_inv (by decide) _,
    eq_next (by decide +kernel), by decide +kernel⟩
theorem witness_NoInstructionWritesTheInput : ∃ s t : State, exec .endStream s = .next t :=
  ⟨running 1 [0#8], _, rfl⟩
theorem witness_OutputIsAppendOnly : ∃ s t : State, Inv s ∧ s.phase = .busy ∧ s.host = [] ∧ step s = .next t ∧
    s.outLen < t.outLen :=
  ⟨running 0 [], (next (step (running 0 []))).getD State.reset, running_inv (by decide) _, rfl, rfl,
    eq_next (by decide +kernel), by decide +kernel⟩
theorem witness_OnlyEndRaisesTheWarning : ∃ s t : State, exec .endStream s = .next t ∧ s.warn = false ∧
    t.warn = true := ⟨{ running 1 [0#8] with grp := [1#8] }, _, rfl, rfl, rfl⟩
theorem witness_DoneIsReachedInTwoWays : ∃ s u t v : State,
    (Inv s ∧ s.phase = .busy ∧ s.host = [] ∧ s.port = [] ∧ step s = .next t ∧ s.op = 0#2 ∧ s.ip = s.inLen) ∧
    (Inv u ∧ u.phase = .busy ∧ u.host = [] ∧ u.port = [] ∧ step u = .next v ∧ u.op ≠ 0#2 ∧
      u.inByte u.ip = some 0#8) :=
  ⟨running 0 [], running 1 [0#8], (next (step (running 0 []))).getD State.reset,
    (next (step (running 1 [0#8]))).getD State.reset, ⟨running_inv (by decide) _, rfl, rfl, rfl,
      eq_next (by decide +kernel), rfl, rfl⟩,
    running_inv (by decide) _, rfl, rfl, rfl, eq_next (by decide +kernel), by decide, by decide⟩
theorem witness_EveryPassEndsOrConsumesInput : ∃ s t : State, Inv s ∧ s.phase = .busy ∧ s.host = [] ∧ s.port = [] ∧
    step s = .next t ∧ t.phase = .busy :=
  ⟨running 1 [1#8, 7#8], (next (step (running 1 [1#8, 7#8]))).getD State.reset, running_inv (by decide) _, rfl, rfl,
    rfl, eq_next (by decide +kernel), by decide +kernel⟩
theorem witness_RunningOperationsFaultPrecisely : ∃ s t : State, Inv s ∧ s.phase = .busy ∧ s.host = [] ∧
    s.port = [] ∧ step s = .next t ∧ t.phase = .faulted :=
  ⟨running 1 [0x80#8], (next (step (running 1 [0x80#8]))).getD State.reset, running_inv (by decide) _, rfl, rfl,
    rfl, eq_next (by decide +kernel), by decide +kernel⟩
theorem witness_EngineLeavesNoSnapshotHeld : ∃ s t : State, s.phase = .busy ∧ s.host = [] ∧ s.port = [] ∧
    s.shadow = none ∧ step s = .next t :=
  ⟨running 0 [7#8], (next (step (running 0 [7#8]))).getD State.reset, rfl, rfl, rfl, rfl,
    eq_next (by decide +kernel)⟩
theorem witness_CommandsAdvanceByTheirLength : ∃ s t : State, (Command.cache 0 0).toInstr.wellFormed = true ∧
    exec (Command.cache 0 0).toInstr s = .next t ∧ s.phase ≠ .faulted ∧ t.phase ≠ .faulted := by
  refine ⟨{ running 1 [0x80#8, 0#8] with dict := dictOf [7#8] },
    (next (exec (.cache 0 0) { running 1 [0x80#8, 0#8] with dict := dictOf [7#8] })).getD State.reset, ?_⟩
  exact ⟨rfl, eq_next (by decide +kernel), by decide, by decide +kernel⟩
theorem witness_CursorOriginIsUnobservable : ∃ (s u t : State), RotatedBy 5#8 s u ∧ s.phase = .busy ∧ s.host = [] ∧
    s.port = [] ∧ u.host = [] ∧ u.port = [] ∧ s.inputOk = true ∧ s.op ≠ 3#2 ∧ step s = .next t := by
  refine ⟨{ running 1 [0x80#8, 0#8] with dict := dictOf [7#8] },
    { running 1 [0x80#8, 0#8] with dict := ⟨[(5, 7#8)], 6#8⟩ },
    (next (step { running 1 [0x80#8, 0#8] with dict := dictOf [7#8] })).getD State.reset, ?_, rfl, rfl, rfl,
    rfl, rfl, by decide, by decide, eq_next (by decide +kernel)⟩
  constructor
  case slots => decide +kernel
  all_goals decide +kernel

end Sys2Proof.Machine.Tests
end

section
/-! SUPPORT. What a pass, a request on the dictionary port, an operation and a step each change, and that they keep the
invariant (10_state.md). -/

namespace Sys2Proof.Machine

/-! ## What one pass of a running operation changes -/

/-- A pass of an operation that answers a next state is one of the passes `Passed` lists. -/
theorem Passed.of_enginePass {s t : State} (h3 : s.op ≠ 3#2) (h : s.enginePass = .next t) :
    ∃ S, s.inMem.holds s.inLen S ∧ Passed S s t := by
  cases hok : s.inputOk with
  | false =>
    unfold State.enginePass at h
    rw [hok, if_pos (by simp)] at h
    cases h
  | true =>
    obtain ⟨S, hS⟩ := State.inputOk_iff.1 hok
    obtain ⟨u, hu, hp⟩ := State.enginePass_passed hS h3
    rw [h] at hu
    cases hu
    exact ⟨S, hS, hp⟩

variable {S : List Byte} {s t : State}

/-- A pass leaves in `OUT` what appending some bytes leaves there. -/
theorem Passed.appends (h : Passed S s t) : ∃ ys,
    t.outMem = (s.outAppendAll ys).outMem ∧ t.outLen = (s.outAppendAll ys).outLen := by
  cases h with
  | chunk _ _ c xs m hc =>
    refine ⟨c.bytes, hc.outMem.trans (State.outAppendAll_outMem_congr _ rfl rfl), ?_⟩
    rw [State.outAppendAll_outLen]
    exact hc.outLen
  | terminator _ _ he => exact ⟨[0x00#8], by rw [he]; exact ⟨rfl, rfl⟩⟩
  | command _ c hr =>
    obtain ⟨bs, -, hm, hl, -⟩ := hr.produced
    obtain ⟨ys, hm', hl'⟩ := State.produceAll_appends bs s
    exact ⟨ys, hm.trans hm', hl.trans hl'⟩

/-- A pass changes the dictionary by pushes only. -/
theorem Passed.pushes (h : Passed S s t) : ∃ bs, t.dict = s.dict.pushAll bs := by
  cases h with
  | chunk _ _ c xs m hc => exact ⟨xs, hc.dict⟩
  | terminator _ _ he => exact ⟨[], by rw [he]; rfl⟩
  | command _ c hr =>
    obtain ⟨bs, hd, -⟩ := hr.produced
    exact ⟨bs, hd⟩

/-- A pass leaves no snapshot held that was not held before. -/
theorem Passed.shadowDropped (h : Passed S s t) : ShadowDropped s t := by
  cases h with
  | chunk _ _ c xs m _ hs => exact hs
  | terminator _ _ he => exact .inr (by rw [he]; rfl)
  | command _ c hr => exact .inr hr.keeps.shadow

/-- Nor does any move of the engine: the reserved select takes no snapshot. -/
theorem State.enginePass_shadow (h : s.enginePass = .next t) : ShadowDropped s t := by
  by_cases h3 : s.op = 3#2
  · unfold State.enginePass at h
    split at h
    · cases h
    · rw [if_neg (by simp [h3]), if_neg (by simp [h3])] at h
      cases h
      exact .inr rfl
  · obtain ⟨S, -, hp⟩ := Passed.of_enginePass h3 h
    exact hp.shadowDropped

/-- The literal and candidate buffers stay within a chunk's limits (R34, R35). -/
theorem Passed.buffers (h : Passed S s t) :
    (t.lit.length ≤ 127 ∨ t.lit = s.lit) ∧ (t.cand.length ≤ 130 ∨ t.cand = s.cand) := by
  cases h with
  | chunk _ _ c xs m hc => exact ⟨hc.lit, hc.cand⟩
  | terminator _ _ he => exact ⟨.inr (by rw [he]; rfl), .inr (by rw [he]; rfl)⟩
  | command _ c hr => exact ⟨.inr hr.keeps.lit, .inr hr.keeps.cand⟩

/-- The group never fills: at four bytes it is written out (R37). -/
theorem Passed.group_lt (h : Passed S s t) (hg : s.grp.length < 4) : t.grp.length < 4 := by
  cases h with
  | chunk _ _ c xs m hc => rw [hc.keeps.grp]; exact hg
  | terminator _ _ he => rw [he]; exact hg
  | command _ c hr =>
    obtain ⟨bs, -, -, -, hgrp | hgrp⟩ := hr.produced
    · rw [hgrp]; exact (Delivered.produceAll bs hg).group_lt hg
    · rw [hgrp]; decide

/-- Buffered decompression writes whole groups of four (R189). -/
theorem Passed.wholeGroups (h : Passed S s t) (hop : s.op = 1#2) (hg : s.grp.length < 4)
    (hl : s.outLen % 4 = 0) : t.outLen % 4 = 0 := by
  cases h with
  | chunk h0 => rw [hop] at h0; cases h0
  | terminator h0 => rw [hop] at h0; cases h0
  | command _ c hr =>
    obtain ⟨bs, -, -, hlen, -⟩ := hr.produced
    have hd := Delivered.produceAll bs hg
    unfold Delivered at hd
    rw [if_neg (by rw [hop]; decide)] at hd
    obtain ⟨⟨happ, -⟩, -⟩ := hd
    rw [hlen, happ, List.length_take]
    omega

/-- A pass of a running operation without a fault so far leaves a fault's number in `STATUS` exactly when it ends
FAULTED, the number being one of R210 (R30). -/
theorem Passed.status (h : Passed S s t) (hb : s.phase = .busy) (h0 : s.status = 0#3) :
    (t.status = 0#3 ∧ t.phase ≠ .faulted) ∨ ((t.status = 1#3 ∨ t.status = 3#3) ∧ t.phase = .faulted) := by
  cases h with
  | chunk _ _ c xs m hc => exact .inl ⟨hc.keeps.status.trans h0, by rw [hc.keeps.phase]; simp [hb]⟩
  | terminator _ _ he => exact .inl (by rw [he]; exact ⟨h0, by simp⟩)
  | command _ c hr =>
    cases hr.ending with
    | completes _ hp hs => exact .inl ⟨hs.trans h0, by simp [hp, hb]⟩
    | ends _ hp hs => exact .inl ⟨hs.trans h0, by simp [hp]⟩
    | faults hp hs => exact .inr ⟨hs, hp⟩

/-- Only an END of buffered decompression with bytes pending writes `WARN` and `DROPPED` (R31, R184). -/
theorem Passed.flags (h : Passed S s t) : (t.warn = s.warn ∧ t.dropped = s.dropped) ∨
    (s.op = 1#2 ∧ s.grp ≠ [] ∧ t.warn = true ∧ t.dropped = BitVec.ofNat 2 s.grp.length) := by
  cases h with
  | chunk _ _ c xs m hc => exact .inl ⟨hc.keeps.warn, hc.keeps.dropped⟩
  | terminator _ _ he => exact .inl (by rw [he]; exact ⟨rfl, rfl⟩)
  | command hop c hr =>
    cases hr.ending with
    | completes _ _ _ _ _ hw hd => exact .inl ⟨hw, hd⟩
    | faults _ _ _ _ _ hw hd => exact .inl ⟨hw, hd⟩
    | ends _ _ _ _ _ hf =>
      rcases hf with hf | ⟨h2, hg, hw, hd⟩
      · exact .inl hf
      · exact .inr ⟨hop.resolve_right h2, hg, hw, hd⟩

/-- A pass of a running operation never leaves the block IDLE. -/
theorem Passed.phase_ne_idle (h : Passed S s t) (hb : s.phase = .busy) : t.phase ≠ .idle := by
  cases h with
  | chunk _ _ c xs m hc => rw [hc.keeps.phase]; simp [hb]
  | terminator _ _ he => rw [he]; simp
  | command _ c hr =>
    cases hr.ending with
    | completes _ hp => simp [hp, hb]
    | ends _ hp => simp [hp]
    | faults hp => simp [hp]

/-- The reserved select makes no pass. -/
theorem Passed.op_ne_reserved (h : Passed S s t) : s.op ≠ 3#2 := by
  cases h with
  | chunk h0 => simp [h0]
  | terminator h0 => simp [h0]
  | command h12 => rcases h12 with h | h <;> simp [h]

/-! ## What a request on the dictionary port changes -/

/-- What a request on the dictionary port can do to the state (R120 to R124). -/
inductive Served (s t : State) : Prop where
  | push (b : Byte) (is : t = s.push b)
  | read (v : Slot) (is : t = { s with readOut := v })
  | snapshot (is : t = s.takeSnapshot)
  | restore (held : Dict) (wasHeld : s.shadow = some held) (is : t = s.restoreFrom held)
  | find (seq : List Byte) (is : t = s.find seq)

/-- The instructions of the dictionary controller (R101). -/
def isDictOp : Instr → Bool
  | .push _ | .read _ | .snapshot | .restore | .find _ => true
  | _ => false

theorem isDictOp_of_decodeDop {q : PortRequest} {i : Instr} (h : decodeDop q = some i) : isDictOp i = true := by
  unfold decodeDop at h
  split_ifs at h <;> cases h <;> rfl

/-- An instruction of the dictionary controller that answers a next state did one of these. -/
theorem exec_served {i : Instr} (hi : isDictOp i = true) (h : exec i s = .next t) : Served s t := by
  cases i with
  | push b => cases h; exact .push b rfl
  | read i => cases h; exact .read _ rfl
  | snapshot => cases h; exact .snapshot rfl
  | restore =>
    simp only [exec, execRestore] at h
    split at h
    · cases h; exact .restore _ ‹_› rfl
    · cases h
  | find seq =>
    simp only [exec, execFind] at h
    split at h
    · cases h; exact .find seq rfl
    · cases h
  | endStream | run | cache | compress | decompress | decompressNobuf => cases hi

theorem servePort_served {q : PortRequest} (h : servePort q s = .next t) : Served s t := by
  unfold servePort at h
  split at h
  · exact exec_served (isDictOp_of_decodeDop ‹_›) h
  · cases h

/-- The dictionary port reaches the dictionary, the shadow, the search result and the read value only. -/
theorem Served.frame (h : Served s t) :
    ∃ w g f v, t = { s with dict := w, shadow := g, fres := f, readOut := v } := by
  cases h with
  | push b e => exact ⟨_, _, _, _, e⟩
  | read v e => exact ⟨_, _, _, _, e⟩
  | snapshot e => exact ⟨_, _, _, _, e⟩
  | restore held _ e => exact ⟨_, _, _, _, e⟩
  | find seq e => exact ⟨_, _, _, _, e⟩

/-! ## The invariant -/

/-- The invariant does not speak of what the host and the port will ask for. -/
theorem Inv.of_queues (h : Inv s) (hs : List HostAction) (ps : List PortRequest) :
    Inv { s with host := hs, port := ps } := { h with }

/-- Every state element at its reset value, with an input in order, meets the invariant (R42). -/
theorem Inv.initialise (h : s.inputOk = true) : Inv s.initialise where
  input := h
  output := rfl
  dict := Dict.ok_empty _
  shadow := by simp
  cursor := by simp
  literals := by simp
  candidate := by simp
  group := by simp
  status := by simp
  codes := by simp
  warning := by simp
  groups := by simp
  select := by simp

/-- So does the state in which an accepted `start` begins its operation (R241). -/
theorem Inv.begin {op : BitVec 2} (hop : op ≠ 3#2) (h : s.inputOk = true) : Inv (s.begin op) :=
  { Inv.initialise h with
    cursor := fun _ => Nat.zero_le _
    status := by simp
    groups := fun _ => rfl
    select := fun e => absurd e hop }

/-- And the state in which the reserved select has been refused (R214). -/
theorem Inv.beginReserved (op : BitVec 2) (h : s.inputOk = true) : Inv (s.beginReserved op) :=
  { Inv.initialise h with
    cursor := by simp [State.beginReserved]
    status := by simp [State.beginReserved, FaultKind.code]
    codes := by simp [State.beginReserved, FaultKind.code]
    groups := fun _ => rfl
    select := fun _ => rfl }

/-- A request on the dictionary port keeps the invariant. -/
theorem Inv.of_served (hi : Inv s) (h : Served s t) : Inv t := by
  cases h with
  | push b e => subst e; exact { hi with dict := Dict.push_ok b hi.dict }
  | read v e => subst e; exact { hi with }
  | snapshot e => subst e; exact { hi with shadow := by rintro _ ⟨⟩; exact hi.dict }
  | restore held hh e => subst e; exact { hi with dict := hi.shadow held hh }
  | find seq e => subst e; exact { hi with shadow := by simp }

theorem ofNat_two_ne_zero {n : Nat} (h0 : n ≠ 0) (h4 : n < 4) : BitVec.ofNat 2 n ≠ 0#2 := by
  intro e
  have := congrArg BitVec.toNat e
  simp at this
  omega

/-- The reserved select does not run. -/
theorem Inv.op_ne_reserved (hi : Inv s) (hb : s.phase = .busy) : s.op ≠ 3#2 := fun e =>
  Phase.noConfusion (hb.symm.trans (hi.select e))

/-- While an operation runs no fault has been raised. -/
theorem Inv.status_zero (hi : Inv s) (hb : s.phase = .busy) : s.status = 0#3 := by
  by_contra hne
  exact Phase.noConfusion (hb.symm.trans (hi.status.1 hne))

/-- A pass of a running operation keeps the invariant. -/
theorem Inv.of_passed (hi : Inv s) (hb : s.phase = .busy) (hS : s.inMem.holds s.inLen S) (h : Passed S s t) :
    Inv t := by
  have hk := h.keeps
  have hst := h.status hb (hi.status_zero hb)
  obtain ⟨hlit, hcand⟩ := h.buffers
  constructor
  case input => rw [State.inputOk, hk.inMem, hk.inLen]; exact hi.input
  case output =>
    obtain ⟨ys, hm, hl⟩ := h.appends
    rw [hm, hl]
    exact State.outAppendAll_spans ys hi.output
  case dict =>
    obtain ⟨bs, hd⟩ := h.pushes
    rw [hd]
    exact Dict.pushAll_ok bs hi.dict
  case shadow =>
    rcases h.shadowDropped with hs | hs
    · simp [hs]
    · rw [hs]; exact hi.shadow
  case cursor =>
    intro hbt
    rw [hk.inLen]
    exact (h.progress hb hS).elim (absurd hbt) fun hp => hp.2.2
  case literals => exact hlit.elim id fun e => e ▸ hi.literals
  case candidate => exact hcand.elim id fun e => e ▸ hi.candidate
  case group => exact h.group_lt hi.group
  case status => rcases hst with ⟨hs, hp⟩ | ⟨hs | hs, hp⟩ <;> simp [hs, hp]
  case codes => rcases hst with ⟨hs, -⟩ | ⟨hs | hs, -⟩ <;> simp [hs]
  case warning =>
    rcases h.flags with ⟨hw, hd⟩ | ⟨-, hg, hw, hd⟩
    · rw [hw, hd]; exact hi.warning
    · simp only [hw, hd, true_iff]
      exact ofNat_two_ne_zero (by simpa using hg) hi.group
  case groups =>
    rw [hk.op]
    exact fun hop => h.wholeGroups hop hi.group (hi.groups hop)
  case select => exact fun hop => absurd (hk.op ▸ hop) h.op_ne_reserved

/-- The engine's move keeps the invariant. -/
theorem Inv.of_enginePass (hi : Inv s) (hb : s.phase = .busy) (h : s.enginePass = .next t) : Inv t := by
  obtain ⟨S, hS, hp⟩ := Passed.of_enginePass (hi.op_ne_reserved hb) h
  exact hi.of_passed hb hS hp

/-! ## Whole operations -/

/-- What every pass of a running operation keeps, the whole loop of passes keeps. -/
theorem operationLoop_keeps {P : State → Prop}
    (hP : ∀ u v, P u → u.phase = .busy → u.enginePass = .next v → P v) {n : Nat} (hs : P s)
    (h : operationLoop n s = .next t) : P t := by
  induction n generalizing s with
  | zero => cases h; exact hs
  | succ n ih =>
    by_cases hb : s.phase = .busy
    · rw [operationLoop, if_pos hb] at h
      cases he : s.enginePass with
      | next u => rw [he] at h; exact ih (hP s u hs hb he) h
      | fault r => rw [he] at h; cases h
      | refused r => rw [he] at h; cases h
    · rw [operationLoop_ended _ hb] at h
      cases h
      exact hs

/-- A block-level operation is ignored, or is the loop of passes from where it begins (R241). -/
theorem runOperation_cases {op : BitVec 2} (h : runOperation op s = .next t) :
    t = s ∨ operationLoop (s.inLen + 1) (s.begin op) = .next t := by
  unfold runOperation at h
  split at h
  · cases h; exact .inl rfl
  · exact .inr h

theorem Inv.of_runOperation {op : BitVec 2} (hop : op ≠ 3#2) (hi : Inv s) (h : runOperation op s = .next t) :
    Inv t := by
  rcases runOperation_cases h with rfl | hl
  · exact hi
  · exact operationLoop_keeps (fun _ _ hu hb he => hu.of_enginePass hb he) (Inv.begin hop hi.input) hl

/-! ## Every step -/

/-- `start`, the operation run whole, keeps the invariant. -/
theorem Inv.of_startWhole {op : BitVec 2} (hi : Inv s) (h : startWhole op s = .next t) : Inv t := by
  unfold startWhole at h
  split at h
  · rename_i i hd
    obtain ⟨he, hop⟩ := exec_of_decodeOp hd s
    exact hi.of_runOperation hop (he ▸ h)
  · split at h <;> cases h
    · exact hi
    · exact Inv.beginReserved op hi.input

/-- `start` of a select that is not reserved begins its operation; the reserved one is refused (R241). -/
theorem startStepped_accepted {op : BitVec 2} (hb : s.phase ≠ .busy) (hop : op ≠ 3#2) :
    startStepped op s = s.begin op := by
  unfold startStepped
  rw [if_neg hb]
  rcases op_cases op with rfl | rfl | rfl | rfl
  · rfl
  · rfl
  · rfl
  · exact absurd rfl hop

theorem startStepped_reserved (hb : s.phase ≠ .busy) : startStepped 3#2 s = s.beginReserved 3#2 := if_neg hb

theorem Inv.of_startStepped (op : BitVec 2) (hi : Inv s) : Inv (startStepped op s) := by
  by_cases hb : s.phase = .busy
  · rw [startStepped_ignored op hb]; exact hi
  · by_cases hop : op = 3#2
    · rw [hop, startStepped_reserved hb]; exact Inv.beginReserved _ hi.input
    · rw [startStepped_accepted hb hop]; exact Inv.begin hop hi.input

/-- The host's writing of the input keeps the invariant. -/
theorem Inv.of_hostLoad {bytes : List Byte} (hi : Inv s) (h : hostLoad bytes s = .next t) : Inv t := by
  unfold hostLoad at h
  split at h
  · cases h
  · rename_i hb
    cases h
    exact { hi with
      input := Memory.spans_ofBytes bytes
      cursor := fun h => absurd h hb }

theorem hostRead_next {allowed : Bool} (h : hostRead allowed s = .next t) : t = s := by
  unfold hostRead at h
  split at h <;> cases h
  rfl

/-- The block's own move keeps the invariant. -/
theorem Inv.of_blockStep (hi : Inv s) (h : blockStep s = .next t) : Inv t := by
  cases hp : s.port with
  | cons q qs =>
    rw [blockStep_serves hp] at h
    exact (hi.of_queues s.host qs).of_served (servePort_served h)
  | nil =>
    by_cases hb : s.phase = .busy
    · rw [blockStep_pass hp hb] at h
      exact hi.of_enginePass hb h
    · rw [blockStep_waits hp hb] at h
      cases h
      exact hi

/-- An action of the host keeps the invariant. -/
theorem Inv.of_hostStep {a : HostAction} (hi : Inv s) (h : hostStep a s = .next t) : Inv t := by
  cases a with
  | quiet => exact hi.of_blockStep h
  | reset => cases h; exact Inv.initialise hi.input
  | start op => exact hi.of_startWhole h
  | startStepped op => cases h; exact hi.of_startStepped op
  | load bytes => exact hi.of_hostLoad h
  | readPhase | readStatus | readResult | readFault => rw [hostRead_next h]; exact hi

/-- A step keeps the invariant. -/
theorem Inv.of_step (hi : Inv s) (h : step s = .next t) : Inv t := by
  cases hh : s.host with
  | nil => exact hi.of_blockStep (step_quiet hh ▸ h)
  | cons a rest =>
    rw [step_host hh] at h
    exact (hi.of_queues rest s.port).of_hostStep h

/-! ## Appending to `OUT` -/

/-- The block's own move appends some bytes to `OUT` while an operation runs: a request on the dictionary port none, a
pass what it emits (R62). -/
theorem appended_of_blockStep (hi : Inv s) (hb : s.phase = .busy) (h : blockStep s = .next t) :
    ∃ ys, Appended ys s t := by
  cases hp : s.port with
  | cons q qs =>
    rw [blockStep_serves hp] at h
    obtain ⟨w, g, f, v, rfl⟩ := (servePort_served h).frame
    exact ⟨[], (Appended.refl s).congr rfl rfl rfl rfl⟩
  | nil =>
    rw [blockStep_pass hp hb] at h
    obtain ⟨S, -, hpass⟩ := Passed.of_enginePass (hi.op_ne_reserved hb) h
    obtain ⟨ys, hm, hl⟩ := hpass.appends
    exact ⟨ys, (Appended.outAppendAll ys s).congr rfl rfl hm hl⟩

/-! ## The warning -/

/-- A whole operation other than DECOMPRESS raises no warning. -/
theorem runOperation_warn {op : BitVec 2} (h1 : op ≠ 1#2) (h3 : op ≠ 3#2) (h : runOperation op s = .next t)
    (hw : s.warn = false) : t.warn = false := by
  rcases runOperation_cases h with rfl | hl
  · exact hw
  · suffices ht : t.op = op ∧ t.warn = false from ht.2
    refine operationLoop_keeps (P := fun u => u.op = op ∧ u.warn = false) ?_ ⟨rfl, rfl⟩ hl
    rintro u v ⟨hop, hu⟩ - he
    obtain ⟨S, -, hp⟩ := Passed.of_enginePass (by rw [hop]; exact h3) he
    refine ⟨hp.keeps.op.trans hop, ?_⟩
    rcases hp.flags with ⟨hv, -⟩ | ⟨hop', -⟩
    · exact hv.trans hu
    · exact absurd (hop.symm.trans hop') h1

/-- A RUN or a CACHE raises no warning: only END writes the flag. -/
theorem execCommand_warn {c : Command} (hc : c ≠ .endStream) (h : execCommand c s = .next t) : t.warn = s.warn := by
  obtain ⟨u, hu, hr⟩ := execCommand_ran c s
  rw [h] at hu
  cases hu
  cases hr.ending with
  | completes _ _ _ _ _ hw => exact hw
  | ends he => exact absurd he hc
  | faults _ _ _ _ _ hw => exact hw

/-! ## The operands that are missing -/

/-- A RUN some of whose literals are missing looks at the ones that are present only. -/
theorem execRun_congr_of_present {lits lits' : List Byte} (hl : lits.length = lits'.length)
    (hm : s.inLen < s.ip + 1 + lits.length)
    (ht : lits.take (s.inLen - s.ip - 1) = lits'.take (s.inLen - s.ip - 1)) : execRun lits s = execRun lits' s := by
  by_cases hin : s.ip < s.inLen
  · rw [execRun_truncated hin hm, execRun_truncated hin (hl ▸ hm), ht, hl]
  · rw [execRun_missing (by omega), execRun_missing (by omega)]

/-- A CACHE whose offset byte is missing does not look at its offset. -/
theorem execCache_congr_of_missing {k : BitVec 7} (o o' : Byte) (hm : s.inLen ≤ s.ip + 1) :
    execCache k o s = execCache k o' s := by
  by_cases hin : s.ip < s.inLen
  · rw [execCache_truncated hin hm, execCache_truncated hin hm]
  · rw [execCache_missing (by omega), execCache_missing (by omega)]

/-! ## The output signals -/

theorem Phase.code_iff (p : Phase) : (p.code = 0#2 ↔ p = .idle) ∧ (p.code = 1#2 ↔ p = .busy) ∧
    (p.code = 2#2 ↔ p = .done) ∧ (p.code = 3#2 ↔ p = .faulted) :=
  ⟨Phase.code_eq_iff (q := .idle), Phase.code_eq_iff (q := .busy), Phase.code_eq_iff (q := .done),
    Phase.code_eq_iff (q := .faulted)⟩

theorem EncMode.code_iff (m : EncMode) : (m.code = 0#1 ↔ m = .run) ∧ (m.code = 1#1 ↔ m = .cache) :=
  ⟨EncMode.code_eq_iff (n := .run), EncMode.code_eq_iff (n := .cache)⟩

/-- The phase signal says what `start` did, the host looking on (R241). -/
theorem signals_startStepped {op : BitVec 2} (hb : s.phase ≠ .busy) :
    (op ≠ 3#2 → (startStepped op s).signals.phase = 1#2) ∧
    (op = 3#2 → (startStepped op s).signals.phase = 3#2 ∧ (startStepped op s).signals.status = 4#3) := by
  refine ⟨fun hop => ?_, ?_⟩
  · rw [startStepped_accepted hb hop]; rfl
  · rintro rfl
    rw [startStepped_reserved hb]
    exact ⟨rfl, rfl⟩

/-- In a state that meets the invariant `status` and `warn` agree with `phase` and `dropped` (R30, R31). -/
theorem Inv.signals_agree (hi : Inv s) : (s.signals.status ≠ 0#3 ↔ s.signals.phase = 3#2) ∧
    (s.signals.warn = 1#1 ↔ s.signals.dropped ≠ 0#2) := by
  refine ⟨hi.status.trans (Phase.code_iff s.phase).2.2.2.symm, Iff.trans ?_ hi.warning⟩
  rw [State.signals_warn]
  cases s.warn <;> decide

end Sys2Proof.Machine
end

section
/-! SUPPORT. Rotations of the dictionary (R22): a search moves with the slots, and every operation of the engine takes two
states that differ by a rotation to two that do. -/

namespace Sys2Proof.Machine

/-! ## The dictionary -/

/-- The slots and the cursor of `v` are those of `w` moved by `r`. -/
structure Dict.MovedBy (r : Byte) (w v : Dict) : Prop where
  wc : v.wc = w.wc + r
  slots : ∀ i, v.read (i + r) = w.read i

section
variable {r : Byte} {w v : Dict}

theorem Dict.MovedBy.push (h : Dict.MovedBy r w v) (b : Byte) : Dict.MovedBy r (w.push b) (v.push b) where
  wc := by rw [Dict.push_wc, Dict.push_wc, h.wc]; bv_omega
  slots i := by
    have hcursor : i + r = v.wc ↔ i = w.wc := by rw [h.wc]; exact BitVec.add_left_inj r
    simp only [Dict.read_push, hcursor, h.slots]

/-- A candidate of one is confirmed exactly when the candidate moved by `r` is confirmed in the other. -/
theorem Dict.MovedBy.confirms (h : Dict.MovedBy r w v) (i : Byte) (seq : List Byte) :
    v.confirms (i + r) seq = w.confirms i seq := by
  induction seq generalizing w v i with
  | nil => rfl
  | cons b bs ih =>
    have hnext : i + r + 1#8 = i + 1#8 + r := by bv_omega
    simp only [Dict.confirms, h.slots, hnext, ih (h.push b)]

theorem Dict.MovedBy.candidate (h : Dict.MovedBy r w v) (k : Nat) : v.candidate k = w.candidate k + r := by
  unfold Dict.candidate
  rw [h.wc]
  bv_omega

/-- FIND reports the same place, moved by `r` (R126 (e)). -/
theorem Dict.MovedBy.search (h : Dict.MovedBy r w v) (seq : List Byte) :
    v.search seq = (w.search seq).map (· + r) := by
  simp only [Dict.search, h.candidate, h.confirms, Option.map_map]
  congr 1
  funext k
  exact h.candidate k

/-- The offset byte of a match does not move (R95). -/
theorem offsetByte_moved (wc idx r : Byte) : offsetByte (wc + r) (idx + r) = offsetByte wc idx := by
  unfold offsetByte
  bv_omega

/-- The source of a copy moves with the cursor (R95). -/
theorem cacheSource_moved (wc o r : Byte) : cacheSource (wc + r) o = cacheSource wc o + r := by
  unfold cacheSource
  bv_omega

end

/-! ## The operations on the state -/

section
variable {r : Byte} {s u : State}

theorem RotatedBy.dict (h : RotatedBy r s u) : Dict.MovedBy r s.dict u.dict := ⟨h.wc, h.slots⟩

theorem RotatedBy.push (h : RotatedBy r s u) (b : Byte) : RotatedBy r (s.push b) (u.push b) :=
  { h with wc := (h.dict.push b).wc, slots := (h.dict.push b).slots }

theorem RotatedBy.find (h : RotatedBy r s u) (seq : List Byte) : RotatedBy r (s.find seq) (u.find seq) :=
  { h with fres := h.dict.search seq }

theorem RotatedBy.outAppend (h : RotatedBy r s u) (b : Byte) : RotatedBy r (s.outAppend b) (u.outAppend b) :=
  { h with
    outMem := by simp [h.outMem, h.outLen]
    outLen := by simp [h.outLen] }

/-- The two may name different slots in `FINFO`. -/
theorem RotatedBy.raise (h : RotatedBy r s u) (f : FaultKind) (info info' : Byte) :
    RotatedBy r (s.raise f info) (u.raise f info') :=
  { h with phase := rfl, status := rfl }

theorem RotatedBy.finish (h : RotatedBy r s u) : RotatedBy r s.finish u.finish := { h with phase := rfl }

theorem RotatedBy.markStart (h : RotatedBy r s u) : RotatedBy r s.markStart u.markStart := { h with fpc := h.ip }

theorem RotatedBy.setMode (h : RotatedBy r s u) (m : EncMode) : RotatedBy r (s.setMode m) (u.setMode m) :=
  { h with mode := rfl }

theorem RotatedBy.clearLiterals (h : RotatedBy r s u) : RotatedBy r s.clearLiterals u.clearLiterals :=
  { h with lit := rfl }

theorem RotatedBy.clearCandidate (h : RotatedBy r s u) : RotatedBy r s.clearCandidate u.clearCandidate :=
  { h with cand := rfl }

theorem RotatedBy.advance (h : RotatedBy r s u) : RotatedBy r s.advance u.advance :=
  { h with ip := congrArg (· + 1) h.ip }

theorem RotatedBy.takeLiteral (h : RotatedBy r s u) (b : Byte) : RotatedBy r (s.takeLiteral b) (u.takeLiteral b) :=
  { h.push b with
    ip := congrArg (· + 1) h.ip
    lit := congrArg (· ++ [b]) h.lit }

theorem RotatedBy.growCandidate (h : RotatedBy r s u) (b : Byte) :
    RotatedBy r (s.growCandidate b) (u.growCandidate b) :=
  { h with
    cand := congrArg (· ++ [b]) h.cand
    ip := congrArg (· + 1) h.ip }

theorem RotatedBy.backOff (h : RotatedBy r s u) : RotatedBy r s.backOff u.backOff :=
  { h with
    cand := congrArg List.dropLast h.cand
    ip := congrArg (· - 1) h.ip }

theorem RotatedBy.setCommand (h : RotatedBy r s u) (c : Byte) : RotatedBy r (s.setCommand c) (u.setCommand c) :=
  { h with cmd := rfl }

theorem RotatedBy.setCount (h : RotatedBy r s u) (c : Byte) : RotatedBy r (s.setCount c) (u.setCount c) :=
  { h with cnt := rfl }

theorem RotatedBy.setSource (h : RotatedBy r s u) (i i' : Byte) : RotatedBy r (s.setSource i) (u.setSource i') :=
  { h with }

theorem RotatedBy.countDown (h : RotatedBy r s u) : RotatedBy r s.countDown u.countDown :=
  { h with cnt := congrArg (· - 1#8) h.cnt }

theorem RotatedBy.nextSource (h : RotatedBy r s u) : RotatedBy r s.nextSource u.nextSource :=
  { h with cnt := congrArg (· - 1#8) h.cnt }

theorem RotatedBy.holdInGroup (h : RotatedBy r s u) (b : Byte) : RotatedBy r (s.holdInGroup b) (u.holdInGroup b) :=
  { h with grp := congrArg (· ++ [b]) h.grp }

theorem RotatedBy.outAppendAll (h : RotatedBy r s u) (bs : List Byte) :
    RotatedBy r (s.outAppendAll bs) (u.outAppendAll bs) := by
  induction bs generalizing s u with
  | nil => exact h
  | cons b bs ih => exact ih (h.outAppend b)

theorem RotatedBy.pushAll (h : RotatedBy r s u) (bs : List Byte) : RotatedBy r (s.pushAll bs) (u.pushAll bs) := by
  induction bs generalizing s u with
  | nil => exact h
  | cons b bs ih => exact ih (h.push b)

theorem RotatedBy.flushGroup (h : RotatedBy r s u) : RotatedBy r s.flushGroup u.flushGroup := by
  unfold State.flushGroup
  rw [h.grp]
  exact { h.outAppendAll s.grp with grp := rfl }

/-! ## What the control reads is the same -/

theorem RotatedBy.inByte (h : RotatedBy r s u) (a : Nat) : u.inByte a = s.inByte a := by
  simp only [State.inByte, h.inMem, h.inLen]

theorem RotatedBy.inputRemains (h : RotatedBy r s u) : u.inputRemains = s.inputRemains := by
  simp only [State.inputRemains, h.ip, h.inLen]

theorem RotatedBy.probeFits (h : RotatedBy r s u) : u.probeFits = s.probeFits := by
  simp only [State.probeFits, h.ip, h.inLen]

theorem RotatedBy.found (h : RotatedBy r s u) : u.found = s.found := by
  simp only [State.found, h.fres, Option.isSome_map]

theorem RotatedBy.litFull (h : RotatedBy r s u) : u.litFull = s.litFull := by simp only [State.litFull, h.lit]

theorem RotatedBy.candRoom (h : RotatedBy r s u) : u.candRoom = s.candRoom := by simp only [State.candRoom, h.cand]

theorem RotatedBy.nobuf (h : RotatedBy r s u) : u.nobuf = s.nobuf := by simp only [State.nobuf, h.op]

theorem RotatedBy.window (h : RotatedBy r s u) : u.window = s.window := by
  simp only [State.window, h.inMem, h.inLen, h.ip]

theorem RotatedBy.inputOk (h : RotatedBy r s u) : u.inputOk = s.inputOk := by
  simp only [State.inputOk, h.inMem, h.inLen]

/-! ## The encoder -/

/-- DECIDE decides the same (R151). -/
theorem RotatedBy.decideMode (h : RotatedBy r s u) :
    u.decideMode.1 = s.decideMode.1 ∧ RotatedBy r s.decideMode.2 u.decideMode.2 := by
  unfold State.decideMode
  rw [h.ip, h.inByte]
  cases s.inByte s.ip with
  | none => exact ⟨rfl, h⟩
  | some b0 =>
    have h1 := h.find [b0]
    simp only [h1.found, h1.probeFits, h1.ip, h1.inByte]
    split
    · exact ⟨rfl, h1⟩
    · split
      · split
        · rename_i b1 b2 _ _
          have h2 := h1.find [b0, b1, b2]
          rw [h2.found]
          split <;> exact ⟨rfl, h2⟩
        · exact ⟨rfl, h1⟩
      · exact ⟨rfl, h1⟩

theorem RotatedBy.runLoop (h : RotatedBy r s u) (n : Nat) : RotatedBy r (s.runLoop n) (u.runLoop n) := by
  induction n generalizing s u with
  | zero => exact h
  | succ n ih =>
    rw [State.runLoop, State.runLoop, h.ip, h.inByte]
    cases s.inByte s.ip with
    | none => exact h
    | some b =>
      have ht := h.takeLiteral b
      obtain ⟨hmode, hd⟩ := ht.decideMode
      simp only [ht.litFull, ht.inputRemains, hmode]
      split
      · exact ht
      · split
        · exact ht
        · split
          · exact hd
          · exact ih hd

theorem RotatedBy.runChunk (h : RotatedBy r s u) : RotatedBy r s.runChunk u.runChunk := by
  have ht := h.clearLiterals.runLoop Config.runMax
  unfold State.runChunk
  simp only [ht.lit]
  exact (ht.outAppend _).outAppendAll _

theorem RotatedBy.growLoop (h : RotatedBy r s u) (n : Nat) :
    (u.growLoop n).1 = (s.growLoop n).1 ∧ RotatedBy r (s.growLoop n).2 (u.growLoop n).2 := by
  induction n generalizing s u with
  | zero => exact ⟨rfl, h⟩
  | succ n ih =>
    rw [State.growLoop, State.growLoop, h.candRoom, h.inputRemains, h.ip, h.inByte]
    split
    · cases s.inByte s.ip with
      | none => exact ⟨rfl, h⟩
      | some b =>
        have hg := h.growCandidate b
        have ht := hg.find (s.growCandidate b).cand
        simp only [hg.cand, ht.found]
        split
        · exact ih ht
        · exact ⟨rfl, ht⟩
    · exact ⟨rfl, h⟩

/-- The command of a CACHE chunk is the same: its offset byte counts from the cursor (R153). -/
theorem RotatedBy.emitCache (h : RotatedBy r s u) : RotatedBy r s.emitCache u.emitCache := by
  have ht := h.find s.cand
  unfold State.emitCache
  simp only [h.cand, ht.fres]
  cases (s.find s.cand).fres with
  | none => exact ht.raise _ _ _
  | some idx =>
    have he := (ht.outAppend (cacheCommandByte (s.find s.cand).cand.length)).outAppend
      (offsetByte (s.find s.cand).dict.wc idx)
    simp only [Option.map_some, ht.cand, ht.wc, offsetByte_moved, he.cand]
    exact he.pushAll _

theorem RotatedBy.cacheChunk (h : RotatedBy r s u) : RotatedBy r s.cacheChunk u.cacheChunk := by
  unfold State.cacheChunk
  rw [h.ip, h.inByte]
  cases s.inByte s.ip with
  | none => exact h
  | some b =>
    obtain ⟨hfound, hg⟩ := (h.clearCandidate.growCandidate b).growLoop Config.cacheMax
    simp only [hfound]
    split
    · exact hg.emitCache
    · exact hg.backOff.emitCache

/-- A pass of COMPRESS (R150). -/
theorem RotatedBy.compressPass (h : RotatedBy r s u) : RotatedBy r s.compressPass u.compressPass := by
  obtain ⟨hmode, hd⟩ := h.markStart.decideMode
  unfold State.compressPass
  simp only [h.inputRemains, hmode]
  split
  · split
    · exact (hd.setMode .cache).cacheChunk
    · exact (hd.setMode .run).runChunk
  · exact (h.outAppend 0x00#8).finish

/-! ## The decoder -/

/-- Fetch, where what comes after it keeps the rotation (R186). -/
theorem RotatedBy.fetch (h : RotatedBy r s u) (info : Byte) {k k' : State → State}
    (hk : RotatedBy r s.advance u.advance → RotatedBy r (k s.advance) (k' u.advance)) :
    RotatedBy r (s.fetch info k) (u.fetch info k') := by
  unfold State.fetch
  rw [h.inputRemains]
  split
  · exact hk h.advance
  · exact h.raise _ _ _

theorem RotatedBy.beginCommand (h : RotatedBy r s u) (c : Byte) {body : State → State}
    (hbody : ∀ {s u}, RotatedBy r s u → RotatedBy r (body s) (body u)) :
    RotatedBy r (s.beginCommand c body) (u.beginCommand c body) :=
  h.markStart.fetch _ fun ha => hbody (ha.setCommand c)

theorem RotatedBy.output (h : RotatedBy r s u) (b : Byte) : RotatedBy r (s.output b) (u.output b) := by
  have hg := h.holdInGroup b
  unfold State.output
  rw [h.nobuf, hg.grp]
  split
  · exact h.outAppend b
  · split
    · exact hg.flushGroup
    · exact hg

theorem RotatedBy.produce (h : RotatedBy r s u) (b : Byte) : RotatedBy r (s.produce b) (u.produce b) :=
  (h.push b).output b

theorem RotatedBy.discardPending (h : RotatedBy r s u) : RotatedBy r s.discardPending u.discardPending := by
  unfold State.discardPending
  rw [h.nobuf, h.grp]
  split
  · exact { h with warn := rfl, dropped := rfl, grp := rfl }
  · exact h

theorem RotatedBy.runLits (h : RotatedBy r s u) (lits : List Byte) : RotatedBy r (s.runLits lits) (u.runLits lits) := by
  induction lits generalizing s u with
  | nil => exact h
  | cons b bs ih =>
    rw [State.runLits, State.runLits, h.cmd]
    exact h.fetch _ fun ha => ih (ha.produce b).countDown

/-- The copy loops of CACHE whose sources differ by the rotation meet the same bytes, or an `Empty` slot at the same place
(R183). -/
theorem RotatedBy.copyLoop (h : RotatedBy r s u) (hsrc : u.src = s.src + r) (n : Nat) :
    RotatedBy r (s.copyLoop n) (u.copyLoop n) := by
  induction n generalizing s u with
  | zero => exact h
  | succ n ih =>
    rw [State.copyLoop, State.copyLoop, hsrc, h.slots]
    cases s.dict.read s.src with
    | none => exact h.raise _ _ _
    | some b =>
      refine ih (h.produce b).nextSource ?_
      simp only [State.nextSource_eq, State.loopRegs_src, State.produce_src, hsrc]
      bv_omega

/-- A command of the stream (R182 to R184). -/
theorem RotatedBy.execCommand (h : RotatedBy r s u) (c : Command) :
    ∃ t v, execCommand c s = .next t ∧ execCommand c u = .next v ∧ RotatedBy r t v := by
  cases c with
  | endStream => exact ⟨_, _, rfl, rfl, h.beginCommand _ fun h => h.discardPending.finish⟩
  | run lits =>
    refine ⟨_, _, rfl, rfl, h.beginCommand _ fun {s u} h => ?_⟩
    rw [h.cmd]
    exact (h.setCount s.cmd).runLits lits
  | cache k o =>
    refine ⟨_, _, rfl, rfl, h.beginCommand _ fun {s u} h => ?_⟩
    rw [h.cmd]
    refine (h.setCount (cacheLength s.cmd)).fetch _ fun ha => ?_
    rw [ha.cnt, ha.wc, cacheSource_moved]
    exact (ha.setSource _ _).copyLoop rfl _

/-- A pass of a decompression (R180, R181). -/
theorem RotatedBy.decodePass (h : RotatedBy r s u) :
    ∃ t v, s.decodePass = .next t ∧ u.decodePass = .next v ∧ RotatedBy r t v := by
  unfold State.decodePass
  rw [h.window]
  split
  · exact ⟨_, _, rfl, rfl, h.markStart.raise _ _ _⟩
  · exact h.execCommand _
  · exact h.execCommand _

/-- A pass of a running operation whose input is in order. -/
theorem RotatedBy.enginePass (h : RotatedBy r s u) (hok : s.inputOk = true) :
    ∃ t v, s.enginePass = .next t ∧ u.enginePass = .next v ∧ RotatedBy r t v := by
  unfold State.enginePass
  simp only [h.inputOk, hok, h.op, Bool.not_true, Bool.false_eq_true, if_false]
  split
  · exact ⟨_, _, rfl, rfl, h.compressPass⟩
  · split
    · exact h.decodePass
    · exact ⟨_, _, rfl, rfl, h.raise _ _ _⟩

end

end Sys2Proof.Machine
end

section
/-! PROOFS. The statements of 10_state.md. -/

namespace Sys2Proof.Machine

/-- Settles O43: the host's actions, the requests on the dictionary port and the passes of the operations each keep the
invariant. -/
theorem everyStepKeepsTheInvariant : Obligations.EveryStepKeepsTheInvariant :=
  fun _ _ hi h => hi.of_step h

/-- Settles O42: the state after reset is the one `reset` gives on an empty input. -/
theorem resetMeetsTheInvariant : Obligations.ResetMeetsTheInvariant :=
  Inv.initialise (s := State.reset) rfl

/-- Settles O29: what a truncated command does is a function of the bytes that are present. -/
theorem missingOperandsAreNeverUsed : Obligations.MissingOperandsAreNeverUsed :=
  ⟨fun _ _ _ hl hm ht => execRun_congr_of_present hl hm ht, fun _ o o' _ hm => execCache_congr_of_missing o o' hm⟩

/-- Settles O45: a step of the block appends bytes, and appending writes from `OUT_LEN` up. -/
theorem outputIsAppendOnly : Obligations.OutputIsAppendOnly := by
  intro s t hi hb hh h
  obtain ⟨ys, hl, -, hold⟩ := appended_of_blockStep hi hb (step_quiet hh ▸ h)
  exact ⟨by omega, fun a ha => hold a (.inl ha)⟩

/-- Settles O46: the other commands leave the flag, the other operations never run a buffered END, and the dictionary
port does not reach it. -/
theorem onlyEndRaisesTheWarning : Obligations.OnlyEndRaisesTheWarning := by
  intro i s t h hs ht
  have served : isDictOp i = true → t.warn = s.warn := fun hi => by
    obtain ⟨w, g, f, v, rfl⟩ := (exec_served hi h).frame
    rfl
  cases i with
  | endStream => exact .inl rfl
  | decompress => exact .inr rfl
  | run lits => simp [execCommand_warn (c := .run lits) (by simp) h, hs] at ht
  | cache k o => simp [execCommand_warn (c := .cache k o) (by simp) h, hs] at ht
  | compress => simp [runOperation_warn (by decide) (by decide) h hs] at ht
  | decompressNobuf => simp [runOperation_warn (by decide) (by decide) h hs] at ht
  | push | read | snapshot | restore | find => simp [served rfl, hs] at ht

/-- Settles O50: a pass drops every snapshot it takes; the reserved select takes none. -/
theorem engineLeavesNoSnapshotHeld : Obligations.EngineLeavesNoSnapshotHeld := by
  intro s t hb hh hp hs h
  rw [step_quiet hh, blockStep_pass hp hb] at h
  exact (State.enginePass_shadow h).elim id fun he => he.trans hs

/-- Settles O5: the host quiet and the port empty, the block's own move is all a step makes, and outside BUSY it is none. -/
theorem blockWaitsOutsideBusy : Obligations.BlockWaitsOutsideBusy := by
  intro s hb hp
  refine ⟨fun hh => ?_, fun rest hh => ?_⟩
  · rw [step_quiet hh, blockStep_waits hp hb]
  · rw [step_host hh]
    exact blockStep_waits (s := { s with host := rest }) hp hb

/-- Settles O54: the signals are the registers, the codes are one to one, and a pass never goes back to IDLE. -/
theorem outputSignalsCarryTheRegisters : Obligations.OutputSignalsCarryTheRegisters := by
  refine ⟨fun s => ?_, fun s => ⟨rfl, rfl, rfl, rfl, rfl, rfl⟩, ?_, ?_, ?_, ?_, fun s hi => hi.signals_agree⟩
  · obtain ⟨hidle, hbusy, hdone, hfaulted⟩ := Phase.code_iff s.phase
    exact ⟨hidle, hbusy, hdone, hfaulted, EncMode.code_iff s.mode⟩
  · rintro s bytes ⟨hm, hl⟩
    exact ⟨by rw [State.signals_outData, hm]; exact Memory.map_snd_ofBytesAt 0 bytes, hl⟩
  · intro s rest hh
    exact ⟨_, step_host hh, rfl⟩
  · intro s op rest hb hh
    exact ⟨_, step_host hh, signals_startStepped (s := { s with host := rest }) hb⟩
  · intro s t hi hb hh hp h
    obtain ⟨S, -, hpass⟩ := passed_of_step hi hb hh hp h
    exact fun he => hpass.phase_ne_idle hb ((Phase.code_iff t.phase).1.1 he)

/-- Settles O52: the step of a running block is a pass, and every operation of a pass keeps the rotation. -/
theorem cursorOriginIsUnobservable : Obligations.CursorOriginIsUnobservable := by
  intro r s u t h hb hh hp hh' hp' hok _ hstep
  obtain ⟨t', v, hs, hu, hrot⟩ := h.enginePass hok
  rw [step_quiet hh, blockStep_pass hp hb, hs] at hstep
  cases hstep
  exact ⟨v, by rw [step_quiet hh', blockStep_pass hp' (h.phase.trans hb), hu], hrot⟩

end Sys2Proof.Machine
end

section
/-! SUPPORT. The memory spaces over an instruction or a pass (20_memory.md): no instruction writes `IN`; a chunk of COMPRESS
appends its command to `OUT`, and a decoder with the same dictionary delivers what the command plays. -/

namespace Sys2Proof.Machine

variable {S : List Byte} {s t : State}

/-! ## The input space -/

theorem execCommand_keeps {c : Command} (h : execCommand c s = .next t) : DecoderKeeps s t := by
  obtain ⟨u, hu, hr⟩ := execCommand_ran c s
  rw [h] at hu
  cases hu
  exact hr.keeps

/-- A whole operation does not write the input: `start` does not initialise it and no pass writes it (R42, R73). -/
theorem runOperation_input {op : BitVec 2} (h : runOperation op s = .next t) :
    t.inMem = s.inMem ∧ t.inLen = s.inLen := by
  rcases runOperation_cases h with rfl | hl
  · exact ⟨rfl, rfl⟩
  · refine operationLoop_keeps (s := s.begin op) (P := fun u => u.inMem = s.inMem ∧ u.inLen = s.inLen) ?_ ⟨rfl, rfl⟩ hl
    rintro u v ⟨hm, hn⟩ - he
    have hk := State.enginePass_keeps he
    exact ⟨hk.inMem.trans hm, hk.inLen.trans hn⟩

theorem exec_served_input {i : Instr} (hi : isDictOp i = true) (h : exec i s = .next t) :
    t.inMem = s.inMem ∧ t.inLen = s.inLen := by
  obtain ⟨w, g, f, v, rfl⟩ := (exec_served hi h).frame
  exact ⟨rfl, rfl⟩

/-! ## A chunk, and the decoder's answer to its command -/

/-- The step of a running COMPRESS is a pass of its loop (R150). -/
theorem step_compress (hb : s.phase = .busy) (hop : s.op = 0#2) (hp : s.port = []) (hh : s.host = [])
    (hS : s.inMem.holds s.inLen S) : step s = .next s.compressPass := by
  have hok := State.inputOk_iff.2 ⟨S, hS⟩
  rw [step_quiet hh, blockStep_pass hp hb, State.enginePass, hok, if_neg (by simp), if_pos hop]

/-- A chunk appends exactly its command to `OUT` (R62). -/
theorem Chunk.appended {c : Command} {xs : List Byte} (h : Chunk S s t c xs) : Appended c.bytes s t :=
  (Appended.outAppendAll c.bytes s).congr rfl rfl h.outMem
    (h.outLen.trans (State.outAppendAll_outLen c.bytes s).symm)

/-- A command whose bytes are all present delivers exactly what it plays and pushes exactly that (R75, R185). -/
theorem execCommand_delivers {c : Command} {xs : List Byte} (hc : c.isChunk = true) (hg : s.grp.length < 4)
    (hfit : s.ip + c.bytes.length ≤ s.inLen) (hp : s.dict.plays c = some xs) :
    ∃ t, execCommand c s = .next t ∧ t.dict = s.dict.pushAll xs ∧ Delivered xs s t ∧
      t.ip = s.ip + c.bytes.length ∧ t.phase = s.phase := by
  obtain ⟨t, he, -, hphase, -, -, -, hip, hdict, hmem, hlen, hgrp⟩ := execCommand_plays hc hfit hp
  exact ⟨t, he, hdict, (Delivered.produceAll xs hg).congr rfl rfl rfl rfl hgrp hmem hlen, hip, hphase⟩

end Sys2Proof.Machine
end

section
/-! PROOFS. The statements of 20_memory.md. -/

namespace Sys2Proof.Machine

/-- Settles O36: the command of a chunk plays back the bytes the chunk covers, from any dictionary equal to the one the
chunk began with, and both sides push exactly those bytes. -/
theorem chunksKeepTheDictionariesInLockstep : Obligations.ChunksKeepTheDictionariesInLockstep := by
  intro s S hb hop hp hh hS hip
  obtain ⟨c, xs, hc⟩ := State.compressPass_chunk hS hip
  have hdict : s.compressPass.dict = s.dict.pushAll xs := hc.dict
  refine ⟨s.compressPass, c, xs, step_compress hb hop hp hh hS, hc.isChunk, hc.nonempty, hc.covers,
    hc.keeps.phase.trans hb, hc.ip, hdict, hc.appended, hc.fpc, fun u hu hg hfit => ?_⟩
  have hplays : u.dict.plays c = some xs := hu ▸ hc.plays
  obtain ⟨v, hv, hvd, hdel, hvip, hvphase⟩ := execCommand_delivers hc.isChunk hg hfit hplays
  exact ⟨v, (exec_toInstr c u).trans hv, by rw [hvd, hdict, hu], hdel, hvip, hvphase⟩

/-- Settles O44: a command of the stream and a pass keep `IN`, `start` keeps it, and the dictionary port does not reach
it. -/
theorem noInstructionWritesTheInput : Obligations.NoInstructionWritesTheInput := by
  intro i s t h
  have command {c : Command} (h : execCommand c s = .next t) : t.inMem = s.inMem ∧ t.inLen = s.inLen :=
    ⟨(execCommand_keeps h).inMem, (execCommand_keeps h).inLen⟩
  cases i with
  | endStream => exact command (c := .endStream) h
  | run lits => exact command (c := .run lits) h
  | cache k o => exact command (c := .cache k o) h
  | compress | decompress | decompressNobuf => exact runOperation_input h
  | push | read | snapshot | restore | find => exact exec_served_input rfl h

end Sys2Proof.Machine
end

section
/-! SUPPORT. The three encoding spaces (30_encoding.md): a command and its bytes, the command a first byte decides, the
fields of CACHE and RUN, the selects, and the loader's table words. -/

namespace Sys2Proof

/-! ## A command of the stream and its bytes -/

theorem encode_toInstr (c : Command) : encode c.toInstr = .stream c.bytes := by cases c <;> rfl

/-- The decoder reads a command back from its bytes as the instruction it is, whatever follows (R90). -/
theorem decode_stream_bytes {c : Command} (h : c.toInstr.wellFormed = true) (rest : List Byte) :
    decode (.stream (c.bytes ++ rest)) = .instr c.toInstr rest := by
  simp only [decode, decodeStream_bytes h]

/-- So its encoding is read back, alone and with any bytes after it. -/
theorem decode_encode_toInstr {c : Command} (h : c.toInstr.wellFormed = true) :
    decode (encode c.toInstr) = .instr c.toInstr [] ∧
    ∀ bytes rest, encode c.toInstr = .stream bytes → decode (.stream (bytes ++ rest)) = .instr c.toInstr rest := by
  rw [encode_toInstr]
  refine ⟨?_, ?_⟩
  · simpa using decode_stream_bytes h []
  · rintro _ rest ⟨⟩
    exact decode_stream_bytes h rest

/-- The command read from a truncated stream begins with the bytes that are there (R98, R211). -/
theorem take_bytes_of_truncated {bs : List Byte} {c : Command} (h : decodeStream bs = .truncated c) :
    c.bytes.take bs.length = bs := by
  obtain ⟨-, -, -, hb⟩ := bytes_of_truncated h
  exact (congrArg (List.take bs.length) hb).trans List.take_left

/-! ## What the first byte decides (R97) -/

theorem bit7_clear_iff : ∀ c : Byte, c &&& 0x80#8 = 0x00#8 ↔ c.toNat < 128 := by decide

/-- The length field of a command byte with bit 7 set is the rest of the byte (R94). -/
theorem setWidth_seven_of_bit7 {c : Byte} (h : 128 ≤ c.toNat) : c.setWidth 7 = BitVec.ofNat 7 (c.toNat - 128) := by
  apply BitVec.eq_of_toNat_eq
  simp only [BitVec.toNat_setWidth, BitVec.toNat_ofNat]
  omega

/-- A first byte with bit 7 clear, 0x00 apart, is a RUN of that many literals: whole where they are present, truncated
where they are not. -/
theorem decodeStream_run {c : Byte} (h0 : c ≠ 0x00#8) (h7 : c.toNat < 128) (bs : List Byte) :
    decodeStream (c :: bs) =
      if c.toNat ≤ bs.length then .command (.run (bs.take c.toNat)) (bs.drop c.toNat)
      else .truncated (.run (bs ++ List.replicate (c.toNat - bs.length) 0x00#8)) := by
  simp only [decodeStream, if_neg h0, if_pos ((bit7_clear_iff c).2 h7)]

theorem ne_zero_of_bit7 {c : Byte} (h : 128 ≤ c.toNat) : c ≠ 0x00#8 := by rintro rfl; simp at h

/-- A first byte with bit 7 set is a CACHE, whole where its offset byte is present. -/
theorem decodeStream_cache {c : Byte} (h7 : 128 ≤ c.toNat) (o : Byte) (bs : List Byte) :
    decodeStream (c :: o :: bs) = .command (.cache (BitVec.ofNat 7 (c.toNat - 128)) o) bs := by
  simp only [decodeStream, if_neg (ne_zero_of_bit7 h7), if_neg (mt (bit7_clear_iff c).1 (Nat.not_lt.2 h7)),
    setWidth_seven_of_bit7 h7]

theorem decodeStream_cache_truncated {c : Byte} (h7 : 128 ≤ c.toNat) :
    decodeStream [c] = .truncated (.cache (BitVec.ofNat 7 (c.toNat - 128)) 0x00#8) := by
  simp only [decodeStream, if_neg (ne_zero_of_bit7 h7), if_neg (mt (bit7_clear_iff c).1 (Nat.not_lt.2 h7)),
    setWidth_seven_of_bit7 h7]

/-! ## The dictionary select -/

/-- Selects 5 to 7 name no operation (R101). -/
theorem decodeDop_reserved {q : PortRequest} (h : 5 ≤ q.dop.toNat) : decodeDop q = none := by
  have hne (k : BitVec 3) (hk : k.toNat < 5) : q.dop ≠ k := by rintro rfl; omega
  simp only [decodeDop, if_neg (hne 0#3 (by decide)), if_neg (hne 1#3 (by decide)), if_neg (hne 2#3 (by decide)),
    if_neg (hne 3#3 (by decide)), if_neg (hne 4#3 (by decide))]

/-! ## The table words of the loader (notes 14) -/

/-- A word of neither select's width is read as the command its bytes begin with. -/
theorem command_of_decodeTableWord {nbits w : Nat} {i : Instr} (h2 : nbits ≠ 2) (h3 : nbits ≠ 3)
    (h : decodeTableWord nbits w = some i) :
    ∃ (c : Command) (rest : List Byte), i = c.toInstr ∧ c.toInstr.wellFormed = true ∧
      tableBytes nbits w = c.bytes ++ rest := by
  simp only [decodeTableWord, if_neg h2, if_neg h3] at h
  split at h
  next c rest hd =>
    obtain ⟨hb, hw⟩ := bytes_of_decodeStream hd
    exact ⟨c, rest, (Option.some.inj h).symm, hw, hb⟩
  all_goals cases h

end Sys2Proof

namespace Sys2Proof.Machine

/-! ## The operand fields (R94, R95) -/

/-- The decoder's formula and the encoder's are one, so it is its own inverse (R95). -/
theorem offsetByte_cacheSource (wc o : Byte) : offsetByte wc (cacheSource wc o) = o := cacheSource_offsetByte wc o

/-- The cursor is the offset byte and one past the source, modulo 256 (R95). -/
theorem cacheSource_add (wc o : Byte) : ((cacheSource wc o).toNat + o.toNat + 1) % 256 = wc.toNat := by
  have h : cacheSource wc o + o + 1#8 = wc := by unfold cacheSource; bv_omega
  simpa [BitVec.toNat_add] using congrArg BitVec.toNat h

/-- The encoder's command byte for a length is the one with the length field `L - 3` (R94). -/
theorem toNat_cacheLength_cacheCommandByte {L : Nat} (h3 : 3 ≤ L) (h130 : L ≤ 130) :
    (cacheLength (cacheCommandByte L)).toNat = L := by
  rw [cacheCommandByte_eq h3 h130, toNat_cacheLength, BitVec.toNat_ofNat]
  omega

/-! ## The step from where the loader puts a word (notes 15) -/

/-- A select that is not reserved is run by `start` as the instruction it names. -/
theorem startWhole_of_decodeOp {op : BitVec 2} {i : Instr} (h : decodeOp op = some i) (s : State) :
    startWhole op s = exec i s := by simp only [startWhole, h]

theorem servePort_of_decodeDop {q : PortRequest} {i : Instr} (h : decodeDop q = some i) (s : State) :
    servePort q s = exec i s := by simp only [servePort, h]

theorem servePort_reserved {q : PortRequest} (h : 5 ≤ q.dop.toNat) (s : State) :
    servePort q s = .refused .reservedDictOp := by simp only [servePort, decodeDop_reserved h]

theorem step_withStart {op : BitVec 2} {i : Instr} (h : decodeOp op = some i) (s : State) :
    step (s.withStart op) = exec i { s.withStart op with host := [] } :=
  (step_host (s := s.withStart op) rfl).trans (startWhole_of_decodeOp h _)

theorem step_withPortRequest {q : PortRequest} {i : Instr} (h : decodeDop q = some i) (s : State) :
    step (s.withPortRequest q) = exec i { s.withPortRequest q with port := [] } :=
  ((step_quiet (s := s.withPortRequest q) rfl).trans (blockStep_serves rfl)).trans (servePort_of_decodeDop h _)

/-- The loader leaves a decompression selected. -/
theorem State.withStreamAt_op (bytes : List Byte) (s : State) :
    (s.withStreamAt bytes).op = 1#2 ∨ (s.withStreamAt bytes).op = 2#2 := by
  simp only [State.withStreamAt]
  split
  · assumption
  · exact .inl rfl

/-- A pass of a decompression, its input in order, is a pass of the decoding loop (R180, R181). -/
theorem State.enginePass_decode {s : State} (hok : s.inputOk = true) (hop : s.op = 1#2 ∨ s.op = 2#2) :
    s.enginePass = s.decodePass := by
  have h0 : s.op ≠ 0#2 := by rcases hop with h | h <;> rw [h] <;> decide
  rw [State.enginePass, hok, if_neg (by simp), if_neg h0, if_pos hop]

/-- The command that stands at the beginning of the bytes laid at `IP` is what the next step executes. -/
theorem step_withStreamAt {s : State} {c : Command} {rest : List Byte} (hok : s.inputOk = true) (hip : s.ip ≤ s.inLen)
    (hc : c.toInstr.wellFormed = true) :
    step (s.withStreamAt (c.bytes ++ rest)) = exec c.toInstr (s.withStreamAt (c.bytes ++ rest)) := by
  obtain ⟨S, hS⟩ := State.inputOk_iff.1 hok
  have hheld := State.withStreamAt_holds (bs := c.bytes ++ rest) hS hip
  have hdrop : (S.take s.ip ++ (c.bytes ++ rest)).drop s.ip = c.bytes ++ rest :=
    List.drop_left' (List.length_take_of_le (hS.2 ▸ hip))
  calc step (s.withStreamAt (c.bytes ++ rest))
      = (s.withStreamAt (c.bytes ++ rest)).enginePass := (step_quiet rfl).trans (blockStep_pass rfl rfl)
    _ = (s.withStreamAt (c.bytes ++ rest)).decodePass :=
        State.enginePass_decode (State.inputOk_iff.2 ⟨_, hheld⟩) (State.withStreamAt_op _ s)
    _ = execCommand c (s.withStreamAt (c.bytes ++ rest)) := State.decodePass_command hheld hc hdrop
    _ = exec c.toInstr (s.withStreamAt (c.bytes ++ rest)) := (exec_toInstr c _).symm

end Sys2Proof.Machine
end

section
/-! PROOFS. The statements of 30_encoding.md. -/

namespace Sys2Proof.Machine

/-- Settles O9: a command is read back from its bytes, whatever follows; a select names its operation, and no select is
bytes of the stream. -/
theorem decodeOfEncodeIsTheInstruction : Obligations.DecodeOfEncodeIsTheInstruction := by
  intro i hi
  cases i with
  | endStream => exact decode_encode_toInstr (c := .endStream) hi
  | run lits => exact decode_encode_toInstr (c := .run lits) hi
  | cache k o => exact decode_encode_toInstr (c := .cache k o) hi
  | compress | decompress | decompressNobuf => exact ⟨rfl, fun _ _ h => by cases h⟩
  | push | read | snapshot | restore | find => exact ⟨rfl, fun _ _ h => by cases h⟩

/-- Settles O7: in each encoding space the loader puts the word where the step looks first. -/
theorem tableWordIsRunByTheNextStep : Obligations.TableWordIsRunByTheNextStep := by
  intro s nbits w i h
  refine ⟨?_, ?_, fun h2 h3 hok hip => ?_⟩
  · rintro rfl
    exact step_withStart h s
  · rintro rfl
    exact step_withPortRequest h s
  · obtain ⟨c, rest, rfl, hc, hb⟩ := command_of_decodeTableWord h2 h3 h
    have hload : s.withFetchWord nbits w = s.withStreamAt (c.bytes ++ rest) := by
      rw [State.withFetchWord, if_neg h2, if_neg h3, hb]
    rw [hload]
    exact step_withStreamAt hok hip hc

/-- Settles O10: the decoder's three answers, each with the bytes it was given for. -/
theorem encodeOfDecodeIsTheBytes : Obligations.EncodeOfDecodeIsTheBytes := by
  refine fun bs => ⟨fun c rest h => ?_, fun c h => ?_, decodeStream_missing_iff⟩
  · obtain ⟨hb, hw⟩ := bytes_of_decodeStream h
    exact ⟨hw, hb.symm⟩
  · obtain ⟨hw, hne, hlt, -⟩ := bytes_of_truncated h
    exact ⟨hw, hne, hlt, take_bytes_of_truncated h⟩

/-- Settles O11: the branches of the decoder, in the order of R97. -/
theorem firstByteDecidesTheCommand : Obligations.FirstByteDecidesTheCommand := by
  refine fun c bs => ⟨?_, fun h0 h7 => ⟨fun hl => ?_, fun hl => ?_⟩, fun h7 => ⟨?_, ?_⟩⟩
  · rintro rfl
    rfl
  · rw [decodeStream_run h0 h7, if_pos hl]
  · rw [decodeStream_run h0 h7, if_neg (Nat.not_le.2 hl)]
    exact ⟨_, by rw [List.length_append, List.length_replicate]; omega, rfl⟩
  · rintro o bs' rfl
    exact decodeStream_cache h7 o bs'
  · rintro rfl
    exact ⟨_, decodeStream_cache_truncated h7⟩

/-- Settles O8: each word is evaluated by the decoder. -/
theorem writtenOutWordsDecode : Obligations.WrittenOutWordsDecode := by
  unfold Obligations.WrittenOutWordsDecode
  decide

/-- Settles O12: each field and its inverse, on the arithmetic modulo 256. -/
theorem operandFieldsAssemble : Obligations.OperandFieldsAssemble := by
  refine ⟨fun k => ⟨cacheByte_toNat k, toNat_cacheLength k, ?_⟩, fun _ => toNat_cacheLength_cacheCommandByte,
    fun wc o idx => ⟨cacheSource_add wc o, cacheSource_offsetByte wc idx, offsetByte_cacheSource wc o⟩,
    fun wc => ⟨?_, ?_⟩, fun _ => runByte_toNat⟩
  · have hk := k.isLt
    rw [cacheCommandByte_eq (by omega) (by omega), Nat.add_sub_cancel, BitVec.ofNat_toNat, BitVec.setWidth_eq]
  · simp [cacheSource]
  · unfold cacheSource; bv_omega

/-- Settles O13: the port's request is served first, and a select above 4 names no operation. -/
theorem reservedDictSelectIsRefused : Obligations.ReservedDictSelectIsRefused := by
  intro s q qs hq hh hp
  rw [step_quiet hh, blockStep_serves hp]
  exact servePort_reserved hq _

end Sys2Proof.Machine
end

section
/-! SUPPORT. The dictionary controller (40_dictionary.md): what each of its operations answers, the scan order of FIND, and
its result in terms of playbacks. -/

namespace Sys2Proof.Machine

variable {s t : State} {seq : List Byte}

/-! ## What each operation answers -/

theorem exec_push (b : Byte) (s : State) : exec (.push b) s = .next (s.push b) := rfl

theorem exec_read (i : Nat) (s : State) : exec (.read i) s = .next { s with readOut := s.dict.read (slotIndex i) } := rfl

theorem exec_snapshot (s : State) : exec .snapshot s = .next s.takeSnapshot := rfl

theorem exec_restore_held {held : Dict} (h : s.shadow = some held) : exec .restore s = .next (s.restoreFrom held) := by
  simp only [exec, execRestore, h]

theorem exec_restore_none (h : s.shadow = none) : exec .restore s = .refused .restoreWithoutSnapshot := by
  simp only [exec, execRestore, h]

/-- FIND within the lengths of its contract (R124). -/
theorem exec_find_of_length (h1 : 1 ≤ seq.length) (h130 : seq.length ≤ 130) (s : State) :
    exec (.find seq) s = .next (s.find seq) := if_pos ⟨h1, h130⟩

/-- FIND outside them (R127). -/
theorem exec_find_refused (h : ¬(1 ≤ seq.length ∧ seq.length ≤ 130)) (s : State) :
    exec (.find seq) s = .refused .findLength := if_neg h

/-- FIND that answers a next state made its search. -/
theorem eq_find_of_exec (h : exec (.find seq) s = .next t) : t = s.find seq := by
  by_cases hl : 1 ≤ seq.length ∧ seq.length ≤ 130
  · rw [exec_find_of_length hl.1 hl.2] at h
    cases h
    rfl
  · rw [exec_find_refused hl] at h
    cases h

/-! ## The slot of an index -/

/-- An index is used modulo 256 (R121). -/
theorem Dict.read_slotIndex (w : Dict) (i : Nat) : w.read (slotIndex i) = w.d.read (i % 256) := by
  rw [Dict.read, slotIndex, BitVec.toNat_ofNat]

/-! ## The scan order of FIND (R124) -/

variable {w : Dict}

/-- The scan offset of a candidate is its distance from the cursor. -/
theorem Dict.toNat_candidate_sub_wc {k : Nat} (h : k < 256) (w : Dict) : (w.candidate k - w.wc).toNat = k := by
  unfold Dict.candidate
  bv_omega

/-- Every slot is a candidate. -/
theorem Dict.exists_candidate (w : Dict) (i : Byte) : ∃ k < 256, w.candidate k = i :=
  ⟨(i - w.wc).toNat, (i - w.wc).isLt, by rw [Dict.candidate, BitVec.ofNat_toNat, BitVec.setWidth_eq]; bv_omega⟩

/-! ## What a search reports -/

/-- FIND reports the first candidate whose playback is the sequence (R125). -/
theorem Dict.search_eq_some_iff_playback {i : Byte} :
    w.search seq = some i ↔
      ∃ k, k < 256 ∧ i = w.candidate k ∧ w.playback i seq.length = some seq ∧
        ∀ k', k' < k → w.playback (w.candidate k') seq.length ≠ some seq := by
  simp only [Dict.search_eq_some_iff, ne_eq, Dict.confirms_iff_playback]
  refine exists_congr fun k => and_congr_right fun _ => and_congr_right ?_
  rintro rfl
  rfl

/-- It reports none exactly when no slot has such a playback (R125). -/
theorem Dict.search_eq_none_iff_playback :
    w.search seq = none ↔ ∀ i, w.playback i seq.length ≠ some seq := by
  simp only [Dict.search_eq_none_iff, ne_eq, Dict.confirms_iff_playback]
  refine ⟨fun h i => ?_, fun h k _ => h _⟩
  obtain ⟨k, hk, rfl⟩ := w.exists_candidate i
  exact h k hk

/-- An `Empty` slot begins no match (R121). -/
theorem Dict.isSome_read_of_confirms {i : Byte} (hne : seq ≠ []) (h : w.confirms i seq = true) :
    (w.read i).isSome = true := by
  cases seq with
  | nil => exact absurd rfl hne
  | cons b bs =>
    cases hr : w.read i with
    | none => simp [Dict.confirms, hr] at h
    | some v => rfl

/-- No candidate the sequence is confirmed at comes before the one reported. -/
theorem Dict.search_first {i : Byte} {k : Nat} (h : w.search seq = some i)
    (hk : w.confirms (w.candidate k) seq = true) : (i - w.wc).toNat ≤ k := by
  obtain ⟨k', hk', rfl, -, hfirst⟩ := Dict.search_eq_some_iff.1 h
  rw [Dict.toNat_candidate_sub_wc hk']
  exact Nat.le_of_not_lt fun hlt => hfirst k hlt hk

end Sys2Proof.Machine
end

section
/-! PROOFS. The statements of 40_dictionary.md. -/

namespace Sys2Proof.Machine

/-- Settles O14: a read after a push, and the dictionary after pushes is the last 256 bytes of what was pushed. -/
theorem pushWritesAtTheCursor : Obligations.PushWritesAtTheCursor := by
  refine ⟨fun b s => ⟨s.push b, exec_push b s, ?_, fun i hi => ?_, ?_, rfl⟩, fun bs => ?_⟩
  · rw [State.push_dict, Dict.read_push, if_pos rfl]
  · rw [State.push_dict, Dict.read_push, if_neg hi]
  · rw [State.push_dict, Dict.push_wc, BitVec.toNat_add]
    rfl
  · exact Dict.remembers_pushAll bs (Dict.remembers_empty Config.wcReset)

/-- Settles O18: the search reports the first playback. -/
theorem findReportsTheFirstPlayback : Obligations.FindReportsTheFirstPlayback :=
  fun seq s h1 h130 => ⟨s.find seq, exec_find_of_length h1 h130 s, rfl, fun _ => Dict.search_eq_some_iff_playback,
    Dict.search_eq_none_iff_playback⟩

/-- Settles O20: the candidate reported for the whole confirms the beginning too, so the first one that does is at or
before it. -/
theorem foundSequencesHaveFoundPrefixes : Obligations.FoundSequencesHaveFoundPrefixes := by
  intro w p q i hne h
  obtain ⟨i', hi'⟩ := Option.isSome_iff_exists.1 (Dict.search_isSome_of_append (Option.isSome_of_eq_some h))
  obtain ⟨k, hk, rfl, hconfirms, -⟩ := Dict.search_eq_some_iff.1 h
  obtain ⟨k', -, rfl, hconfirms', -⟩ := Dict.search_eq_some_iff.1 hi'
  refine ⟨_, hi', ?_, Dict.isSome_read_of_confirms hne hconfirms'⟩
  rw [Dict.toNat_candidate_sub_wc hk]
  exact Dict.search_first hi' (Dict.confirms_append_left hconfirms)

/-- Settles O21: the search moves with the slots, and the offset byte is the distance from the cursor. -/
theorem findIsTranslationInvariant : Obligations.FindIsTranslationInvariant := by
  intro w v r seq hwc hslots
  have hmoved : Dict.MovedBy r w v := ⟨hwc, hslots⟩
  refine ⟨hmoved.search seq, fun i _ => ?_⟩
  rw [hwc]
  exact offsetByte_moved w.wc i r

/-- Settles O15: the index is used modulo 256. -/
theorem readGivesTheSlot : Obligations.ReadGivesTheSlot :=
  fun i s => ⟨_, exec_read i s, s.dict.read_slotIndex i, rfl⟩

/-- Settles O16: the shadow is written whatever it held. -/
theorem snapshotCopiesTheDictionary : Obligations.SnapshotCopiesTheDictionary :=
  fun s => ⟨s.takeSnapshot, exec_snapshot s, rfl, rfl⟩

/-- Settles O17: pushes leave the shadow as SNAPSHOT made it, and every FIND drops it. -/
theorem restoreCopiesTheShadowBack : Obligations.RestoreCopiesTheShadowBack := by
  refine ⟨fun s held h => ⟨s.restoreFrom held, exec_restore_held h, rfl, h, rfl⟩, fun s h => exec_restore_none h,
    fun s u bs h => ?_, fun s t seq h => ?_⟩
  · cases h
    have hheld : (s.takeSnapshot.pushAll bs).shadow = some s.dict := by
      rw [State.pushAll_frame]
      rfl
    exact ⟨_, exec_restore_held hheld, rfl⟩
  · rw [eq_find_of_exec h]
    rfl

/-- Settles O19: neither length is within the contract. -/
theorem findRefusesOtherLengths : Obligations.FindRefusesOtherLengths :=
  fun _ s h => exec_find_refused (by omega) s

end Sys2Proof.Machine
end

section
/-! SUPPORT. The encoder's chunks as passes of COMPRESS (41_encoder.md): where a chunk begins, and that a stream with a
logical output begins with a RUN. -/

namespace Sys2Proof.Machine

variable {S : List Byte} {s : State}

/-- Where a chunk of COMPRESS begins (R150): `FPC` and `MODE` are written, and DECIDE has left `f` in `FRES` and no
snapshot. -/
def State.chunkStart (m : EncMode) (f : Option Byte) (s : State) : State :=
  { s with fpc := s.ip, mode := m, fres := f, shadow := none }

/-- The chunk of a mode (R150). -/
def State.chunk : EncMode → State → State
  | .cache => State.cacheChunk
  | .run => State.runChunk

/-- What DECIDE answers does not depend on `FPC`. -/
theorem State.decideMode_markStart (hS : s.inputBytes S) : s.markStart.decideMode.1 = s.decideMode.1 := by
  have hiff : s.markStart.decideMode.1 = .cache ↔ s.decideMode.1 = .cache :=
    (State.decideMode_cache_iff (s := s.markStart) hS).trans (State.decideMode_cache_iff hS).symm
  cases hm : s.markStart.decideMode.1 with
  | cache => exact (hiff.1 hm).symm
  | run =>
    cases hd : s.decideMode.1 with
    | cache => rw [hiff.2 hd] at hm; cases hm
    | run => rfl

/-- With input left, a pass of COMPRESS is a chunk of the mode DECIDE says (R150). -/
theorem State.compressPass_eq_chunk {m : EncMode} (hS : s.inputBytes S) (hip : s.ip < S.length)
    (hm : s.decideMode.1 = m) : ∃ f, s.compressPass = (s.chunkStart m f).chunk m := by
  have hrem : s.inputRemains = true := by simp [State.inputRemains, hS.2, hip]
  have hmode : s.markStart.decideMode.1 = m := (State.decideMode_markStart hS).trans hm
  have hprobed := State.decideMode_probed (s := s.markStart) hS hip
  unfold State.compressPass
  rw [if_pos hrem]
  dsimp only
  rw [hmode, hprobed]
  cases m with
  | cache => exact ⟨_, rfl⟩
  | run => exact ⟨_, rfl⟩

/-- A RUN is a chunk's command where it has 1 to 127 literals (R90). -/
theorem Command.isChunk_run_iff {xs : List Byte} :
    (Command.run xs).isChunk = true ↔ 1 ≤ xs.length ∧ xs.length ≤ 127 := by
  simp only [Command.isChunk, Bool.and_eq_true, decide_eq_true_eq]

/-- RunChunk leaves no snapshot held that was not held before. -/
theorem State.runChunk_shadow (s : State) : ShadowDropped s s.runChunk :=
  (State.runLoop_shadow Config.runMax s.clearLiterals).trans (.outAppendAll _ (State.outAppend _ _))

/-- A RUN chunk meets one of its end tests after `n` literals exactly where it is full, the input is exhausted, or the long
probe is found with the literals pushed (R152). -/
theorem runEndsAt_iff (hS : s.inputBytes S) (n : Nat) :
    RunEndsAt S s n ↔ n = 127 ∨ s.ip + n = S.length ∨ s.CacheAfter S n :=
  or_congr_right (or_congr_right
    (State.decideMode_cache_iff (s := { s with ip := s.ip + n, dict := s.dict.pushAll (slice S s.ip n) }) hS))

/-- A stream's first command is a RUN where it has a logical output, for a CACHE has nothing behind it to copy (R156 (e)). -/
theorem head_isRun_of_logicalOutput {cs : List Command} (hne : S ≠ []) (hc : ∀ c ∈ cs, c.isChunk = true)
    (h : logicalOutput cs = some S) : ∃ lits, cs.head? = some (.run lits) := by
  cases cs with
  | nil => cases h; exact absurd rfl hne
  | cons c cs =>
    cases c with
    | endStream => exact absurd (hc _ List.mem_cons_self) (by decide)
    | run lits => exact ⟨lits, rfl⟩
    | cache k o =>
      have hnone : copyBack (k.toNat + 3) (o.toNat + 1) [] = none := by simp [copyBack]
      simp [logicalOutput, logicalFrom, Command.extend, hnone] at h

end Sys2Proof.Machine
end

section
/-! PROOFS. The statements of 41_encoder.md. -/

namespace Sys2Proof.Machine

/-- Settles O34: the passes of COMPRESS keep `Encoding` up to the end of the input, where the terminator is appended. -/
theorem compressEncodesEveryInput : Obligations.CompressEncodesEveryInput := by
  intro s S hb hS
  obtain ⟨t, cs, hloop, henc, hip, hhost, hmem, hlen⟩ :=
    (Encoding.begin hS).chunks_all (s.inLen + 1) (by rw [hS.2]; exact Nat.lt_add_left _ (Nat.lt_succ_self _))
  have hexec : exec .compress s = .next (t.outAppend 0x00#8).finish := (if_neg hb).trans hloop
  have hall : S.take t.ip = S := by rw [hip, List.take_length]
  have hlogical : logicalOutput cs = some S := henc.logical.trans (congrArg some hall)
  have hdict : t.dict.remembers S := hall ▸ henc.dict
  exact ⟨_, cs, hexec, rfl, henc.status, henc.warn, henc.dropped, hip, hmem, hlen, hhost, henc.select,
    State.outAppendAll_holds [0x00#8] henc.output, henc.chunks, hlogical, hdict,
    fun hne => head_isRun_of_logicalOutput hne henc.chunks hlogical⟩

/-- Settles O38: the long probe found has its first byte found, so the short probe never overrules it. -/
theorem longProbeAloneDecides : Obligations.LongProbeAloneDecides :=
  fun _ _ hS => ⟨State.decideMode_cache_iff hS, fun hip => congrArg Prod.snd (State.decideMode_at_end hS hip),
    State.decideMode_probed hS⟩

/-- Settles O37: the pass is CacheChunk, whose growth loop stops at the longest candidate that is found. -/
theorem cacheChunkIsTheLongestMatch : Obligations.CacheChunkIsTheLongestMatch := by
  intro s S hS hcache
  obtain ⟨hlen, hfound⟩ := State.long_probe_of_cache hS hcache
  obtain ⟨f, hpass⟩ : ∃ f, s.compressPass = (s.chunkStart .cache f).cacheChunk :=
    State.compressPass_eq_chunk hS (by omega) hcache
  obtain ⟨k, o, xs, hchunk, -, -, hk, hsearch, hlongest, hcand, hfres, hshadow, i, w, c, f', h, p, q, hframe⟩ :=
    State.cacheChunk_chunk (s := s.chunkStart .cache f) hS hlen hfound
  rw [← hpass] at hchunk hcand hfres hshadow hframe
  refine ⟨s.compressPass, k, o, xs, rfl, fun hb hop hp hh => step_compress hb hop hp hh hS, hk ▸ hchunk.covers, hk.symm,
    hchunk.appended.congr rfl rfl rfl rfl, hchunk.ip, hchunk.dict, hsearch, hlongest, hchunk.mode, hcand, hfres,
    hshadow, hchunk.fpc, ?_⟩
  rw [hframe]
  rfl

/-- Settles O53: the pass is RunChunk, whose reading loop stops at the first byte at which an end test is met. -/
theorem runChunkEndsAtTheFirstLimit : Obligations.RunChunkEndsAtTheFirstLimit := by
  intro s S hS hip hrun
  obtain ⟨f, hpass⟩ : ∃ f, s.compressPass = (s.chunkStart .run f).runChunk :=
    State.compressPass_eq_chunk hS hip hrun
  obtain ⟨xs, hchunk, hlit, hend, hfirst⟩ := State.runChunk_ends (s := s.chunkStart .run f) hS hip
  obtain ⟨-, hle⟩ := Command.isChunk_run_iff.1 hchunk.isChunk
  have hshadow : s.compressPass.shadow = none := by
    rw [hpass]
    exact (State.runChunk_shadow (s.chunkStart .run f)).elim id id
  obtain ⟨i, w, l, f', h, p, q, hframe⟩ := State.runChunk_frame (s.chunkStart .run f)
  rw [← hpass] at hchunk hlit hframe
  refine ⟨s.compressPass, xs, rfl, fun hb hop hp hh => step_compress hb hop hp hh hS, hchunk.covers, hchunk.nonempty,
    hle, (runEndsAt_iff hS _).2 hend, fun n h1 hn hends => ?_, hchunk.appended.congr rfl rfl rfl rfl, hchunk.ip,
    hchunk.dict, hchunk.mode, hlit, hshadow, hchunk.fpc, ?_⟩
  · obtain ⟨h127, hrest, hnot⟩ := hfirst n h1 hn
    rcases (runEndsAt_iff hS n).1 hends with he | he | he
    · exact h127 he
    · exact hrest he
    · exact hnot he
  · rw [hframe]
    rfl

end Sys2Proof.Machine
end

section
/-! SUPPORT. The commands of the stream as instructions, and whole decompressions (42_decoder.md): END in its two cases, what
RUN and CACHE share, the command a step finds at `IP`, and where a decompression ends. -/

namespace Sys2Proof.Machine

variable {s t : State}

/-! ## END (R184) -/

/-- Where END leaves the block, its byte being present. -/
def State.ended (s : State) : State := ((s.began 0x00#8).loopRegs (s.ip + 1) s.cnt s.src).discardPending.finish

theorem exec_endStream (h : s.ip < s.inLen) : exec .endStream s = .next s.ended := execEnd_present h

/-- With bytes pending in buffered output they are discarded, and the warning says how many (R31). -/
theorem State.ended_of_pending (h : s.op ≠ 2#2 ∧ s.grp ≠ []) :
    s.ended = { s with
      phase := .done, ip := s.ip + 1, fpc := s.ip, cmd := 0x00#8, warn := true,
      dropped := BitVec.ofNat 2 s.grp.length, grp := [] } := by
  have hp : ((s.began 0x00#8).loopRegs (s.ip + 1) s.cnt s.src).op ≠ 2#2 ∧
      ((s.began 0x00#8).loopRegs (s.ip + 1) s.cnt s.src).grp ≠ [] := h
  rw [State.ended, State.discardPending_eq, if_pos hp]
  rfl

/-- Otherwise nothing is discarded and nothing is said. -/
theorem State.ended_of_none_pending (h : ¬(s.op ≠ 2#2 ∧ s.grp ≠ [])) :
    s.ended = { s with phase := .done, ip := s.ip + 1, fpc := s.ip, cmd := 0x00#8 } := by
  have hp : ¬(((s.began 0x00#8).loopRegs (s.ip + 1) s.cnt s.src).op ≠ 2#2 ∧
      ((s.began 0x00#8).loopRegs (s.ip + 1) s.cnt s.src).grp ≠ []) := h
  rw [State.ended, State.discardPending_eq, if_neg hp]
  rfl

/-- A count of at most three pending bytes fits `DROPPED` (R31). -/
theorem toNat_ofNat_two {n : Nat} (h : n < 4) : (BitVec.ofNat 2 n).toNat = n := by
  rw [BitVec.toNat_ofNat]
  omega

/-! ## RUN and CACHE (R182, R183, R185) -/

/-- Where a RUN or CACHE that completes leaves the block: begun by its command byte `cb`, `bs` produced, its loop
registers at their last values. -/
def State.ranOver (cb : Byte) (bs : List Byte) (ip : Nat) (cnt src : Byte) (s : State) : State :=
  ((s.began cb).produceAll bs).loopRegs ip cnt src

theorem exec_run_present {lits : List Byte} (h : s.ip + 1 + lits.length ≤ s.inLen) :
    exec (.run lits) s = .next (s.ranOver (runByte lits.length) lits (s.ip + 1 + lits.length) 0x00#8 s.src) :=
  execRun_present h

theorem exec_cache_playback {k : BitVec 7} {o : Byte} {bs : List Byte} (h : s.ip + 1 < s.inLen)
    (hp : s.dict.playback (cacheSource s.dict.wc o) (k.toNat + 3) = some bs) :
    exec (.cache k o) s = .next (s.ranOver (cacheByte k) bs (s.ip + 2) 0x00#8
      (cacheSource s.dict.wc o + BitVec.ofNat 8 (k.toNat + 3))) :=
  execCache_playback h hp

/-- The bytes are output and pushed. -/
theorem State.ranOver_delivers (cb : Byte) (bs : List Byte) (ip : Nat) (cnt src : Byte) (h : s.grp.length < 4) :
    Delivered bs s (s.ranOver cb bs ip cnt src) ∧ (s.ranOver cb bs ip cnt src).dict = s.dict.pushAll bs :=
  ⟨(Delivered.produceAll bs (s := s.began cb) h).congr rfl rfl rfl rfl rfl rfl rfl,
    State.produceAll_dict bs (s.began cb)⟩

/-- The head of the decoding loop has written `FPC` and `CMD` (R180); only the output, the dictionary and the loop registers
are written besides. -/
theorem State.ranOver_frame (cb : Byte) (bs : List Byte) (ip : Nat) (cnt src : Byte) (s : State) :
    ∃ w m n g, s.ranOver cb bs ip cnt src = { s with
      dict := w, outMem := m, outLen := n, grp := g, ip := ip, fpc := s.ip, cmd := cb, cnt := cnt, src := src } := by
  rw [State.ranOver, State.produceAll_frame]
  exact ⟨_, _, _, _, rfl⟩

/-! ## A command that does not fault -/

/-- It advances `IP` by its length (R190). -/
theorem CommandRan.ip_of_not_faulted {c : Command} (h : CommandRan c s t) (ht : t.phase ≠ .faulted) :
    t.ip = s.ip + c.bytes.length := by
  cases h.ending with
  | completes _ _ _ hip => exact hip
  | ends hend _ _ hip => rw [hip, hend]; rfl
  | faults hphase => exact absurd hphase ht

/-! ## The command at `IP` -/

/-- Bytes that stand in the input at an address are where the rest of it begins. -/
theorem State.drop_of_holdsAt {S bs : List Byte} {a : Nat} (hS : s.inMem.holds s.inLen S) (h : s.holdsAt a bs) :
    ∃ rest, S.drop a = bs ++ rest := by
  have htake : (S.drop a).take bs.length = bs := by
    refine List.ext_getElem? fun j => ?_
    by_cases hj : j < bs.length
    · rw [List.getElem?_take_of_lt hj, List.getElem?_drop, ← State.inByte_of_holds hS, h j hj]
    · rw [List.getElem?_take_eq_none (Nat.not_lt.1 hj), List.getElem?_eq_none (Nat.not_lt.1 hj)]
  exact ⟨_, (List.take_append_drop bs.length (S.drop a)).symm.trans (congrArg (· ++ _) htake)⟩

/-- The block's own move in a decompression executes the command that stands at `IP`. -/
theorem blockStep_command {c : Command} (hc : c.toInstr.wellFormed = true) (hb : s.phase = .busy)
    (hop : s.op = 1#2 ∨ s.op = 2#2) (hok : s.inputOk = true) (hp : s.port = []) (h : s.holdsAt s.ip c.bytes) :
    blockStep s = exec c.toInstr s := by
  obtain ⟨S, hS⟩ := State.inputOk_iff.1 hok
  obtain ⟨rest, hdrop⟩ := State.drop_of_holdsAt hS h
  calc blockStep s
      = s.enginePass := blockStep_pass hp hb
    _ = s.decodePass := State.enginePass_decode hok hop
    _ = execCommand c s := State.decodePass_command hS hc hdrop
    _ = exec c.toInstr s := (exec_toInstr c s).symm

theorem decodeOp_of_decode {op : BitVec 2} {i : Instr} {rest : List Byte} (h : decode (.op op) = .instr i rest) :
    decodeOp op = some i := by
  cases hd : decodeOp op with
  | none =>
    simp only [decode, hd] at h
    cases h
  | some j =>
    simp only [decode, hd] at h
    cases h
    rfl

theorem decodeDop_of_decode {q : PortRequest} {i : Instr} {rest : List Byte} (h : decode (.dop q) = .instr i rest) :
    decodeDop q = some i := by
  cases hd : decodeDop q with
  | none =>
    simp only [decode, hd] at h
    cases h
  | some j =>
    simp only [decode, hd] at h
    cases h
    rfl

/-! ## The end of a decompression -/

variable {P : List Byte}

/-- A decompression begun at `s` has ended at `t` with the logical output `P`, `n` stream bytes consumed: the bytes that
were still pending are cut off and counted (R184, R187). -/
structure Decompressed (op : BitVec 2) (P : List Byte) (n : Nat) (s t : State) : Prop where
  phase : t.phase = .done
  status : t.status = 0#3
  output : t.outMem.holds t.outLen (released op P)
  dropped : t.dropped.toNat = (pending op P).length
  warn : t.warn = true ↔ (pending op P).length ≠ 0
  ip : t.ip = n
  select : t.op = op
  dict : t.dict.remembers P
  inMem : t.inMem = s.inMem
  inLen : t.inLen = s.inLen
  host : t.host = s.host

/-- END takes a decompression that has produced `P` to its end. -/
theorem Decoding.ended {S : List Byte} (h : Decoding S P s) : Decompressed s.op P (s.ip + 1) s s.ended := by
  by_cases hp : s.op ≠ 2#2 ∧ s.grp ≠ []
  · have hdropped : (BitVec.ofNat 2 s.grp.length).toNat = (pending s.op P).length := by
      rw [toNat_ofNat_two h.group_lt, h.group]
    have hne : (pending s.op P).length ≠ 0 := by
      rw [← h.group]
      exact fun h0 => hp.2 (List.length_eq_zero_iff.1 h0)
    rw [State.ended_of_pending hp]
    exact ⟨rfl, h.status, h.output, hdropped, iff_of_true rfl hne, rfl, rfl, h.dict, rfl, rfl, rfl⟩
  · have hnone : (pending s.op P).length = 0 := by
      rw [List.length_eq_zero_iff]
      by_cases hop : s.op = 2#2
      · exact if_pos hop
      · rw [← h.group]
        exact not_not.1 fun hg => hp ⟨hop, hg⟩
    rw [State.ended_of_none_pending hp]
    refine ⟨rfl, h.status, h.output, ?_, ?_, rfl, rfl, h.dict, rfl, rfl, rfl⟩
    · rw [hnone, h.dropped]
      rfl
    · rw [hnone, h.warn]
      decide

/-- The pass that finds the END byte executes END. -/
theorem Decoding.endPass {S rest : List Byte} (h : Decoding S P s) (hb : S.drop s.ip = 0x00#8 :: rest) :
    s.enginePass = .next s.ended := by
  have hlt : s.ip < s.inLen := by
    have hl := congrArg List.length hb
    rw [List.length_drop, List.length_cons] at hl
    rw [h.input.2]
    omega
  calc s.enginePass
      = s.decodePass := h.pass_eq
    _ = execCommand .endStream s := State.decodePass_command (c := .endStream) h.input rfl hb
    _ = .next s.ended := exec_endStream hlt

/-- A whole decompression of a stream with a defined logical output (R180, R181, R187): its commands keep `Decoding`, and END
ends it. -/
theorem runOperation_decompressed {op : BitVec 2} {cs : List Command} {rest : List Byte} (hop : op = 1#2 ∨ op = 2#2)
    (hb : s.phase ≠ .busy) (hc : ∀ c ∈ cs, c.isChunk = true)
    (hS : s.inMem.holds s.inLen (streamBytes cs ++ 0x00#8 :: rest)) (hP : logicalOutput cs = some P) :
    ∃ t, runOperation op s = .next t ∧ Decompressed op P ((streamBytes cs).length + 1) s t := by
  obtain ⟨n, hn⟩ : ∃ n, s.inLen + 1 = n + 1 + cs.length := by
    refine ⟨s.inLen - cs.length, ?_⟩
    have hle := streamBytes_length_ge (cs := cs)
    have hl := hS.2
    rw [List.length_append] at hl
    omega
  obtain ⟨u, hloop, hu, hip, hhost, hsel, hlen, hmem, hdrop⟩ :=
    (Decoding.begin hS hop).commands (n + 1) hc List.drop_zero hP
  have hend : operationLoop (n + 1) u = .next u.ended := operationLoop_last n hu.busy (hu.endPass hdrop) (by
    rw [hu.ended.phase]
    decide)
  have hsel' : u.op = op := hsel
  have hip' : u.ip = (streamBytes cs).length := hip.trans (Nat.zero_add _)
  have he := hu.ended
  rw [hsel', hip'] at he
  refine ⟨u.ended, ?_, { he with
    inMem := he.inMem.trans hmem, inLen := he.inLen.trans hlen, host := he.host.trans hhost }⟩
  rw [runOperation, if_neg hb, hn, hloop, hend]

/-- Buffered output is cut to whole groups of four (R189). -/
theorem released_buffered (P : List Byte) : released 1#2 P = P.take (P.length - P.length % 4) := by
  rw [released, if_neg (by decide), show 4 * (P.length / 4) = P.length - P.length % 4 by omega]

theorem length_pending_buffered (P : List Byte) : (pending 1#2 P).length = P.length % 4 := by
  rw [pending, if_neg (by decide), List.length_drop]
  omega

end Sys2Proof.Machine
end

section
/-! PROOFS. The statements of 42_decoder.md. -/

namespace Sys2Proof.Machine

/-- Settles O30: both operations keep `Decoding` up to the END, where what is pending is nothing in no-buffer mode and the
odd bytes in buffered mode. -/
theorem decompressionOutputsTheLogicalOutput : Obligations.DecompressionOutputsTheLogicalOutput := by
  intro s cs rest P hb hc hS hP
  obtain ⟨t, ht, hd⟩ := runOperation_decompressed (.inr rfl) hb hc hS hP
  obtain ⟨u, hu, he⟩ := runOperation_decompressed (.inl rfl) hb hc hS hP
  refine ⟨⟨t, ht, hd.phase, hd.status, hd.output, ?_, BitVec.eq_of_toNat_eq hd.dropped, hd.ip, hd.select, hd.dict,
    hd.inMem, hd.inLen, hd.host⟩, u, hu, he.phase, he.status, ?_, ?_, ?_, he.ip, he.select, he.dict, he.inMem, he.inLen,
    he.host⟩
  · exact Bool.eq_false_iff.2 fun hw => hd.warn.1 hw rfl
  · rw [← released_buffered]
    exact he.output
  · rw [← length_pending_buffered]
    exact he.dropped
  · rw [← length_pending_buffered]
    exact he.warn

/-- Settles O35: what COMPRESS leaves in `OUT` is a stream whose logical output is its input. -/
theorem roundTripForEveryInput : Obligations.RoundTripForEveryInput := by
  intro s u S hb hS
  obtain ⟨t, cs, hexec, hdone, -, -, -, -, -, -, -, -, hout, hc, hlogical, -⟩ :=
    compressEncodesEveryInput s S hb hS
  refine ⟨t, hexec, hdone, fun hu hmem hlen => ?_⟩
  have hstream : u.inMem.holds u.inLen (streamBytes cs ++ [0x00#8]) := by rwa [hmem, hlen]
  obtain ⟨⟨v, hv, hvp, hvs, hvo, -⟩, w, hw, hwp, hws, hwo, -⟩ :=
    decompressionOutputsTheLogicalOutput u cs [] S hu hc hstream hlogical
  exact ⟨⟨v, hv, hvp, hvs, hvo⟩, w, hw, hwp, hws, hwo⟩

/-- Settles O23: every literal is present, so the loop of RUN produces them all. -/
theorem runProducesItsLiterals : Obligations.RunProducesItsLiterals := by
  intro lits s hwf hg hfit
  obtain ⟨-, hle⟩ := Command.isChunk_run_iff.1 hwf
  obtain ⟨hdelivered, hdict⟩ := State.ranOver_delivers _ lits _ 0x00#8 _ hg
  obtain ⟨w, m, n, g, hframe⟩ := State.ranOver_frame _ lits _ 0x00#8 _ s
  refine ⟨_, exec_run_present hfit, hdelivered, hdict, ?_⟩
  rw [hframe]
  exact ⟨rfl, rfl, runByte_toNat hle, rfl, rfl⟩

/-- Settles O25: the copy plays back, so its loop produces the playback. -/
theorem cacheCopiesFromTheDictionary : Obligations.CacheCopiesFromTheDictionary := by
  intro k o s bs hg hfit hp
  obtain ⟨hdelivered, hdict⟩ := State.ranOver_delivers _ bs _ 0x00#8 _ hg
  obtain ⟨w, m, n, g, hframe⟩ := State.ranOver_frame _ bs _ 0x00#8 _ s
  refine ⟨_, exec_cache_playback hfit hp, Dict.length_of_playback hp, hdelivered, hdict, ?_⟩
  rw [hframe]
  exact ⟨rfl, rfl, cacheByte_toNat k, rfl, rfl, rfl⟩

/-- Settles O51: of the ways a command can go, only a fault leaves `IP` elsewhere. -/
theorem commandsAdvanceByTheirLength : Obligations.CommandsAdvanceByTheirLength := by
  intro s t c _ h _ ht
  obtain ⟨u, hu, hran⟩ := execCommand_ran c s
  rw [exec_toInstr, hu] at h
  cases h
  exact hran.ip_of_not_faulted ht

/-- Settles O6: the host's action, the port's request and the command at `IP`, each where the step looks for it. -/
theorem stepRunsTheDecodedInstruction : Obligations.StepRunsTheDecodedInstruction := by
  refine ⟨fun s c hc hb hop hok hp hat => ⟨fun hh => ?_, fun rest hh => ?_⟩, fun s op i rest hd hh => ?_,
    fun s q qs i hd hh hp => ?_⟩
  · rw [step_quiet hh]
    exact blockStep_command hc hb hop hok hp hat
  · rw [step_host hh]
    exact blockStep_command (s := { s with host := rest }) hc hb hop hok hp hat
  · rw [step_host hh]
    exact startWhole_of_decodeOp (decodeOp_of_decode hd) _
  · rw [step_quiet hh, blockStep_serves hp]
    exact servePort_of_decodeDop (decodeDop_of_decode hd) _

/-- Settles O22: END with and without bytes to discard. -/
theorem endStopsAndWarns : Obligations.EndStopsAndWarns := by
  intro s hip
  refine ⟨s.ended, exec_endStream hip, ?_⟩
  by_cases hp : s.op ≠ 2#2 ∧ s.grp ≠ []
  · rw [State.ended_of_pending hp]
    refine ⟨rfl, rfl, rfl, rfl, fun _ _ h3 => ⟨rfl, toNat_ofNat_two (Nat.lt_succ_of_le h3), rfl⟩, fun hnone => ?_, rfl⟩
    exact (hnone.elim hp.1 hp.2).elim
  · rw [State.ended_of_none_pending hp]
    refine ⟨rfl, rfl, rfl, rfl, fun hop h1 _ => ?_, fun _ => ⟨rfl, rfl, rfl⟩, rfl⟩
    exact absurd ⟨hop, List.ne_nil_of_length_pos h1⟩ hp

end Sys2Proof.Machine
end

section
/-! SUPPORT. How a command or an operation comes to fault (60_exceptions.md): the command it stands in has produced what it
could, the registers say why and where, and a whole decompression ends there. -/

namespace Sys2Proof.Machine

variable {s t : State}

/-! ## The reserved select (R214) -/

/-- Initialising puts every element at the value of R42. -/
theorem AtReset.initialise (s : State) : AtReset s.initialise where
  slots _ := rfl
  wc := rfl
  notHeld := rfl
  fres := rfl
  ip := rfl
  outMem _ := rfl
  outLen := rfl
  warn := rfl
  dropped := rfl
  fpc := rfl
  mode := rfl
  litn := rfl
  candn := rfl
  cmd := rfl
  cnt := rfl
  src := rfl
  gcnt := rfl

/-- Refusing the reserved select writes `OP` and the fault's registers only. -/
theorem AtReset.beginReserved (op : BitVec 2) (s : State) : AtReset (s.beginReserved op) := { AtReset.initialise s with }

theorem startWhole_reserved (hb : s.phase ≠ .busy) : startWhole 3#2 s = .next (s.beginReserved 3#2) := if_neg hb

/-- Both forms of `start` refuse it alike. -/
theorem step_start_reserved {rest : List HostAction} (hb : s.phase ≠ .busy)
    (hh : s.host = .start 3#2 :: rest ∨ s.host = .startStepped 3#2 :: rest) :
    step s = .next ({ s with host := rest }.beginReserved 3#2) := by
  rcases hh with hh | hh
  · exact (step_host hh).trans (startWhole_reserved (s := { s with host := rest }) hb)
  · exact (step_host hh).trans (congrArg _ (startStepped_reserved (s := { s with host := rest }) hb))

/-! ## A command that faults -/

/-- The bytes before a copy meets an `Empty` slot play back. -/
theorem Dict.playback_playable (w : Dict) (i : Byte) (n : Nat) :
    w.playback i (w.playable i n).length = some (w.playable i n) := by
  induction n generalizing w i with
  | zero => rfl
  | succ n ih =>
    rw [Dict.playable]
    cases hr : w.read i with
    | none => rfl
    | some b => simp only [List.length_cons, Dict.playback, hr, ih, Option.map_some]

/-- And the slot after them is the `Empty` one. -/
theorem Dict.read_after_playable {w : Dict} {i : Byte} {n : Nat} (h : w.playback i n = none) :
    (w.pushAll (w.playable i n)).read (i + BitVec.ofNat 8 (w.playable i n).length) = none := by
  induction n generalizing w i with
  | zero => cases h
  | succ n ih =>
    rw [Dict.playback] at h
    rw [Dict.playable]
    cases hr : w.read i with
    | none => simpa using hr
    | some b =>
      simp only [hr, Option.map_eq_none_iff] at h
      simpa only [Dict.pushAll_cons, List.length_cons, add_ofNat_succ] using ih h

/-- Where a command that faults leaves the block: run as far as it could, and the fault raised. -/
def State.faultedOver (cb : Byte) (bs : List Byte) (ip : Nat) (cnt src : Byte) (f : FaultKind) (info : Byte)
    (s : State) : State :=
  (s.ranOver cb bs ip cnt src).raise f info

/-- The bytes that could be produced are output and pushed (R219). -/
theorem State.faultedOver_delivers (cb : Byte) (bs : List Byte) (ip : Nat) (cnt src : Byte) (f : FaultKind) (info : Byte)
    (h : s.grp.length < 4) :
    Delivered bs s (s.faultedOver cb bs ip cnt src f info) ∧
      (s.faultedOver cb bs ip cnt src f info).dict = s.dict.pushAll bs := by
  obtain ⟨hdelivered, hdict⟩ := State.ranOver_delivers cb bs ip cnt src h
  exact ⟨hdelivered.congr rfl rfl rfl rfl rfl rfl rfl, hdict⟩

/-- The fault writes its number, its information and the phase, and `FPC` keeps where the command began (R219). -/
theorem State.faultedOver_frame (cb : Byte) (bs : List Byte) (ip : Nat) (cnt src : Byte) (f : FaultKind) (info : Byte)
    (s : State) :
    ∃ w m n g, s.faultedOver cb bs ip cnt src f info = { s with
      dict := w, outMem := m, outLen := n, grp := g, ip := ip, fpc := s.ip, cmd := cb, cnt := cnt, src := src,
      phase := .faulted, status := f.code, finfo := info } := by
  obtain ⟨w, m, n, g, hframe⟩ := State.ranOver_frame cb bs ip cnt src s
  refine ⟨w, m, n, g, ?_⟩
  rw [State.faultedOver, hframe]
  rfl

theorem exec_run_truncated {lits : List Byte} (h0 : s.ip < s.inLen) (h : s.inLen < s.ip + 1 + lits.length) :
    exec (.run lits) s = .next (s.faultedOver (runByte lits.length) (lits.take (s.inLen - s.ip - 1)) s.inLen
      (BitVec.ofNat 8 (s.ip + 1 + lits.length - s.inLen)) s.src .truncatedStream (runByte lits.length)) :=
  execRun_truncated h0 h

theorem exec_cache_truncated {k : BitVec 7} {o : Byte} (h : s.ip + 1 = s.inLen) :
    exec (.cache k o) s = .next (s.faultedOver (cacheByte k) [] (s.ip + 1) (BitVec.ofNat 8 (k.toNat + 3)) s.src
      .truncatedStream (cacheByte k)) :=
  execCache_truncated (by omega) (by omega)

theorem exec_cache_undefined {k : BitVec 7} {o : Byte} {bs : List Byte} (h : s.ip + 1 < s.inLen)
    (hb : s.dict.playable (cacheSource s.dict.wc o) (k.toNat + 3) = bs)
    (hp : s.dict.playback (cacheSource s.dict.wc o) (k.toNat + 3) = none) :
    bs.length < k.toNat + 3 ∧ exec (.cache k o) s = .next (s.faultedOver (cacheByte k) bs (s.ip + 2)
      (BitVec.ofNat 8 (k.toNat + 3 - bs.length)) (cacheSource s.dict.wc o + BitVec.ofNat 8 bs.length)
      .undefinedDictionaryRead (cacheSource s.dict.wc o + BitVec.ofNat 8 bs.length)) :=
  execCache_undefined h hb hp

/-! ## Where the stream is cut (R211) -/

/-- From `s` TruncatedStream was raised for the command at `IP`, all of the input consumed. -/
structure CutOff (info : Byte) (s t : State) : Prop where
  phase : t.phase = .faulted
  status : t.status = 1#3
  fpc : t.fpc = s.ip
  ip : t.ip = s.inLen
  finfo : t.finfo = info

theorem CutOff.faultedOver (cb : Byte) (bs : List Byte) (cnt src info : Byte) (s : State) :
    CutOff info s (s.faultedOver cb bs s.inLen cnt src .truncatedStream info) := by
  obtain ⟨w, m, n, g, hframe⟩ := State.faultedOver_frame cb bs s.inLen cnt src .truncatedStream info s
  rw [hframe]
  exact ⟨rfl, rfl, rfl, rfl, rfl⟩

/-- A command the input breaks off inside raises TruncatedStream with its command byte. -/
theorem execCommand_cutOff {c : Command} (h0 : s.ip < s.inLen) (h : s.inLen < s.ip + c.bytes.length) :
    ∃ t, execCommand c s = .next t ∧ CutOff (c.bytes.headD 0x00#8) s t := by
  cases c with
  | endStream => exact absurd h0 (Nat.not_lt.2 (Nat.le_of_lt_succ h))
  | run lits =>
    rw [Command.bytes, List.length_cons] at h
    exact ⟨_, exec_run_truncated h0 (by omega), .faultedOver _ _ _ _ _ s⟩
  | cache k o =>
    have hlen : s.ip + 1 = s.inLen := Nat.le_antisymm h0 (Nat.le_of_lt_succ h)
    refine ⟨_, exec_cache_truncated hlen, ?_⟩
    rw [hlen]
    exact .faultedOver _ _ _ _ _ s

/-- A proper, non-empty beginning of a command is read as a truncated command: were it a whole one, the command's own bytes
would be read as that one. -/
theorem decodeStream_truncated_of_take {c : Command} {part : List Byte} (hc : c.toInstr.wellFormed = true)
    (hne : part ≠ []) (hlt : part.length < c.bytes.length) (hpart : part = c.bytes.take part.length) :
    ∃ d, decodeStream part = .truncated d := by
  cases hd : decodeStream part with
  | missing => exact absurd (decodeStream_missing_iff.1 hd) hne
  | truncated d => exact ⟨d, rfl⟩
  | command d rest =>
    obtain ⟨hbytes, hwf⟩ := bytes_of_decodeStream hd
    have hsplit : c.bytes = d.bytes ++ (rest ++ c.bytes.drop part.length) := by
      rw [← List.append_assoc, ← hbytes]
      exact (List.take_append_drop part.length c.bytes).symm.trans (congrArg (· ++ _) hpart.symm)
    have hread : Fetched.command c [] = .command d (rest ++ c.bytes.drop part.length) :=
      calc Fetched.command c []
          = decodeStream (c.bytes ++ []) := (decodeStream_bytes hc []).symm
        _ = decodeStream (d.bytes ++ (rest ++ c.bytes.drop part.length)) := by rw [List.append_nil, ← hsplit]
        _ = .command d (rest ++ c.bytes.drop part.length) := decodeStream_bytes hwf _
    injection hread with _ hnil
    have hdrop := (List.append_eq_nil_iff.1 hnil.symm).2
    exact absurd (List.drop_eq_nil_iff.1 hdrop) (Nat.not_le.2 hlt)

/-- Where a command byte is due and the input has ended, the decoding loop raises TruncatedStream (R186). -/
theorem State.decodePass_missing {S : List Byte} (hS : s.inMem.holds s.inLen S) (h : s.inLen ≤ s.ip) :
    s.decodePass = .next (s.markStart.raise .truncatedStream 0x00#8) := by
  have hwindow : s.window = [] := by
    rw [State.window_of_holds hS, List.drop_eq_nil_of_le (hS.2 ▸ h), List.take_nil]
  rw [State.decodePass, hwindow]
  rfl

/-- What is left of the input being a proper beginning of a command, the pass raises TruncatedStream with its first byte,
or 0 where there is none. -/
theorem State.decodePass_cutOff {S part : List Byte} {c : Command} (hS : s.inMem.holds s.inLen S)
    (hip : s.ip ≤ s.inLen) (hc : c.toInstr.wellFormed = true) (hdrop : S.drop s.ip = part)
    (hlt : part.length < c.bytes.length) (hpart : part = c.bytes.take part.length) :
    ∃ t, s.decodePass = .next t ∧ CutOff (part.headD 0x00#8) s t := by
  have hlen : s.ip + part.length = s.inLen := by
    rw [← hdrop, List.length_drop, ← hS.2]
    omega
  by_cases hne : part = []
  · have hend : s.ip = s.inLen := by simpa [hne] using hlen
    rw [hne]
    exact ⟨_, State.decodePass_missing hS hend.ge, ⟨rfl, rfl, rfl, hend, rfl⟩⟩
  · obtain ⟨d, hd⟩ := decodeStream_truncated_of_take hc hne hlt hpart
    obtain ⟨-, -, hshort, hbytes⟩ := bytes_of_truncated hd
    have hwindow : s.window = part := by
      rw [State.window_of_holds hS, hdrop]
      exact List.take_of_length_le (hlt.le.trans (Command.length_bytes_le hc).2)
    have hpos := List.length_pos_of_ne_nil hne
    obtain ⟨t, ht, hcut⟩ := execCommand_cutOff (c := d) (s := s) (by omega) (by omega)
    have hhead : d.bytes.headD 0x00#8 = part.headD 0x00#8 := by
      obtain ⟨b, l, hl⟩ := List.exists_cons_of_ne_nil hne
      rw [hbytes, hl]
      rfl
    refine ⟨t, ?_, hhead ▸ hcut⟩
    rw [State.decodePass, hwindow, hd]
    exact ht

/-! ## Whole decompressions -/

theorem exec_decompression {i : Instr} (h : i = .decompress ∨ i = .decompressNobuf) (s : State) :
    ∃ op, (op = 1#2 ∨ op = 2#2) ∧ exec i s = runOperation op s := by
  rcases h with rfl | rfl
  · exact ⟨1#2, .inl rfl, rfl⟩
  · exact ⟨2#2, .inr rfl, rfl⟩

/-- A decompression whose first commands are defined comes to the bytes after them, and a pass that ends it there gives its
result. -/
theorem runOperation_reaches {op : BitVec 2} {cs : List Command} {rest hist : List Byte} (hop : op = 1#2 ∨ op = 2#2)
    (hb : s.phase ≠ .busy) (hc : ∀ c ∈ cs, c.isChunk = true)
    (hS : s.inMem.holds s.inLen (streamBytes cs ++ rest)) (hP : logicalOutput cs = some hist) :
    ∃ u, Decoding (streamBytes cs ++ rest) hist u ∧ u.ip = (streamBytes cs).length ∧ u.inLen = s.inLen ∧
      (streamBytes cs ++ rest).drop u.ip = rest ∧
      ∀ t, u.decodePass = .next t → t.phase ≠ .busy → runOperation op s = .next t := by
  obtain ⟨n, hn⟩ : ∃ n, s.inLen + 1 = n + 1 + cs.length := by
    refine ⟨s.inLen - cs.length, ?_⟩
    have hle := streamBytes_length_ge (cs := cs)
    have hl := hS.2
    rw [List.length_append] at hl
    omega
  obtain ⟨u, hloop, hu, hip, -, -, hlen, -, hdrop⟩ := (Decoding.begin hS hop).commands (n + 1) hc List.drop_zero hP
  refine ⟨u, hu, hip.trans (Nat.zero_add _), hlen, hdrop, fun t ht hend => ?_⟩
  rw [runOperation, if_neg hb, hn, hloop]
  exact operationLoop_last n hu.busy (hu.pass_eq.trans ht) hend

/-- The command that leaves no defined history is a CACHE, and its copy meets an `Empty` slot (R213). -/
theorem cache_of_extend_none {w : Dict} {c : Command} {hist : List Byte} (hw : w.remembers hist)
    (hc : c.isChunk = true) (h : c.extend hist = none) :
    ∃ k o, c = .cache k o ∧ w.playback (cacheSource w.wc o) (k.toNat + 3) = none := by
  cases c with
  | endStream => cases hc
  | run lits => cases h
  | cache k o =>
    rw [Command.extend_eq_plays hw hc, Option.map_eq_none_iff] at h
    exact ⟨k, o, rfl, h⟩

end Sys2Proof.Machine
end

section
/-! PROOFS. The statements of 60_exceptions.md. -/

namespace Sys2Proof.Machine

/-- Settles O24: the loop of RUN stops at the first literal that is missing. -/
theorem runWithAMissingLiteralIsTruncated : Obligations.RunWithAMissingLiteralIsTruncated := by
  intro lits s hwf hg h0 h
  obtain ⟨-, hle⟩ := Command.isChunk_run_iff.1 hwf
  obtain ⟨hdelivered, hdict⟩ := State.faultedOver_delivers _ (lits.take (s.inLen - s.ip - 1)) _ _ _ _ _ hg
  obtain ⟨w, m, n, g, hframe⟩ := State.faultedOver_frame _ (lits.take (s.inLen - s.ip - 1)) _ _ _ _ _ s
  have hcount : (BitVec.ofNat 8 (s.ip + 1 + lits.length - s.inLen)).toNat = s.ip + 1 + lits.length - s.inLen := by
    rw [BitVec.toNat_ofNat]
    omega
  refine ⟨_, exec_run_truncated h0 h, ?_⟩
  rw [hframe] at hdelivered hdict ⊢
  exact ⟨rfl, rfl, runByte_toNat hle, rfl, rfl, rfl, hcount, hdelivered, hdict, rfl⟩

/-- Settles O26: the copy stops after its playable bytes, at the slot the playback does not find. -/
theorem cacheOfAnEmptySlotIsUndefined : Obligations.CacheOfAnEmptySlotIsUndefined := by
  intro k o s hg hfit (hp : s.dict.playback (cacheSource s.dict.wc o) (k.toNat + 3) = none)
  obtain ⟨hlt, hexec⟩ := exec_cache_undefined hfit rfl hp
  have hplay := s.dict.playback_playable (cacheSource s.dict.wc o) (k.toNat + 3)
  have hread := Dict.read_after_playable hp
  generalize s.dict.playable (cacheSource s.dict.wc o) (k.toNat + 3) = bs at hlt hexec hplay hread
  obtain ⟨hdelivered, hdict⟩ := State.faultedOver_delivers _ bs _ _ _ _ _ hg
  obtain ⟨w, m, n, g, hframe⟩ := State.faultedOver_frame _ bs _ _ _ _ _ s
  have hcount : (BitVec.ofNat 8 (k.toNat + 3 - bs.length)).toNat = k.toNat + 3 - bs.length := by
    rw [BitVec.toNat_ofNat]
    omega
  refine ⟨_, bs, hexec, hlt, hplay, hread, ?_⟩
  rw [hframe] at hdelivered hdict ⊢
  exact ⟨hdelivered, hdict, rfl, rfl, rfl, rfl, rfl, rfl, cacheByte_toNat k, hcount, rfl⟩

/-- Settles O31: the CACHE is reached, and its copy is from the dictionary that remembers the bytes produced. -/
theorem decompressionFaultsOnAnUndefinedCopy : Obligations.DecompressionFaultsOnAnUndefinedCopy := by
  intro s cs c rest hist hb hcs hc hS hP hnone i hi
  obtain ⟨op, hop, hexec⟩ := exec_decompression hi s
  rw [List.append_assoc] at hS
  obtain ⟨u, hu, hip, -, hdrop, hlast⟩ := runOperation_reaches hop hb hcs hS hP
  obtain ⟨k, o, rfl, hplay⟩ := cache_of_extend_none hu.dict hc hnone
  have hfit : u.ip + 1 < u.inLen := by
    rw [hip, hu.input.2]
    simp [Command.bytes]
  obtain ⟨-, hran⟩ := exec_cache_undefined hfit rfl hplay
  obtain ⟨w, m, n, g, hframe⟩ := State.faultedOver_frame (cacheByte k) _ (u.ip + 2) _ _ .undefinedDictionaryRead _ u
  rw [hframe] at hran
  refine ⟨_, hexec.trans (hlast _ ((State.decodePass_command hu.input rfl hdrop).trans hran) ?_), rfl, rfl, hip, ?_⟩
  · simp
  · exact congrArg (· + 2) hip

/-- Settles O32: the cut command is reached, and nothing is left of the input after it. -/
theorem decompressionFaultsOnATruncatedStream : Obligations.DecompressionFaultsOnATruncatedStream := by
  intro s cs c part hist hb hcs hc hlt hpart hS hP i hi
  obtain ⟨op, hop, hexec⟩ := exec_decompression hi s
  obtain ⟨u, hu, hip, hlen, hdrop, hlast⟩ := runOperation_reaches hop hb hcs hS hP
  have hle : u.ip ≤ u.inLen := by
    rw [hip, hu.input.2, List.length_append]
    exact Nat.le_add_right _ _
  obtain ⟨t, ht, hcut⟩ :=
    State.decodePass_cutOff hu.input hle (Command.wellFormed_of_isChunk hc) hdrop hlt hpart
  have hend : t.phase ≠ .busy := by simp [hcut.phase]
  exact ⟨t, hexec.trans (hlast t ht hend), hcut.phase, hcut.status, hcut.fpc.trans hip, hcut.ip.trans hlen, hcut.finfo⟩

/-- Settles O49: of the passes only a command of a decompression leaves the block FAULTED. -/
theorem runningOperationsFaultPrecisely : Obligations.RunningOperationsFaultPrecisely := by
  intro s t hi hb hh hp h hf
  obtain ⟨S, -, hpass⟩ := passed_of_step hi hb hh hp h
  rcases hpass.status hb (hi.status_zero hb) with ⟨-, hne⟩ | ⟨hcode, -⟩
  · exact absurd hf hne
  cases hpass with
  | chunk _ _ c xs m hc => rw [hc.keeps.phase] at hf; simp [hb] at hf
  | terminator _ _ he => rw [he] at hf; cases hf
  | command hop c hr =>
    refine ⟨?_, hcode, hr.fpc⟩
    rcases hop with hop | hop <;> simp [hop]

/-- Settles O3: `start` initialises and refuses the select. -/
theorem reservedSelectRaisesInvalidOperation : Obligations.ReservedSelectRaisesInvalidOperation := by
  intro s rest hb hh
  exact ⟨_, step_start_reserved hb hh, rfl, rfl, rfl, rfl, rfl, AtReset.beginReserved _ _, rfl, rfl⟩

/-- Settles O27: the offset byte is fetched before the source slot is computed. -/
theorem cacheWithoutItsOffsetIsTruncated : Obligations.CacheWithoutItsOffsetIsTruncated := by
  intro k o s h
  refine ⟨_, exec_cache_truncated h, rfl, rfl, cacheByte_toNat k, rfl, h, rfl, ?_, rfl⟩
  have := toNat_cacheLength k
  rwa [cacheLength_cacheByte] at this

/-- Settles O28: the pass of the decoding loop finds no byte at the end of the input. -/
theorem missingCommandByteIsTruncated : Obligations.MissingCommandByteIsTruncated := by
  intro s hb hop hok hp hh hip
  obtain ⟨S, hS⟩ := State.inputOk_iff.1 hok
  rw [step_quiet hh, blockStep_pass hp hb, State.enginePass_decode hok hop, State.decodePass_missing hS hip.ge,
    State.markStart, hip]
  rfl

end Sys2Proof.Machine
end

section
/-! SUPPORT. Operations from their `start` to their end (70_reset_and_hazards.md): what an accepted `start` leaves, that the
passes come to an end, which of them are DONE, and which registers they never reach. -/

namespace Sys2Proof.Machine

variable {S : List Byte} {s t : State} {op : BitVec 2}

/-! ## `start` (R241) -/

/-- An accepted `start` writes `OP` and `PHASE` only, after the initialising. -/
theorem AtReset.begin (op : BitVec 2) (s : State) : AtReset (s.begin op) := { AtReset.initialise s with }

/-- `start` looks at the input only, and keeps what the host does next. -/
theorem State.begin_congr (op : BitVec 2) (hm : s.inMem = t.inMem) (hl : s.inLen = t.inLen) (hh : s.host = t.host) :
    s.begin op = t.begin op := by
  simp only [State.begin, State.initialise, hm, hl, hh]

/-- An operation that is not ignored is the loop of its passes. -/
theorem runOperation_accepted (op : BitVec 2) (hb : s.phase ≠ .busy) :
    runOperation op s = operationLoop (s.inLen + 1) (s.begin op) := if_neg hb

theorem startWhole_accepted (hb : s.phase ≠ .busy) (hop : op ≠ 3#2) :
    startWhole op s = operationLoop (s.inLen + 1) (s.begin op) := by
  rw [← runOperation_accepted op hb]
  rcases op_cases op with rfl | rfl | rfl | rfl
  · rfl
  · rfl
  · rfl
  · exact absurd rfl hop

/-- The block-level instructions are the operations of the selects that are not reserved (R100). -/
theorem exec_operation {i : Instr} (h : i = .compress ∨ i = .decompress ∨ i = .decompressNobuf) :
    ∃ op, op ≠ 3#2 ∧ ∀ s, exec i s = runOperation op s := by
  rcases h with rfl | rfl | rfl
  · exact ⟨0#2, by decide, fun _ => rfl⟩
  · exact ⟨1#2, by decide, fun _ => rfl⟩
  · exact ⟨2#2, by decide, fun _ => rfl⟩

/-- Begun by the looked-on form of `start`, an operation ends where its loop of passes ends (D17). -/
theorem operationLoop_startStepped (op : BitVec 2) (hb : s.phase ≠ .busy) :
    operationLoop (s.inLen + 1) (startStepped op s) = startWhole op s := by
  by_cases hop : op = 3#2
  · rw [hop, startStepped_reserved hb, startWhole_reserved hb]
    exact operationLoop_ended _ (by simp [State.beginReserved])
  · rw [startStepped_accepted hb hop, startWhole_accepted hb hop]

/-- An accepted `start` empties the dictionary port and keeps what the host does next. -/
theorem startStepped_queues (op : BitVec 2) (hb : s.phase ≠ .busy) :
    (startStepped op s).port = [] ∧ (startStepped op s).host = s.host := by
  by_cases hop : op = 3#2
  · rw [hop, startStepped_reserved hb]
    exact ⟨rfl, rfl⟩
  · rw [startStepped_accepted hb hop]
    exact ⟨rfl, rfl⟩

/-! ## The end of an operation (R252) -/

/-- `IN_LEN + 1` passes are enough: each but the last consumes input. -/
theorem operationLoop_ends {n : Nat} (hS : s.inMem.holds s.inLen S) (hop : s.op ≠ 3#2) (hip : s.ip ≤ s.inLen)
    (hn : s.inLen < s.ip + n) : ∃ t, operationLoop n s = .next t ∧ t.phase ≠ .busy := by
  induction n generalizing s with
  | zero => omega
  | succ n ih =>
    by_cases hb : s.phase = .busy
    · obtain ⟨t, ht, hp⟩ := State.enginePass_passed hS hop
      have hk := hp.keeps
      rcases hp.progress hb hS with he | ⟨-, hlt, hle⟩
      · exact ⟨t, operationLoop_last n hb ht he, he⟩
      · rw [operationLoop, if_pos hb, ht]
        exact ih (by rw [hk.inMem, hk.inLen]; exact hS) (hk.op ▸ hop) (hk.inLen ▸ hle) (by rw [hk.inLen]; omega)
    · exact ⟨s, operationLoop_ended _ hb, hb⟩

/-- What every pass of an operation keeps, the operation keeps from its beginning to its end. -/
theorem runOperation_keeps {P : State → Prop} (hop : op ≠ 3#2) (hb : s.phase ≠ .busy)
    (hP : ∀ S u v, u.op = op → u.phase = .busy → Passed S u v → P u → P v) (h0 : P (s.begin op))
    (h : runOperation op s = .next t) : P t := by
  rw [runOperation_accepted op hb] at h
  refine (operationLoop_keeps (P := fun u => u.op = op ∧ P u) ?_ ⟨rfl, h0⟩ h).2
  rintro u v ⟨hu, hPu⟩ hbu he
  obtain ⟨S, -, hp⟩ := Passed.of_enginePass (hu ▸ hop) he
  exact ⟨hp.keeps.op.trans hu, hP S u v hu hbu hp hPu⟩

/-- How an operation that has begun stands: it runs or is DONE without a fault, or TruncatedStream or
UndefinedDictionaryRead has ended it (R243). -/
inductive OperationStands (t : State) : Prop where
  | running (phase : t.phase = .busy) (status : t.status = 0#3)
  | done (phase : t.phase = .done) (status : t.status = 0#3)
  | faulted (phase : t.phase = .faulted) (status : t.status = 1#3 ∨ t.status = 3#3)

theorem OperationStands.status_of_busy (h : OperationStands t) (hb : t.phase = .busy) : t.status = 0#3 := by
  cases h with
  | running _ hs => exact hs
  | done hp => rw [hp] at hb; cases hb
  | faulted hp => rw [hp] at hb; cases hb

theorem Passed.stands (h : Passed S s t) (hb : s.phase = .busy) (h0 : s.status = 0#3) : OperationStands t := by
  rcases h.status hb h0 with ⟨hs, hne⟩ | ⟨hs, hf⟩
  · cases hp : t.phase with
    | idle => exact absurd hp (h.phase_ne_idle hb)
    | busy => exact .running hp hs
    | done => exact .done hp hs
    | faulted => exact absurd hp hne
  · exact .faulted hf hs

theorem runOperation_stands (hop : op ≠ 3#2) (hb : s.phase ≠ .busy) (h : runOperation op s = .next t) :
    OperationStands t :=
  runOperation_keeps hop hb (fun _ _ _ _ hbu hp hu => hp.stands hbu (hu.status_of_busy hbu)) (.running rfl rfl) h

/-! ## The passes that are DONE (R243) -/

/-- The first byte of a command says whether it is END (R97). -/
theorem Command.head?_bytes_eq_zero_iff {c : Command} (h : c.toInstr.wellFormed = true) :
    c.bytes.head? = some 0x00#8 ↔ c = .endStream := by
  cases c with
  | endStream => exact iff_of_true rfl rfl
  | run lits =>
    obtain ⟨h1, h127⟩ := Command.isChunk_run_iff.1 h
    exact iff_of_false (fun he => runByte_ne_zero h1 h127 (Option.some.inj he)) (by simp)
  | cache k o => exact iff_of_false (fun he => cacheByte_ne_zero k (Option.some.inj he)) (by simp)

/-- Of the commands exactly an END that is present leaves the block DONE. -/
theorem CommandRan.done_iff {c : Command} (h : CommandRan c s t) (hb : s.phase = .busy) :
    t.phase = .done ↔ s.ip < s.inLen ∧ c = .endStream := by
  cases h.ending with
  | completes hne hp => exact iff_of_false (by simp [hp, hb]) fun he => hne he.2
  | ends he hp _ hip hfits => exact iff_of_true hp ⟨by omega, he⟩
  | faults hp _ _ _ hne => exact iff_of_false (by simp [hp]) fun he => hne he.1 he.2

/-- Of the passes exactly the terminator and an END that is present leave the block DONE. -/
theorem Passed.done_iff (h : Passed S s t) (hb : s.phase = .busy) (hip : s.ip ≤ s.inLen) :
    t.phase = .done ↔ (s.op = 0#2 ∧ s.ip = s.inLen) ∨ (s.op ≠ 0#2 ∧ s.inByte s.ip = some 0x00#8) := by
  cases h with
  | chunk h0 hlt c xs m hc =>
    have hbusy : t.phase = .busy := hc.keeps.phase.trans hb
    refine iff_of_false (by simp [hbusy]) ?_
    rintro (⟨-, he⟩ | ⟨hne, -⟩)
    · exact hlt.ne he
    · exact hne h0
  | terminator h0 hle he => exact iff_of_true (by rw [he]; rfl) (.inl ⟨h0, by omega⟩)
  | command h12 c hr hfirst hwf =>
    have hop : s.op ≠ 0#2 := by rcases h12 with h | h <;> simp [h]
    rw [hr.done_iff hb]
    simp only [hop, false_and, false_or, ne_eq, not_false_eq_true, true_and]
    by_cases hlt : s.ip < s.inLen
    · rw [hfirst hlt, Command.head?_bytes_eq_zero_iff (hwf hlt)]
      exact and_iff_right hlt
    · exact iff_of_false (fun he => hlt he.1) (by simp [State.inByte, hlt])

/-! ## The registers an operation does not use (R33 to R37) -/

/-- The decoder's registers, the warning and the shadow at their reset values. -/
structure DecoderAtReset (t : State) : Prop where
  cmd : t.cmd = 0x00#8
  cnt : t.cnt = 0x00#8
  src : t.src = 0x00#8
  grp : t.grp = []
  warn : t.warn = false
  dropped : t.dropped = 0#2
  notHeld : t.shadow = none

/-- The encoder's registers, the search result and the shadow at their reset values. -/
structure EncoderAtReset (t : State) : Prop where
  mode : t.mode = .run
  lit : t.lit = []
  cand : t.cand = []
  fres : t.fres = none
  notHeld : t.shadow = none

/-- No byte is pending in a group, and none has been discarded. -/
structure NothingPending (t : State) : Prop where
  grp : t.grp = []
  warn : t.warn = false
  dropped : t.dropped = 0#2

/-- A pass of COMPRESS leaves the decoder at reset. -/
theorem Passed.decoderAtReset (h : Passed S s t) (hop : s.op = 0#2) (hs : DecoderAtReset s) : DecoderAtReset t := by
  cases h with
  | chunk _ _ c xs m hc hsh =>
    have k := hc.keeps
    exact ⟨k.cmd.trans hs.cmd, k.cnt.trans hs.cnt, k.src.trans hs.src, k.grp.trans hs.grp, k.warn.trans hs.warn,
      k.dropped.trans hs.dropped, hsh.elim id fun e => e.trans hs.notHeld⟩
  | terminator _ _ he => subst he; exact { hs with }
  | command h12 => simp [hop] at h12

/-- A pass of a decompression leaves the encoder at reset. -/
theorem Passed.encoderAtReset (h : Passed S s t) (hop : s.op ≠ 0#2) (hs : EncoderAtReset s) : EncoderAtReset t := by
  cases h with
  | chunk h0 => exact absurd h0 hop
  | terminator h0 => exact absurd h0 hop
  | command _ c hr =>
    have k := hr.keeps
    exact ⟨k.mode.trans hs.mode, k.lit.trans hs.lit, k.cand.trans hs.cand, k.fres.trans hs.fres,
      k.shadow.trans hs.notHeld⟩

/-- In no-buffer mode Produce leaves the group as it is (R185). -/
theorem State.produceAll_grp_nobuf (bs : List Byte) (hop : s.op = 2#2) (hg : s.grp.length < 4) :
    (s.produceAll bs).grp = s.grp := by
  have hd := Delivered.produceAll bs hg
  rw [Delivered, if_pos hop] at hd
  exact hd.2

/-- A pass of no-buffer decompression leaves nothing pending (R181). -/
theorem Passed.nothingPending (h : Passed S s t) (hop : s.op = 2#2) (hs : NothingPending s) : NothingPending t := by
  obtain ⟨hw, hd⟩ := h.flags.resolve_right fun hf => by simp [hop] at hf
  refine ⟨?_, hw.trans hs.warn, hd.trans hs.dropped⟩
  cases h with
  | chunk h0 => simp [hop] at h0
  | terminator h0 => simp [hop] at h0
  | command _ c hr =>
    obtain ⟨bs, -, -, -, hg | hg⟩ := hr.produced
    · rw [hg, State.produceAll_grp_nobuf bs hop (by simp [hs.grp]), hs.grp]
    · exact hg

/-- No pass reaches the dictionary port's requests, its read value or the host's actions: an operation leaves them as
`start` made them. -/
theorem runOperation_queues (hop : op ≠ 3#2) (hb : s.phase ≠ .busy) (h : runOperation op s = .next t) :
    t.port = [] ∧ t.readOut = none ∧ t.host = s.host := by
  refine runOperation_keeps (P := fun u => u.port = [] ∧ u.readOut = none ∧ u.host = s.host) hop hb ?_
    ⟨rfl, rfl, rfl⟩ h
  rintro S u v - - hp ⟨hport, hread, hhost⟩
  have k := hp.keeps
  exact ⟨k.port.trans hport, k.readOut.trans hread, k.host.trans hhost⟩

/-! ## The host's reads and writes (R249) -/

theorem State.statusReadable_iff : s.statusReadable = true ↔ s.phase ≠ .busy := decide_eq_true_iff

theorem State.resultReadable_iff : s.resultReadable = true ↔ s.phase = .done := decide_eq_true_iff

theorem State.faultReadable_iff : s.faultReadable = true ↔ s.phase = .faulted := decide_eq_true_iff

theorem hostRead_allowed {allowed : Bool} (h : allowed = true) (s : State) : hostRead allowed s = .next s := if_pos h

theorem hostRead_refused {allowed : Bool} (h : ¬allowed = true) (s : State) :
    hostRead allowed s = .refused .outputReadInWrongPhase := if_neg h

theorem hostLoad_accepted (bytes : List Byte) (hb : s.phase ≠ .busy) :
    hostLoad bytes s = .next { s with inMem := Memory.ofBytes bytes, inLen := bytes.length } := if_neg hb

theorem hostLoad_refused (bytes : List Byte) (hb : s.phase = .busy) :
    hostLoad bytes s = .refused .inputChangedWhileBusy := if_pos hb

end Sys2Proof.Machine
end

section
/-! PROOFS. The statements of 70_reset_and_hazards.md. -/

namespace Sys2Proof.Machine

/-- Settles O33: the passes come to an end, and every one leaves the block running, DONE or with one of the two faults. -/
theorem decompressionAlwaysEnds : Obligations.DecompressionAlwaysEnds := by
  intro s i hb hok hi
  obtain ⟨op, hop, hexec⟩ := exec_operation (.inr hi)
  obtain ⟨S, hS⟩ := State.inputOk_iff.1 hok
  obtain ⟨t, hloop, hend⟩ :=
    operationLoop_ends (s := s.begin op) (n := s.inLen + 1) hS hop (Nat.zero_le _) (by simp)
  have hrun : runOperation op s = .next t := (runOperation_accepted op hb).trans hloop
  refine ⟨t, (hexec s).trans hrun, ?_⟩
  cases runOperation_stands hop hb hrun with
  | running hp => exact absurd hp hend
  | done hp hs => exact .inl ⟨hp, hs⟩
  | faulted hp hs => exact .inr ⟨hp, hs⟩

/-- Settles O39: every pass of an operation leaves at reset what `start` has put there and the operation does not use. -/
theorem operationsLeaveTheOtherEngineAtReset : Obligations.OperationsLeaveTheOtherEngineAtReset := by
  intro i s t hb h
  refine ⟨?_, fun hi => ?_, ?_, fun hi => ?_⟩
  · rintro rfl
    obtain ⟨hcmd, hcnt, hsrc, hgrp, hwarn, hdropped, hshadow⟩ :=
      runOperation_keeps (P := DecoderAtReset) (by decide) hb (fun _ _ _ hop _ hp => hp.decoderAtReset hop)
        ⟨rfl, rfl, rfl, rfl, rfl, rfl, rfl⟩ h
    exact ⟨hcmd, hcnt, hsrc, hgrp, hwarn, hdropped, hshadow⟩
  · obtain ⟨op, hop, hexec⟩ := exec_decompression hi s
    obtain ⟨h0, h3⟩ : op ≠ 0#2 ∧ op ≠ 3#2 := by rcases hop with rfl | rfl <;> decide
    obtain ⟨hmode, hlit, hcand, hfres, hshadow⟩ :=
      runOperation_keeps (P := EncoderAtReset) h3 hb (fun _ _ _ hop _ hp => hp.encoderAtReset (hop ▸ h0))
        ⟨rfl, rfl, rfl, rfl, rfl⟩ (hexec ▸ h)
    exact ⟨hmode, hlit, hcand, hfres, hshadow⟩
  · rintro rfl
    obtain ⟨hgrp, hwarn, hdropped⟩ :=
      runOperation_keeps (P := NothingPending) (by decide) hb (fun _ _ _ hop _ hp => hp.nothingPending hop)
        ⟨rfl, rfl, rfl⟩ h
    exact ⟨hgrp, hwarn, hdropped⟩
  · obtain ⟨op, hop, hexec⟩ := exec_operation hi
    exact runOperation_queues hop hb (hexec s ▸ h)

/-- Settles O41: after the step that takes `startStepped`, steps are passes, as many as the whole operation makes. -/
theorem stepwiseRunEqualsWholeOperation : Obligations.StepwiseRunEqualsWholeOperation := by
  intro s op hb
  have hfirst : step { s with host := [.startStepped op] } = .next (startStepped op { s with host := [] }) := rfl
  have hwhole : step { s with host := [.start op] } = startWhole op { s with host := [] } := rfl
  obtain ⟨hport, hhost⟩ := startStepped_queues (s := { s with host := [] }) op hb
  rw [run_succ, hfirst, hwhole, ← operationLoop_startStepped (s := { s with host := [] }) op hb]
  exact run_eq_operationLoop hport hhost

/-- Settles O47: the step is a pass, and of the passes only the terminator and END are DONE. -/
theorem doneIsReachedInTwoWays : Obligations.DoneIsReachedInTwoWays := by
  intro s t hi hb hh hp h
  obtain ⟨S, -, hpass⟩ := passed_of_step hi hb hh hp h
  exact hpass.done_iff hb (hi.cursor hb)

/-- Settles O48: the step is a pass. -/
theorem everyPassEndsOrConsumesInput : Obligations.EveryPassEndsOrConsumesInput := by
  intro s t hi hb hh hp h
  obtain ⟨S, hS, hpass⟩ := passed_of_step hi hb hh hp h
  exact (hpass.progress hb hS).imp_right And.right

/-- Settles O1: `reset` is the initialising and nothing else. -/
theorem resetRestoresEveryElement : Obligations.ResetRestoresEveryElement :=
  fun _ _ hh => ⟨_, step_host hh, AtReset.initialise _, rfl, rfl, rfl, rfl, rfl, rfl⟩

/-- Settles O2: every form of `start` is ignored while BUSY; accepted, it initialises, and the reserved select is refused. -/
theorem startInitialisesAndSelects : Obligations.StartInitialisesAndSelects := by
  refine ⟨fun s op rest hb hh => ?_, fun s i hb hi => ?_, fun s op rest hb hh => ?_⟩
  · rcases hh with hh | hh
    · exact (step_host hh).trans (startWhole_ignored (s := { s with host := rest }) op hb)
    · exact (step_host hh).trans (congrArg _ (startStepped_ignored (s := { s with host := rest }) op hb))
  · obtain ⟨op, -, hexec⟩ := exec_operation hi
    exact (hexec s).trans (runOperation_ignored op hb)
  · refine ⟨startStepped op { s with host := rest }, step_host hh, ?_⟩
    by_cases hop : op = 3#2
    · rw [hop, startStepped_reserved (s := { s with host := rest }) hb]
      exact ⟨AtReset.beginReserved _ _, rfl, rfl, rfl, rfl, fun h => absurd rfl h, fun _ => ⟨rfl, rfl, rfl⟩⟩
    · rw [startStepped_accepted (s := { s with host := rest }) hb hop]
      exact ⟨AtReset.begin op _, rfl, rfl, rfl, rfl, fun _ => ⟨rfl, rfl, rfl⟩, fun h => absurd h hop⟩

/-- Settles O4: each action of the host by the phases in which it may be made. -/
theorem hostProtocolByPhase : Obligations.HostProtocolByPhase := by
  intro s rest
  refine ⟨fun bytes hh => ?load, fun hh => step_host hh, fun hh => ?status, fun hh => ?result, fun hh => ?fault⟩ <;>
    rw [step_host hh]
  case load =>
    exact ⟨fun hb => hostLoad_refused bytes hb, fun hb => ⟨_, hostLoad_accepted bytes hb, ⟨rfl, rfl⟩, rfl⟩⟩
  case status =>
    exact ⟨fun hb => hostRead_refused (fun h => State.statusReadable_iff.1 h hb) _,
      fun hb => hostRead_allowed (State.statusReadable_iff.2 hb) _⟩
  case result =>
    exact ⟨fun hd => hostRead_allowed (State.resultReadable_iff.2 hd) _,
      fun hd => hostRead_refused (fun h => hd (State.resultReadable_iff.1 h)) _⟩
  case fault =>
    exact ⟨fun hf => hostRead_allowed (State.faultReadable_iff.2 hf) _,
      fun hf => hostRead_refused (fun h => hf (State.faultReadable_iff.1 h)) _⟩

/-- Settles O40: the two operations begin in the same state. -/
theorem operationDependsOnTheInputOnly : Obligations.OperationDependsOnTheInputOnly := by
  intro s t i hs ht hm hl hi
  obtain ⟨op, -, hexec⟩ := exec_operation hi
  rw [hexec, hexec, runOperation_accepted op hs, runOperation_accepted (s := { t with host := s.host }) op ht, hl]
  exact congrArg _ (State.begin_congr op hm hl rfl)

end Sys2Proof.Machine
end
